-- ==== Sys2Proof/Word.lean ====
section
/-! DEFINITION. The widths of the unit's data and the ranges of its operand numbers (rules R5, R6, R20, R33, R72). -/

namespace Sys2Proof

/-- A 32-bit word: a general register, the command pointer, one command, one CRC (rules R5, R20, R70). -/
abbrev Word := BitVec 32

/-- A 16-bit number: a plane dimension, one half of a coordinate, an immediate (rules R31, R34, R73). -/
abbrev Half := BitVec 16

/-- One element of an element buffer or of a plane (rules R5, R33, R35). -/
abbrev Byte := BitVec 8

/-- A 64-bit number: a fault information word, one draw of the generator (rules R28, R171). -/
abbrev DWord := BitVec 64

/-- The number of a general register `x0` to `x15`; all 16 values are legal (rules R20, R72). -/
abbrev Reg := Fin 16

/-- The number of an element buffer `B0` to `B3` (rules R33, R72). -/
abbrev Buf := Fin 4

/-- The base of five consecutive result registers, at most 11 (rules R72, R80 item 4). -/
abbrev Base5 := Fin 12

end Sys2Proof
end

