-- ==== Sys2Proof/Machine/Bits.lean ====
section
/-! DEFINITION. Numbers and bit sequences (rules R6, R8): a bit sequence is a list of Bool, first bit least significant; an
element of a buffer stands for the bit in its bit 0. -/

namespace Sys2Proof.Machine

/-- `ceil(a / b)` (rule R6). -/
def ceilDiv (a b : Nat) : Nat := (a + b - 1) / b

/-- `bitlen(v)`: the number of bits of the minimal binary form of `v`, 0 for 0 (rule R6). -/
def bitlen (v : Nat) : Nat := if v = 0 then 0 else Nat.log2 v + 1

/-- `Val(bits)`, first bit least significant (rule R8). -/
def val : List Bool → Nat
  | [] => 0
  | b :: bs => b.toNat + 2 * val bs

/-- `BitsOf(v, w)`: exactly `w` bits of `v`, least significant first (rule R8). -/
def bitsOf : Nat → Nat → List Bool
  | _, 0 => []
  | v, w + 1 => (v % 2 == 1) :: bitsOf (v / 2) w

/-- The bit a buffer element stands for: its bit 0, whatever its other bits hold (rules R8, R33). -/
def bitOfElem (e : Byte) : Bool := e.getLsbD 0

/-- The element a producer writes for a bit: 0 or 1 (rule R33). -/
def elemOfBit (b : Bool) : Byte := if b then 1 else 0

/-- `m` consecutive chunks of `g` elements. -/
def chunks (g : Nat) : Nat → List Bool → List (List Bool)
  | 0, _ => []
  | m + 1, bits => bits.take g :: chunks g m (bits.drop g)

/-- `bits` with zero bits appended to reach `n` of them. -/
def padTo (n : Nat) (bits : List Bool) : List Bool := bits ++ List.replicate (n - bits.length) false

end Sys2Proof.Machine
end

