-- ==== Sys2Proof/Config.lean ====
section
/-! DEFINITION. The parameters of the unit (rule R5): the fixed ones as numbers, the OPEN ones as constants without a
body, so that no proof can know their values. -/

namespace Sys2Proof

/-- The four capacities rule R5 leaves OPEN. A state carries them, so that every claim about all states is a claim about
all capacities; no command and no host action changes them. -/
structure Capacities where
  /-- `BUF_CAP`: capacity of each element buffer, in elements. -/
  bufCap : Nat
  /-- `CRD_CAP`: capacity of the coordinate buffer, in coordinates. -/
  crdCap : Nat
  /-- `PLANE_CAP`: capacity of each of the two plane memories, in elements. -/
  planeCap : Nat
  /-- `CMD_CAP`: capacity of the command memory, in 32-bit words. -/
  cmdCap : Nat
deriving DecidableEq, Repr

/-- The constraint rule R5 puts on the capacities: the first three lie in `[1, 2^32 - 1]`, `CMD_CAP` in `[1, 2^16]`. -/
abbrev Capacities.Lawful (c : Capacities) : Prop :=
  (1 ≤ c.bufCap ∧ c.bufCap ≤ 2 ^ 32 - 1) ∧ (1 ≤ c.crdCap ∧ c.crdCap ≤ 2 ^ 32 - 1) ∧
  (1 ≤ c.planeCap ∧ c.planeCap ≤ 2 ^ 32 - 1) ∧ (1 ≤ c.cmdCap ∧ c.cmdCap ≤ 2 ^ 16)

/-- `BUF_CAP - 1`, OPEN (rule R5); the type carries the range. Log entry 1. -/
opaque Config.bufCapPred : Fin 4294967295

/-- `CRD_CAP - 1`, OPEN (rule R5). Log entry 1. -/
opaque Config.crdCapPred : Fin 4294967295

/-- `PLANE_CAP - 1`, OPEN (rule R5). Log entry 1. -/
opaque Config.planeCapPred : Fin 4294967295

/-- `CMD_CAP - 1`, OPEN (rule R5). Log entry 1. -/
opaque Config.cmdCapPred : Fin 65536

/-- The capacities of the unit as built: OPEN, within the ranges of rule R5. Log entry 1. -/
def Config.capacities : Capacities where
  bufCap := Config.bufCapPred.val + 1
  crdCap := Config.crdCapPred.val + 1
  planeCap := Config.planeCapPred.val + 1
  cmdCap := Config.cmdCapPred.val + 1

/-- `DEFLATE_FN`, the compressor: OPEN (rules R5, R121). The law rule R121 asks of it is `LawfulCompressor` of
`Machine/Compression.lean`; a claim that needs the law takes it as a hypothesis. Log entry 2. -/
opaque Config.deflateFn : List Byte → List Byte

/-- What `PH` or `PW` holds after the host wrote it a 32-bit value of `2^16` or more, by HostWriteReg or by HostLoadPlane,
from what it held and the value written: the spec gives the registers 16 bits and does not say (rules R23, R31, R62).
Log entry 3. -/
opaque Config.wideDimension : Half → Word → Half

/-- `MAX_HEADER_BITS`: the permuted coordinates EXTRACT reads as the candidate header (rule R5). -/
def Config.maxHeaderBits : Nat := 2121

/-- `MAX_PAYLOAD`: the largest payload length in bytes (rule R5). -/
def Config.maxPayload : Nat := 2 ^ 31 - 1

/-- `MAX_FILENAME`: the largest filename length in bytes (rule R5). -/
def Config.maxFilename : Nat := 255

/-- `PERM_ALG`: the version of the seeded shuffle (rules R5, R172). -/
def Config.permAlg : Byte := 1

/-- The command-set revision (rule R30). -/
def Config.revision : Byte := 1

/-- The constant the `VERSION` register reads: revision in bits 15 to 8, `PERM_ALG` in bits 7 to 0 (rule R30). -/
def Config.version : Half := Config.revision ++ Config.permAlg

/-- The command-set string (rule R1). -/
def Config.commandSet : String := "SCU1.0"

end Sys2Proof
end

