-- ==== Sys2Proof/Machine/State.lean ====
section
/-! DEFINITION. The architectural state (rules R20 to R38), the faults (rule R300) and the state after reset (rules R38,
R341). -/

namespace Sys2Proof.Machine

/-- The run state (rule R22). -/
inductive RunState where
  /-- 0: after reset, or after the host cleared a finished run; nothing executes. -/
  | idle
  /-- 1: the sequencer executes commands, one per step. -/
  | running
  /-- 2: a `HALT` ended the run; nothing executes. -/
  | done
  /-- 3: a command raised a fault; nothing executes; the fault registers hold the cause. -/
  | faulted
deriving DecidableEq, Repr

/-- A coordinate `(row, col)`: one element of the coordinate buffer (rules R7, R34). -/
structure Coord where
  row : Half
  col : Half
deriving DecidableEq, Repr

/-- One memory space of elements of `w` bits, indexed from 0: the elements that differ from the reset value 0, by strictly
rising index (rules R35, R36, R38). With `w = 8` it is a list of `Host.Cell`. -/
abbrev Memory (w : Nat) := List (Nat × BitVec w)

/-- What an unlisted index reads as: 0, the value of every plane element and every command word after reset (rule R38). -/
def blankCell (w : Nat) : BitVec w := 0#w

/-- The twelve faults of rule R300, each with the numbers its information words report. None of them stops the model:
the spec describes what entering one does (rule R305), so a step that raises one answers a NEXT state whose run state is
`faulted`, and the machine's step never answers `.fault` (DEDUCED, log entry 5). Safe: nothing is cut short. -/
inductive Fault where
  /-- 1, a bit depth, OPA depth or group width outside `[1, 8]` (rule R306): VLSB, EMBED, HENC, OPA, SCAT, GATH, B2G, G2B. -/
  | invalidParameter (value : Nat)
  /-- 2, the destination uses a lossy image format (rule R307): VFMT, EMBED. -/
  | unsupportedOutputFormat
  /-- 3, slots needed exceed pixels available (rule R308): VCAP, EMBED. -/
  | insufficientCapacity (needed available : Nat)
  /-- 4, more than 32 bits to pack (rule R309): PACK. -/
  | bitWidthOverflow (offered : Nat)
  /-- 5, the recomputed checksum (or `2^32`, an overrun) differs from the stored one (rule R310): VCRC, EXTRACT. -/
  | integrityFailure (stored recomputed : Nat)
  /-- 6, the fetched word is not a legal command (rule R311): decode. -/
  | illegalCommand (word : Nat)
  /-- 7, `cp >= CMD_CAP` at fetch (rule R312): fetch. -/
  | fetchFault (cp cap : Nat)
  /-- 8, a value outside what the command accepts (rule R313). -/
  | operandRange (value limit : Nat)
  /-- 9, a result longer than its destination's capacity (rule R314): every write of a buffer or of `C`. -/
  | bufferOverflow (length cap : Nat)
  /-- 10, not a well-formed raw DEFLATE stream (rule R315): INFL, EXTRACT. -/
  | inflateError (length : Nat)
  /-- 11, a payload longer than `2^31 - 1` bytes (rule R316): HENC, EMBED. -/
  | payloadTooLong (length : Nat)
  /-- 12, the header bits end inside a field (rule R317): HDEC, EXTRACT. -/
  | headerTruncated (needed available : Nat)
deriving DecidableEq, Repr

/-- Why the model has no meaning for a step. No arm of `exec` raises it: every command has its meaning. -/
inductive Refusal where
  /-- Raised by an arm of `exec` for a command without a meaning; no such arm is left. Safe: it stops the model. -/
  | notModelled (mnemonic : String)
deriving DecidableEq, Repr

/-- The architectural state of the unit (rules R11, R20 to R36). `VERSION` is a constant (rule R30) and `CTRL` a
write-only trigger (rule R24), so neither is a field; `STATUS` is `runState`, `BLENi` and `CLEN` are the lengths of the
sequences. -/
structure State where
  /-- General registers `x0` to `x15` (rule R20). -/
  x : Vector Word 16
  /-- Command pointer (rule R21). -/
  cp : Word
  /-- Run state (rules R22, R25). -/
  runState : RunState
  /-- `ECODE` (rule R27). -/
  ecode : Byte
  /-- `EINFO0` (rule R28). -/
  einfo0 : DWord
  /-- `EINFO1` (rule R28). -/
  einfo1 : DWord
  /-- `EPC` (rule R29). -/
  epc : Word
  /-- `PH`, the plane's height in pixels (rule R31). -/
  ph : Half
  /-- `PW`, the plane's width in pixels (rule R31). -/
  pw : Half
  /-- Element buffers `B0` to `B3`, each the sequence it holds (rules R32, R33). -/
  bufs : Vector (List Byte) 4
  /-- Coordinate buffer `C` (rules R32, R34). -/
  coords : List Coord
  /-- Working plane `PL` (rule R35). -/
  pl : Memory 8
  /-- Reference plane `RF` (rule R35). -/
  rf : Memory 8
  /-- Command memory `CM` (rule R36). -/
  cm : Memory 32
  /-- The MODEL's own field: the capacities of the unit, parameters that rule R5 leaves OPEN; nothing changes them. -/
  caps : Capacities
deriving DecidableEq, Repr

/-- The state after reset of a unit of the given capacities: the table of rules R38 and R341. -/
def State.resetWith (c : Capacities) : State where
  x := Vector.replicate 16 0
  cp := 0
  runState := .idle
  ecode := 0
  einfo0 := 0
  einfo1 := 0
  epc := 0
  ph := 0
  pw := 0
  bufs := Vector.replicate 4 []
  coords := []
  pl := []
  rf := []
  cm := []
  caps := c

/-- The state after reset (rules R38, R341), of a unit whose capacities are the OPEN parameters of rule R5. -/
def State.reset : State := State.resetWith Config.capacities

end Sys2Proof.Machine
end

