-- ==== Sys2Proof/Machine/Ops.lean ====
section
/-! DEFINITION. The named operations over memories, registers and buffers (rules R9, R50 to R57), entering a fault
(rule R305) and acknowledging one (rule R24), and how a command ends (rule R270). -/

namespace Sys2Proof.Machine

/-! ### Memory spaces -/

/-- One canonical form: indices strictly rising, no element listed that equals what an unlisted index reads as. -/
abbrev Memory.wf {w : Nat} (m : Memory w) : Prop :=
  m.Pairwise (fun p q => p.1 < q.1) ∧ ∀ p ∈ m, p.2 ≠ blankCell w

/-- Every listed index lies below `cap`: nothing is held where the space has no element (rule R50). -/
abbrev Memory.below {w : Nat} (m : Memory w) (cap : Nat) : Prop := ∀ p ∈ m, p.1 < cap

/-- `MemRead(space, i, 1)` (rule R9). -/
def Memory.read {w : Nat} : Memory w → Nat → BitVec w
  | [], _ => blankCell w
  | (a, v) :: m, i => if a = i then v else Memory.read m i

/-- `MemWrite(space, i, 1, v)` (rule R9), keeping the canonical form. -/
def Memory.write {w : Nat} : Memory w → Nat → BitVec w → Memory w
  | [], i, v => if v = blankCell w then [] else [(i, v)]
  | (a, u) :: m, i, v =>
    if i < a then (if v = blankCell w then (a, u) :: m else (i, v) :: (a, u) :: m)
    else if i = a then (if v = blankCell w then m else (i, v) :: m)
    else (a, u) :: Memory.write m i v

/-- `MemRead(space, 0, n)`: the first `n` elements (rule R9). -/
def Memory.readAll {w : Nat} (m : Memory w) (n : Nat) : List (BitVec w) := (List.range n).map m.read

/-- `MemWrite(space, i, len(vs), vs)`: consecutive elements from index `i` (rule R9). -/
def Memory.writeAll {w : Nat} (m : Memory w) : Nat → List (BitVec w) → Memory w
  | _, [] => m
  | i, v :: vs => Memory.writeAll (m.write i v) (i + 1) vs

/-! ### Registers -/

/-- Read `x[r]` (rules R9, R20). -/
def State.readReg (s : State) (r : Reg) : Word := s.x[r]

/-- `x[r] <- v` (rules R9, R20). -/
def State.writeReg (s : State) (r : Reg) (v : Word) : State := { s with x := s.x.set r v }

/-! ### Element buffers and the coordinate buffer -/

/-- `B[b]` (rule R9). -/
def State.readBuf (s : State) (b : Buf) : List Byte := s.bufs[b]

/-- `blen[b]` (rule R32). -/
def State.blen (s : State) (b : Buf) : Nat := (s.readBuf b).length

/-- Replace the contents of buffer `b`, the capacity having been checked. -/
def State.setBuf (s : State) (b : Buf) (l : List Byte) : State := { s with bufs := s.bufs.set b l }

/-- `B[b] <- l`, raising `BufferOverflow(len(l), BUF_CAP)` (rules R9, R314). -/
def State.writeBuf (s : State) (b : Buf) (l : List Byte) : Except Fault State :=
  if l.length ≤ s.caps.bufCap then .ok (s.setBuf b l) else .error (.bufferOverflow l.length s.caps.bufCap)

/-- `clen` (rule R32). -/
def State.clen (s : State) : Nat := s.coords.length

/-- `C <- l`, raising `BufferOverflow(len(l), CRD_CAP)` (rules R9, R314). -/
def State.writeCoords (s : State) (l : List Coord) : Except Fault State :=
  if l.length ≤ s.caps.crdCap then .ok { s with coords := l }
  else .error (.bufferOverflow l.length s.caps.crdCap)

/-! ### The planes -/

/-- `PH * PW`, the number of pixels, exact (rule R31). -/
def State.pixels (s : State) : Nat := s.ph.toNat * s.pw.toNat

/-- The index of pixel `(row, col)` in a plane of width `w`: row-major (rules R35, R53). -/
def Coord.index (c : Coord) (w : Nat) : Nat := c.row.toNat * w + c.col.toNat

/-- The first `PH * PW` elements of `PL`. -/
def State.plPixels (s : State) : List Byte := s.pl.readAll s.pixels

/-- The first `PH * PW` elements of `RF`. -/
def State.rfPixels (s : State) : List Byte := s.rf.readAll s.pixels

/-! ### Faults: entry, acknowledgement, and how a command ends -/

/-- `code(F)` (rule R300). -/
def Fault.code : Fault → Byte
  | .invalidParameter _ => 1
  | .unsupportedOutputFormat => 2
  | .insufficientCapacity _ _ => 3
  | .bitWidthOverflow _ => 4
  | .integrityFailure _ _ => 5
  | .illegalCommand _ => 6
  | .fetchFault _ _ => 7
  | .operandRange _ _ => 8
  | .bufferOverflow _ _ => 9
  | .inflateError _ => 10
  | .payloadTooLong _ => 11
  | .headerTruncated _ _ => 12

/-- The first information word (rule R300). -/
def Fault.info0 : Fault → Nat
  | .invalidParameter value => value
  | .unsupportedOutputFormat => 0
  | .insufficientCapacity needed _ => needed
  | .bitWidthOverflow offered => offered
  | .integrityFailure stored _ => stored
  | .illegalCommand word => word
  | .fetchFault cp _ => cp
  | .operandRange value _ => value
  | .bufferOverflow length _ => length
  | .inflateError length => length
  | .payloadTooLong length => length
  | .headerTruncated needed _ => needed

/-- The second information word (rule R300). -/
def Fault.info1 : Fault → Nat
  | .invalidParameter _ => 0
  | .unsupportedOutputFormat => 0
  | .insufficientCapacity _ available => available
  | .bitWidthOverflow _ => 32
  | .integrityFailure _ recomputed => recomputed
  | .illegalCommand _ => 0
  | .fetchFault _ cap => cap
  | .operandRange _ limit => limit
  | .bufferOverflow _ cap => cap
  | .inflateError _ => 0
  | .payloadTooLong _ => Config.maxPayload
  | .headerTruncated _ available => available

/-- Fault entry: the five writes of rule R305; `cp` and everything else stay (rule R304). -/
def State.takeFault (s : State) (f : Fault) : State :=
  { s with
    ecode := f.code
    einfo0 := BitVec.ofNat 64 f.info0
    einfo1 := BitVec.ofNat 64 f.info1
    epc := s.cp
    runState := .faulted }

/-- CLEAR, the host's acknowledgement; the unit has no return from a fault of its own (rules R24, R305). -/
def State.clear (s : State) : State :=
  match s.runState with
  | .done | .faulted => { s with runState := .idle, ecode := 0, einfo0 := 0, einfo1 := 0, epc := 0 }
  | .idle | .running => s

/-- START: from `IDLE` or `DONE` the unit runs, from whatever `cp` holds (rule R24). -/
def State.start (s : State) : State :=
  match s.runState with
  | .idle | .done => { s with runState := .running }
  | .running | .faulted => s

/-- `cp <- cp + 1` (rules R21, R270). -/
def State.advance (s : State) : State := { s with cp := s.cp + 1 }

/-- How every command but HALT ends: either all its writes and `cp + 1`, or the fault's entry and nothing else (rules R270,
R304). Either way the unit has a next state (DEDUCED, log entry 5). -/
def State.finish (s : State) (effect : Except Fault State) : Host.Outcome State Fault Refusal :=
  .next (match effect with
    | .ok t => t.advance
    | .error f => s.takeFault f)

/-- A check of a command's rule: go on, or raise the fault it names. -/
def require (c : Prop) [Decidable c] (f : Fault) : Except Fault Unit := if c then .ok () else .error f

end Sys2Proof.Machine
end

