-- ==== Sys2Proof/Machine/Operands.lean ====
section
/-! DEFINITION. The operand forms the commands share: a depth or width in a register, the plane-size check, a window of the
coordinate buffer, five consecutive result registers (rules R72, R31, R243, R245, R207). -/

namespace Sys2Proof.Machine

/-- Raise `InvalidParameter(k, 0)` unless the depth or group width `k` lies in `[1, 8]` (rule R306). -/
def checkDepth (k : Nat) : Except Fault Unit := require (1 ≤ k ∧ k ≤ 8) (.invalidParameter k)

/-- Raise `OperandRange(PH * PW, PLANE_CAP)` if the plane is larger than its memory (rules R31, R313). -/
def State.checkPlane (s : State) : Except Fault Unit :=
  require (s.pixels ≤ s.caps.planeCap) (.operandRange s.pixels s.caps.planeCap)

/-- Raise `OperandRange(off + n, clen)` if the window `[off, off + n)` passes the end of `C`; the sum is exact (rules R243,
R245, R313). -/
def State.checkWindow (s : State) (off n : Nat) : Except Fault Unit :=
  require (off + n ≤ s.clen) (.operandRange (off + n) s.clen)

/-- The coordinates `C[off .. off + n)`. -/
def State.window (s : State) (off n : Nat) : List Coord := (s.coords.drop off).take n

/-- Raise `OperandRange(i, r * 2^16 + c)` at the first coordinate, counted from index `i` of `C`, that lies outside the
plane (rules R243, R245, R313). -/
def State.checkInside (s : State) : Nat → List Coord → Except Fault Unit
  | _, [] => .ok ()
  | i, c :: cs =>
    if c.row.toNat < s.ph.toNat ∧ c.col.toNat < s.pw.toNat then s.checkInside (i + 1) cs
    else .error (.operandRange i (c.row.toNat * 2 ^ 16 + c.col.toNat))

/-- Register `x[base + k]` of the five a base names (rules R72, R207). -/
def baseReg (base : Base5) (k : Fin 5) : Reg := ⟨base.val + k.val, by omega⟩

/-- `x[base] <- v0` to `x[base + 4] <- v4` (rules R207, R250). -/
def State.writeRegs5 (s : State) (base : Base5) (v0 v1 v2 v3 v4 : Word) : State :=
  ((((s.writeReg (baseReg base 0) v0).writeReg (baseReg base 1) v1).writeReg (baseReg base 2) v2).writeReg
    (baseReg base 3) v3).writeReg (baseReg base 4) v4

end Sys2Proof.Machine
end

