-- ==== Sys2Proof/Machine/BitCodec.lean ====
section
/-! DEFINITION. The bit-codec unit: its functions (rules R100 to R104) and B2G, G2B, PACK, UNPK, UNPKW (rules R106 to
R110). -/

namespace Sys2Proof.Machine

/-- `BytesToBits(S)`: each byte least significant bit first (rule R100). -/
def bytesToBits (S : List Byte) : List Bool := S.flatMap (fun b => bitsOf b.toNat 8)

/-- `BytesToGroups(S, g)`: the bits of `S` in groups of `g`, the last one padded with zero bits (rule R101). -/
def bytesToGroups (S : List Byte) (g : Nat) : List Byte :=
  let m := ceilDiv (8 * S.length) g
  (chunks g m (padTo (m * g) (bytesToBits S))).map (fun c => BitVec.ofNat 8 (val c))

/-- `GroupsToBytes(G, g)`: the low `g` bits of each element, in bytes, the last one padded with zero bits (rule R102). -/
def groupsToBytes (G : List Byte) (g : Nat) : List Byte :=
  let n := ceilDiv (G.length * g) 8
  (chunks 8 n (padTo (8 * n) (G.flatMap (fun v => bitsOf v.toNat g)))).map (fun c => BitVec.ofNat 8 (val c))

/-- `PackBits(T)`, for at most 32 elements, of which only bit 0 is used (rule R103). -/
def packBits (T : List Byte) : Nat := val (T.map bitOfElem)

/-- `UnpackMin(v)`: the minimal number of bits, none for 0 (rule R104). -/
def unpackMin (v : Nat) : List Bool := bitsOf v (bitlen v)

/-- `UnpackWidth(v, w)`: exactly `w` bits; what does not fit is lost (rule R104). -/
def unpackWidth (v w : Nat) : List Bool := bitsOf v w

/-- `B2G bd, bs, xg` (rule R106). -/
def execB2g (bd bs : Buf) (xg : Reg) (s : State) : Host.Outcome State Fault Refusal :=
  s.finish do
    checkDepth (s.readReg xg).toNat
    s.writeBuf bd (bytesToGroups (s.readBuf bs) (s.readReg xg).toNat)

/-- `G2B bd, bs, xg` (rule R107). The result is never longer than the source: log entry 14. -/
def execG2b (bd bs : Buf) (xg : Reg) (s : State) : Host.Outcome State Fault Refusal :=
  s.finish do
    checkDepth (s.readReg xg).toNat
    s.writeBuf bd (groupsToBytes (s.readBuf bs) (s.readReg xg).toNat)

/-- `PACK xd, bs` (rule R108). -/
def execPack (xd : Reg) (bs : Buf) (s : State) : Host.Outcome State Fault Refusal :=
  s.finish do
    require (s.blen bs ≤ 32) (.bitWidthOverflow (s.blen bs))
    return s.writeReg xd (BitVec.ofNat 32 (packBits (s.readBuf bs)))

/-- `UNPK bd, xs` (rule R109). -/
def execUnpk (bd : Buf) (xs : Reg) (s : State) : Host.Outcome State Fault Refusal :=
  s.finish (s.writeBuf bd ((unpackMin (s.readReg xs).toNat).map elemOfBit))

/-- `UNPKW bd, xs, xw` (rule R110). -/
def execUnpkw (bd : Buf) (xs xw : Reg) (s : State) : Host.Outcome State Fault Refusal :=
  s.finish do
    require ((s.readReg xw).toNat ≤ 32) (.operandRange (s.readReg xw).toNat 32)
    s.writeBuf bd ((unpackWidth (s.readReg xs).toNat (s.readReg xw).toNat).map elemOfBit)

end Sys2Proof.Machine
end

