-- ==== Sys2Proof/Machine/Flags.lean ====
section
/-! DEFINITION. The unit has no status flags (rule R37). What it calls a flag is a bit of a register operand, or a result
register that holds 0 or 1; these are their readings and the one writing. -/

namespace Sys2Proof.Machine

/-- Bit 0 of `x[r]`, bits 31 to 1 ignored: CADOPT's request, HENC's flag, VFMT's verdict, EMBED's `COMPRESS` (rules R124,
R206, R232, R248). -/
def State.flagBit (s : State) (r : Reg) : Bool := (s.readReg r).getLsbD 0

/-- Bit 1 of `x[r]`: EMBED's `LOSSY` (rule R248). -/
def State.lossyBit (s : State) (r : Reg) : Bool := (s.readReg r).getLsbD 1

/-- The register value of a flag result: 0 or 1 (rules R124, R207). -/
def flagWord (b : Bool) : Word := if b then 1 else 0

end Sys2Proof.Machine
end

