-- ==== Sys2Proof/Machine/Inflate.lean ====
section
/-! DEFINITION. `Inflate`, the raw DEFLATE decoder (rules R120, R125 to R135). `none` is the spec's `error`. The reader is
the list of the bits not yet read; the output is held latest byte first until the end. -/

namespace Sys2Proof.Machine

/-- `NeedBits(n)`: the next `n` bits as a number, the first one bit 0; `none` when the input ends (rule R125). -/
def needBits : Nat → List Bool → Option (Nat × List Bool)
  | 0, bs => some (0, bs)
  | _ + 1, [] => none
  | n + 1, b :: bs => (needBits n bs).map (fun r => (b.toNat + 2 * r.1, r.2))

/-! ### Huffman codes -/

/-- The code of one symbol: the `len`-bit number `code` (rule R128). -/
structure CodeEntry where
  len : Nat
  code : Nat
  sym : Nat
deriving DecidableEq, Repr

/-- `count[l]`: how many symbols have length `l` (rule R128). -/
def lengthCount (L : List Nat) (l : Nat) : Nat := L.count l

/-- `left` after the lengths 1 to `l`; `none` once the code is over-subscribed (rule R128). -/
def codeLeft (L : List Nat) : Nat → Option Nat
  | 0 => some 1
  | l + 1 =>
    match codeLeft L l with
    | none => none
    | some left => if lengthCount L (l + 1) ≤ 2 * left then some (2 * left - lengthCount L (l + 1)) else none

/-- `next[l]` before any symbol is assigned: the first code of length `l` (rule R128). -/
def firstCode (L : List Nat) : Nat → Nat
  | 0 => 0
  | 1 => 0
  | l + 2 => (firstCode L (l + 1) + lengthCount L (l + 1)) * 2

/-- Codes to the symbols from `sym` on, in increasing order (rule R128). -/
def assignCodes (next : List Nat) (sym : Nat) : List Nat → List CodeEntry
  | [] => []
  | l :: ls =>
    if l = 0 then assignCodes next (sym + 1) ls
    else { len := l, code := next.getD l 0, sym := sym } ::
      assignCodes (next.set l (next.getD l 0 + 1)) (sym + 1) ls

/-- The canonical code of the lengths `L` (rule R128). -/
def canonicalCode (L : List Nat) : List CodeEntry := assignCodes ((List.range 16).map (firstCode L)) 0 L

/-- A literal/length or distance code: an over-subscribed one is an error, an incomplete one too unless its longest length
is at most 1 (rule R128). -/
def buildCode (L : List Nat) : Option (List CodeEntry) :=
  match codeLeft L 15 with
  | none => none
  | some left => if left = 0 ∨ L.all (· ≤ 1) then some (canonicalCode L) else none

/-- The code-length code: an incomplete or empty one is always an error (rule R128). -/
def buildLengthCode (L : List Nat) : Option (List CodeEntry) :=
  match codeLeft L 15 with
  | none => none
  | some left => if left = 0 then some (canonicalCode L) else none

/-- Read up to `k` more bits of a code of which `l - 1` bits, the number `v`, are read (rule R129). -/
def decodeSymFrom (T : List CodeEntry) : Nat → Nat → Nat → List Bool → Option (Nat × List Bool)
  | 0, _, _, _ => none
  | _ + 1, _, _, [] => none
  | k + 1, l, v, b :: bs =>
    match T.find? (fun e => e.len == l && e.code == 2 * v + b.toNat) with
    | some e => some (e.sym, bs)
    | none => decodeSymFrom T k (l + 1) (2 * v + b.toNat) bs

/-- Decode one symbol: a code is read one bit at a time, each new bit at the low end (rule R129). -/
def decodeSym (T : List CodeEntry) (bs : List Bool) : Option (Nat × List Bool) := decodeSymFrom T 15 1 0 bs

/-- The lengths of the fixed literal/length code (rule R130). -/
def fixedLitLengths : List Nat :=
  List.replicate 144 8 ++ List.replicate 112 9 ++ List.replicate 24 7 ++ List.replicate 8 8

/-- The lengths of the fixed distance code (rule R130). -/
def fixedDistLengths : List Nat := List.replicate 32 5

/-! ### Blocks -/

/-- `n` bytes as they stand in the input (rule R127). -/
def takeBytes : Nat → List Bool → List Byte → Option (List Byte × List Bool)
  | 0, bs, out => some (out, bs)
  | n + 1, bs, out =>
    match needBits 8 bs with
    | none => none
    | some (v, bs) => takeBytes n bs (BitVec.ofNat 8 v :: out)

/-- A stored block (rule R127). The input is a whole number of bytes, so the bits to the next byte boundary are the
number of bits left, modulo 8 (DEDUCED, log entry 12). -/
def storedBlock (bs : List Bool) (out : List Byte) : Option (List Byte × List Bool) := do
  let (len, bs) ← needBits 16 (bs.drop (bs.length % 8))
  let (nlen, bs) ← needBits 16 bs
  if len = nlen ^^^ 0xFFFF then takeBytes len bs out else none

/-- `LBASE` (rule R133). -/
def lengthBase : List Nat :=
  [3, 4, 5, 6, 7, 8, 9, 10, 11, 13, 15, 17, 19, 23, 27, 31, 35, 43, 51, 59, 67, 83, 99, 115, 131, 163, 195, 227, 258]

/-- `LEXT` (rule R133). -/
def lengthExtra : List Nat :=
  [0, 0, 0, 0, 0, 0, 0, 0, 1, 1, 1, 1, 2, 2, 2, 2, 3, 3, 3, 3, 4, 4, 4, 4, 5, 5, 5, 5, 0]

/-- `DBASE` (rule R133). -/
def distBase : List Nat :=
  [1, 2, 3, 4, 5, 7, 9, 13, 17, 25, 33, 49, 65, 97, 129, 193, 257, 385, 513, 769, 1025, 1537, 2049, 3073, 4097, 6145,
   8193, 12289, 16385, 24577]

/-- `DEXT` (rule R133). -/
def distExtra : List Nat :=
  [0, 0, 0, 0, 1, 1, 2, 2, 3, 3, 4, 4, 5, 5, 6, 6, 7, 7, 8, 8, 9, 9, 10, 10, 11, 11, 12, 12, 13, 13]

/-- Append `n` bytes, each the one `dist` bytes back, one at a time (rule R133); `out` is latest first. -/
def copyBack (dist : Nat) : Nat → List Byte → List Byte
  | 0, out => out
  | n + 1, out => copyBack dist n (out.getD (dist - 1) 0 :: out)

/-- The length and distance after literal/length symbol `s > 256`, and the copy (rule R133). -/
def matchCopy (dist : List CodeEntry) (s : Nat) (bs : List Bool) (out : List Byte) :
    Option (List Byte × List Bool) := do
  if 285 < s then none
  else
    let (lx, bs) ← needBits (lengthExtra.getD (s - 257) 0) bs
    let (d, bs) ← decodeSym dist bs
    if 29 < d then none
    else
      let (dx, bs) ← needBits (distExtra.getD d 0) bs
      let back := distBase.getD d 0 + dx
      if out.length < back then none
      else some (copyBack back (lengthBase.getD (s - 257) 0 + lx) out, bs)

/-- The symbols of a compressed block up to its end (rule R133). Every symbol reads at least one bit, so the number of bits
left plus one bounds the symbols: the first argument (DEDUCED, log entry 13). -/
def blockData (lit dist : List CodeEntry) : Nat → List Bool → List Byte → Option (List Byte × List Bool)
  | 0, _, _ => none
  | fuel + 1, bs, out =>
    match decodeSym lit bs with
    | none => none
    | some (s, bs) =>
      if s < 256 then blockData lit dist fuel bs (BitVec.ofNat 8 s :: out)
      else if s = 256 then some (out, bs)
      else
        match matchCopy dist s bs out with
        | none => none
        | some (out, bs) => blockData lit dist fuel bs out

/-- `ORDER`, the order in which the code-length code lengths are sent (rule R131). -/
def codeLengthOrder : List Nat := [16, 17, 18, 0, 8, 7, 9, 6, 10, 5, 11, 4, 12, 3, 13, 2, 14, 1, 15]

/-- Read one 3-bit length for each symbol of the order given into `CL` (rule R131). -/
def readCodeLengths : List Nat → List Bool → List Nat → Option (List Nat × List Bool)
  | [], bs, cl => some (cl, bs)
  | o :: os, bs, cl =>
    match needBits 3 bs with
    | none => none
    | some (v, bs) => readCodeLengths os bs (cl.set o v)

/-- One item of the code-length sequence: the lengths it appends (rule R132). -/
def lengthItem (s : Nat) (lens : List Nat) (bs : List Bool) : Option (List Nat × List Bool) :=
  if s < 16 then some ([s], bs)
  else if s = 16 then
    match lens.getLast? with
    | none => none
    | some last => (needBits 2 bs).map (fun r => (List.replicate (3 + r.1) last, r.2))
  else if s = 17 then (needBits 3 bs).map (fun r => (List.replicate (3 + r.1) 0, r.2))
  else (needBits 7 bs).map (fun r => (List.replicate (11 + r.1) 0, r.2))

/-- The `total` code lengths (rule R132). Every item appends at least one, so `total` bounds the items: the first
argument (DEDUCED, log entry 13). -/
def readLengths (T : List CodeEntry) (total : Nat) : Nat → List Nat → List Bool → Option (List Nat × List Bool)
  | fuel, lens, bs =>
    if total ≤ lens.length then some (lens, bs)
    else
      match fuel with
      | 0 => none
      | fuel + 1 =>
        match decodeSym T bs with
        | none => none
        | some (s, bs) =>
          match lengthItem s lens bs with
          | none => none
          | some (more, bs) =>
            if total < lens.length + more.length then none
            else readLengths T total fuel (lens ++ more) bs

/-- The two codes of a dynamic block (rules R131, R132). -/
def dynamicCodes (bs : List Bool) : Option ((List CodeEntry × List CodeEntry) × List Bool) := do
  let (hl, bs) ← needBits 5 bs
  let (hd, bs) ← needBits 5 bs
  let (hc, bs) ← needBits 4 bs
  let hlit := hl + 257
  let hdist := hd + 1
  if 286 < hlit ∨ 30 < hdist then none
  else
    let (cl, bs) ← readCodeLengths (codeLengthOrder.take (hc + 4)) bs (List.replicate 19 0)
    let T ← buildLengthCode cl
    let (lens, bs) ← readLengths T (hlit + hdist) (hlit + hdist) [] bs
    if lens.getD 256 0 = 0 then none
    else
      let lit ← buildCode (lens.take hlit)
      let dist ← buildCode ((lens.drop hlit).take hdist)
      some ((lit, dist), bs)

/-- One block of type `btype` (rules R126, R127, R130 to R133). -/
def inflateBlock (btype : Nat) (bs : List Bool) (out : List Byte) : Option (List Byte × List Bool) :=
  match btype with
  | 0 => storedBlock bs out
  | 1 => blockData (canonicalCode fixedLitLengths) (canonicalCode fixedDistLengths) (bs.length + 1) bs out
  | 2 =>
    match dynamicCodes bs with
    | none => none
    | some ((lit, dist), bs) => blockData lit dist (bs.length + 1) bs out
  | _ => none

/-- The block loop (rule R126). Every block reads at least three bits, so the number of bits plus one bounds the blocks:
the first argument (DEDUCED, log entry 13). -/
def inflateBlocks : Nat → List Bool → List Byte → Option (List Byte)
  | 0, _, _ => none
  | fuel + 1, bs, out =>
    match needBits 1 bs with
    | none => none
    | some (bfinal, bs) =>
      match needBits 2 bs with
      | none => none
      | some (btype, bs) =>
        match inflateBlock btype bs out with
        | none => none
        | some (out, bs) => if bfinal = 1 then some out.reverse else inflateBlocks fuel bs out

/-- `Inflate(Z)` (rules R120, R126, R135): `some S` for the spec's `ok(S)`, `none` for `error`. -/
def inflate (Z : List Byte) : Option (List Byte) := inflateBlocks (8 * Z.length + 1) (bytesToBits Z) []

end Sys2Proof.Machine
end

