-- ==== Sys2Proof/Machine/Compression.lean ====
section
/-! DEFINITION. The deflate adapter: the compressor's law (rule R121), `Adopt` (rule R124) and DEFL, INFL, CADOPT (rules R122
to R124). Where a rule uses `DEFLATE_FN`, a definition takes the compressor as an argument. -/

namespace Sys2Proof.Machine

/-- The one law the unit requires of its compressor: `Inflate(D(S)) = ok(S)` for every `S` (rule R121). -/
def LawfulCompressor (D : List Byte → List Byte) : Prop := ∀ S, inflate (D S) = some S

/-- `Adopt(S, requested)`: the compressed form when it is requested and strictly shorter, else `S` (rule R124). -/
def adopt (D : List Byte → List Byte) (S : List Byte) (requested : Bool) : List Byte × Bool :=
  if requested ∧ (D S).length < S.length then (D S, true) else (S, false)

/-- `DEFL bd, bs` with compressor `D` (rule R122). -/
def deflWith (D : List Byte → List Byte) (bd bs : Buf) (s : State) : Host.Outcome State Fault Refusal :=
  s.finish (s.writeBuf bd (D (s.readBuf bs)))

/-- `DEFL bd, bs` (rule R122). -/
def execDefl (bd bs : Buf) (s : State) : Host.Outcome State Fault Refusal := deflWith Config.deflateFn bd bs s

/-- `INFL bd, bs` (rule R123). -/
def execInfl (bd bs : Buf) (s : State) : Host.Outcome State Fault Refusal :=
  s.finish (match inflate (s.readBuf bs) with
    | none => .error (.inflateError (s.blen bs))
    | some S => s.writeBuf bd S)

/-- `CADOPT bd, bs, xf, xq` with compressor `D` (rule R124). The adopted sequence is never longer than the source, so
on a source that fits the write raises nothing: log entry 14. -/
def cadoptWith (D : List Byte → List Byte) (bd bs : Buf) (xf xq : Reg) (s : State) :
    Host.Outcome State Fault Refusal :=
  let P := adopt D (s.readBuf bs) (s.flagBit xq)
  s.finish do
    let t ← s.writeBuf bd P.1
    return t.writeReg xf (flagWord P.2)

/-- `CADOPT bd, bs, xf, xq` (rule R124). -/
def execCadopt (bd bs : Buf) (xf xq : Reg) (s : State) : Host.Outcome State Fault Refusal :=
  cadoptWith Config.deflateFn bd bs xf xq s

end Sys2Proof.Machine
end

