-- ==== Sys2Proof/Machine/Header.lean ====
section
/-! DEFINITION. The header unit: CRC-32 (rule R204), `HeaderEncode` (rule R202), `HeaderDecode` (rule R203) and HENC, HDEC, CRC
(rules R206 to R208). -/

namespace Sys2Proof.Machine

/-! ### CRC-32 -/

/-- One bit of the checksum's division (rule R204). -/
def crcShift (c : Word) : Word := if c.getLsbD 0 then c >>> 1 ^^^ 0xEDB88320#32 else c >>> 1

/-- `n` bits. -/
def crcShifts : Nat → Word → Word
  | 0, c => c
  | n + 1, c => crcShifts n (crcShift c)

/-- One byte, into the low 8 bits (rule R204). -/
def crcByte (c : Word) (b : Byte) : Word := crcShifts 8 (c ^^^ b.setWidth 32)

/-- `Crc32(S)` (rule R204). -/
def crc32 (S : List Byte) : Word := S.foldl crcByte 0xFFFFFFFF#32 ^^^ 0xFFFFFFFF#32

/-! ### The frame -/

/-- `HeaderLen(payloadLength, fl)` (rule R200). -/
def headerLen (payloadLength fl : Nat) : Nat := 49 + bitlen payloadLength + 8 * fl

/-- `HeaderEncode(payload, filename, lsb, flag)` (rule R202). -/
def headerEncode (payload filename : List Byte) (lsb : Nat) (flag : Bool) : List Bool :=
  let lb := unpackMin payload.length
  unpackWidth lb.length 5 ++ lb ++ unpackWidth (lsb - 1) 3 ++ unpackWidth filename.length 8 ++ bytesToBits filename ++
    [flag] ++ unpackWidth (crc32 payload).toNat 32

/-- The record `HeaderDecode` returns (rule R203). -/
structure HeaderRecord where
  payloadLength : Nat
  lsb : Nat
  filename : List Byte
  flag : Bool
  crc : Word
  headerBitLength : Nat
deriving DecidableEq, Repr

/-- `truncated(needed, available)` (rule R203). -/
structure Truncated where
  needed : Nat
  available : Nat
deriving DecidableEq, Repr

/-- `Take(w)` at position `p` (rule R203). -/
def takeField (T : List Bool) (p w : Nat) : Except Truncated Nat :=
  if p + w ≤ T.length then .ok (val ((T.drop p).take w)) else .error { needed := p + w, available := T.length }

/-- `n` bytes, each one `Take(8)`, from position `p` (rule R203). -/
def takeFieldBytes (T : List Bool) : Nat → Nat → Except Truncated (List Byte)
  | _, 0 => .ok []
  | p, n + 1 => do
    let v ← takeField T p 8
    let rest ← takeFieldBytes T (p + 8) n
    return BitVec.ofNat 8 v :: rest

/-- `HeaderDecode(T)` (rule R203). The positions are those the pseudocode's `p` has at each `Take`. -/
def headerDecode (T : List Bool) : Except Truncated HeaderRecord := do
  let n ← takeField T 0 5
  let payloadLength ← takeField T 5 n
  let depth ← takeField T (5 + n) 3
  let fl ← takeField T (8 + n) 8
  let filename ← takeFieldBytes T (16 + n) fl
  let flag ← takeField T (16 + n + 8 * fl) 1
  let crc ← takeField T (17 + n + 8 * fl) 32
  return {
    payloadLength := payloadLength
    lsb := depth + 1
    filename := filename
    flag := flag == 1
    crc := BitVec.ofNat 32 crc
    headerBitLength := 49 + n + 8 * fl }

/-! ### The commands -/

/-- `HENC bd, bs, bf, xl, xc` (rule R206). -/
def execHenc (bd bs bf : Buf) (xl xc : Reg) (s : State) : Host.Outcome State Fault Refusal :=
  s.finish do
    checkDepth (s.readReg xl).toNat
    require (s.blen bs ≤ Config.maxPayload) (.payloadTooLong (s.blen bs))
    require (s.blen bf ≤ Config.maxFilename) (.operandRange (s.blen bf) Config.maxFilename)
    s.writeBuf bd
      ((headerEncode (s.readBuf bs) (s.readBuf bf) (s.readReg xl).toNat (s.flagBit xc)).map elemOfBit)

/-- `HDEC bf, bs, xd` (rule R207). -/
def execHdec (bf bs : Buf) (xd : Base5) (s : State) : Host.Outcome State Fault Refusal :=
  s.finish (match headerDecode ((s.readBuf bs).map bitOfElem) with
    | .error t => .error (.headerTruncated t.needed t.available)
    | .ok h => do
      let t ← s.writeBuf bf h.filename
      return t.writeRegs5 xd (BitVec.ofNat 32 h.payloadLength) (BitVec.ofNat 32 h.lsb) (flagWord h.flag) h.crc
        (BitVec.ofNat 32 h.headerBitLength))

/-- `CRC xd, bs` (rule R208). -/
def execCrc (xd : Reg) (bs : Buf) (s : State) : Host.Outcome State Fault Refusal :=
  s.finish (.ok (s.writeReg xd (crc32 (s.readBuf bs))))

end Sys2Proof.Machine
end

