-- ==== Sys2Proof/Machine/Opa.lean ====
section
/-! DEFINITION. The OPA unit: `Adjust1`, `Adjust` (rules R190, R191) and OPA (rule R192). -/

namespace Sys2Proof.Machine

/-- The correction OPA considers for a difference, before the discard rule (rule R190). -/
def opaCorrection (diff : Int) (k : Nat) : Int :=
  let inner : Int := 2 ^ (k - 1)
  let outer : Int := 2 ^ k
  if inner < diff ∧ diff < outer then -outer
  else if -outer < diff ∧ diff < -inner then outer
  else 0

/-- `Adjust1(m, o, k)`: a correction that would leave `[0, 255]` is discarded (rule R190). -/
def adjust1 (m o : Byte) (k : Nat) : Byte :=
  let cand : Int := (m.toNat : Int) + opaCorrection ((m.toNat : Int) - o.toNat) k
  if cand < 0 ∨ 255 < cand then m else BitVec.ofInt 8 cand

/-- `Adjust(M, O, k)`: every element independently (rule R191). -/
def adjust (M O : List Byte) (k : Nat) : List Byte := List.zipWith (fun m o => adjust1 m o k) M O

/-- `OPA xk` (rule R192). -/
def execOpa (xk : Reg) (s : State) : Host.Outcome State Fault Refusal :=
  s.finish do
    checkDepth (s.readReg xk).toNat
    s.checkPlane
    return { s with pl := s.pl.writeAll 0 (adjust s.plPixels s.rfPixels (s.readReg xk).toNat) }

end Sys2Proof.Machine
end

