-- ==== Sys2Proof/Machine/Sha256.lean ====
section
/-! DEFINITION. SHA-256 (rules R163 to R166). It is big-endian throughout, the one exception to the unit's bit order (rule
R165), so blocks, hash values and the digest are numbers here, the first word and the first byte most significant: the
seed is then the digest's low 32 bits as rule R168 words it. -/

namespace Sys2Proof.Machine

/-! ### Words of numbers (rule R165) -/

/-- A sequence of bytes as one number, first byte most significant. -/
def bigEndianNat (D : List Byte) : Nat := D.foldl (fun n b => n * 256 + b.toNat) 0

/-- `n` bytes of `v`, most significant first. -/
def bigEndianBytes (v : Nat) : Nat → List Byte
  | 0 => []
  | n + 1 => BitVec.ofNat 8 (v / 256 ^ n) :: bigEndianBytes v n

/-- Word `i` of a number of `w` bits, word 0 most significant. -/
def wordIn {w : Nat} (V : BitVec w) (i : Nat) : Word := V.extractLsb' (w - 32 * (i + 1)) 32

/-- Eight words: a hash value `H[0..7]`, the variables `a` to `h` of a block, or one line of the table of round constants. -/
abbrev EightWords := BitVec 256

/-- Eight words as a number. -/
def packWords (ws : List Word) : EightWords := BitVec.ofNat 256 (ws.foldl (fun n w => n * 2 ^ 32 + w.toNat) 0)

/-! ### Functions and constants (rule R164) -/

/-- The exclusive or of the right rotations of `x` by the amounts given. -/
def xorRotations (x : Word) (amounts : List Nat) : Word := amounts.foldl (fun y n => y ^^^ x.rotateRight n) 0

/-- `Ch(x, y, z)`: the bits of `y` where `x` has a 1, else those of `z`. -/
def shaCh (x y z : Word) : Word := (x &&& y) ^^^ (~~~x &&& z)

/-- `Maj(x, y, z)`: the bit two of the three agree on. -/
def shaMaj (x y z : Word) : Word := (x &&& (y ^^^ z)) ^^^ (y &&& z)

/-- `H0`, the initial hash value. -/
def shaInit : EightWords := 0x6a09e667bb67ae853c6ef372a54ff53a510e527f9b05688c1f83d9ab5be0cd19

/-- The table of round constants, a line of eight to each number. -/
def shaLines : List EightWords :=
  [0x428a2f9871374491b5c0fbcfe9b5dba53956c25b59f111f1923f82a4ab1c5ed5,
   0xd807aa9812835b01243185be550c7dc372be5d7480deb1fe9bdc06a7c19bf174,
   0xe49b69c1efbe47860fc19dc6240ca1cc2de92c6f4a7484aa5cb0a9dc76f988da,
   0x983e5152a831c66db00327c8bf597fc7c6e00bf3d5a7914706ca635114292967,
   0x27b70a852e1b21384d2c6dfc53380d13650a7354766a0abb81c2c92e92722c85,
   0xa2bfe8a1a81a664bc24b8b70c76c51a3d192e819d6990624f40e3585106aa070,
   0x19a4c1161e376c082748774c34b0bcb5391c0cb34ed8aa4a5b9cca4f682e6ff3,
   0x748f82ee78a5636f84c878148cc7020890befffaa4506cebbef9a3f7c67178f2]

/-- `K[t]`. -/
def roundConstant (t : Nat) : Word := wordIn (shaLines.getD (t / 8) 0) (t % 8)

/-! ### Preprocessing (rule R163) -/

/-- The number of zero bytes of the padding: the least `z` with `(L + 1 + z) mod 64 = 56`. -/
def shaZeros (L : Nat) : Nat := (119 - L % 64) % 64

/-- The padded message: `M`, 0x80, zeros, and the length in bits as 8 bytes. -/
def shaPad (M : List Byte) : List Byte :=
  M ++ 0x80 :: (List.replicate (shaZeros M.length) 0 ++ bigEndianBytes (8 * M.length) 8)

/-! ### The computation (rule R166) -/

/-- `W[t .. t+15]` to `W[t+1 .. t+16]`: the word `W[t]` leaves and the next one of the schedule enters. -/
def slideWindow (W : BitVec 512) : BitVec 512 :=
  let s0 := xorRotations (wordIn W 1) [7, 18] ^^^ wordIn W 1 >>> 3
  let s1 := xorRotations (wordIn W 14) [17, 19] ^^^ wordIn W 14 >>> 10
  W <<< 32 ||| (s1 + wordIn W 9 + s0 + wordIn W 0).setWidth 512

/-- One round on the variables `a` to `h`, words 0 to 7: each moves one place on, but for the new `a` and the new `e`. -/
def shaRound (V : EightWords) (k w : Word) : EightWords :=
  let v := wordIn V
  let t1 := v 7 + xorRotations (v 4) [6, 11, 25] + shaCh (v 4) (v 5) (v 6) + k + w
  let t2 := xorRotations (v 0) [2, 13, 22] + shaMaj (v 0) (v 1) (v 2)
  packWords [t1 + t2, v 0, v 1, v 2, v 3 + t1, v 4, v 5, v 6]

/-- `n` rounds from round `t` on, with the schedule's window `W[t .. t+15]`. -/
def shaRounds : Nat → Nat → BitVec 512 → EightWords → EightWords
  | 0, _, _, V => V
  | n + 1, t, W, V => shaRounds n (t + 1) (slideWindow W) (shaRound V (roundConstant t) (wordIn W 0))

/-- One block: each word of the hash value plus the variable after the 64 rounds. -/
def shaBlock (H : EightWords) (block : BitVec 512) : EightWords :=
  let V := shaRounds 64 0 block H
  packWords ((List.range 8).map fun i => wordIn H i + wordIn V i)

/-- `n` blocks of 64 bytes, in order. -/
def shaBlocks : Nat → List Byte → EightWords → EightWords
  | 0, _, H => H
  | n + 1, bs, H => shaBlocks n (bs.drop 64) (shaBlock H (BitVec.ofNat 512 (bigEndianNat (bs.take 64))))

/-- `Sha256(M)` as one number of 256 bits, its first byte most significant (rules R165, R168). -/
def sha256 (M : List Byte) : EightWords := shaBlocks ((shaPad M).length / 64) (shaPad M) shaInit

end Sys2Proof.Machine
end

