-- ==== Sys2Proof/Machine/Permutation.lean ====
section
/-! DEFINITION. The permutation engine: seed, generator, shuffle, `Permute` (rules R160 to R162, R168, R170 to R173) and PERM,
PERML, SEED (rules R174 to R176). -/

namespace Sys2Proof.Machine

/-- `SeedOf(P)`: the low 32 bits of the digest read as one number (rule R168). -/
def seedOf (P : List Byte) : Word := (sha256 P).setWidth 32

/-- `Mix64(z)` (rule R170). -/
def mix64 (z : DWord) : DWord :=
  let z1 := (z ^^^ z >>> 30) * 0xBF58476D1CE4E5B9#64
  let z2 := (z1 ^^^ z1 >>> 27) * 0x94D049BB133111EB#64
  z2 ^^^ z2 >>> 31

/-- `Draw(s, t)` (rule R171). -/
def draw (s : Word) (t : Nat) : DWord :=
  mix64 (s.setWidth 64 + BitVec.ofNat 64 (t + 1) * 0x9E3779B97F4A7C15#64)

/-- Exchange the elements at two positions. -/
def exchange (a : List Nat) (i j : Nat) : List Nat := (a.set i (a.getD j 0)).set j (a.getD i 0)

/-- The loop of the shuffle from position `i` down to 1 (rule R172). -/
def shuffleFrom (s : Word) (n : Nat) : Nat → List Nat → List Nat
  | 0, a => a
  | i + 1, a => shuffleFrom s n i (exchange a (i + 1) ((draw s (n - 1 - (i + 1))).toNat % (i + 2)))

/-- `Shuffle(s, n)` (rule R172). -/
def shuffle (s : Word) (n : Nat) : List Nat := shuffleFrom s n (n - 1) (List.range n)

/-- `Coord(i)` on a plane of width `w` (rule R162). -/
def coordOf (w i : Nat) : Coord := { row := BitVec.ofNat 16 (i / w), col := BitVec.ofNat 16 (i % w) }

/-- The index order: the identity for an empty password, else the shuffle (rules R161, R173). -/
def indexOrder (n : Nat) (P : List Byte) : List Nat := if P = [] then List.range n else shuffle (seedOf P) n

/-- `Permute(H, W, P, len)` (rule R173). -/
def permute (H W : Nat) (P : List Byte) (len : Nat) : List Coord :=
  ((indexOrder (H * W) P).take len).map (coordOf W)

/-- `PermuteAll(H, W, P)` (rule R173). -/
def permuteAll (H W : Nat) (P : List Byte) : List Coord := permute H W P (H * W)

/-- `PERM bp` (rule R174). -/
def execPerm (bp : Buf) (s : State) : Host.Outcome State Fault Refusal :=
  s.finish do
    s.checkPlane
    s.writeCoords (permuteAll s.ph.toNat s.pw.toNat (s.readBuf bp))

/-- `PERML bp, xl` (rule R175). -/
def execPerml (bp : Buf) (xl : Reg) (s : State) : Host.Outcome State Fault Refusal :=
  s.finish do
    s.checkPlane
    s.writeCoords (permute s.ph.toNat s.pw.toNat (s.readBuf bp) (s.readReg xl).toNat)

/-- `SEED xd, bp` (rule R176). -/
def execSeed (xd : Reg) (bp : Buf) (s : State) : Host.Outcome State Fault Refusal :=
  s.finish (.ok (s.writeReg xd (seedOf (s.readBuf bp))))

end Sys2Proof.Machine
end

