-- ==== Sys2Proof/Machine/Orchestrator.lean ====
section
/-! DEFINITION. The orchestrator: `Subst` (rule R240), `EmbedPlane` (rule R246), `ExtractPlane` (rule R249) and SNAP, SCAT,
GATH, EMBED, EXTRACT (rules R241, R243, R245, R248, R250). The intermediate values of EMBED and EXTRACT are values of pure
functions and no state (rule R247). -/

namespace Sys2Proof.Machine

/-! ### The leaf commands -/

/-- The number `2^k - 1` as an element. -/
def lowMask (k : Nat) : Byte := BitVec.ofNat 8 (2 ^ k - 1)

/-- `Subst(p, v, k)` (rule R240). -/
def subst (p v : Byte) (k : Nat) : Byte := (p &&& ~~~lowMask k) ||| (v &&& lowMask k)

/-- `SNAP` (rule R241). -/
def execSnap (s : State) : Host.Outcome State Fault Refusal :=
  s.finish do
    s.checkPlane
    return { s with rf := s.rf.writeAll 0 s.plPixels }

/-- The writes of SCAT, in index order, so that of two to one pixel the later stands (rule R243). -/
def scatter (w k : Nat) : List (Coord × Byte) → Memory 8 → Memory 8
  | [], m => m
  | (c, v) :: rest, m => scatter w k rest (m.write (c.index w) (subst (m.read (c.index w)) v k))

/-- `SCAT bs, xk, xo` (rule R243). -/
def execScat (bs : Buf) (xk xo : Reg) (s : State) : Host.Outcome State Fault Refusal :=
  s.finish do
    checkDepth (s.readReg xk).toNat
    s.checkPlane
    s.checkWindow (s.readReg xo).toNat (s.blen bs)
    s.checkInside (s.readReg xo).toNat (s.window (s.readReg xo).toNat (s.blen bs))
    return { s with
      pl := scatter s.pw.toNat (s.readReg xk).toNat
        ((s.window (s.readReg xo).toNat (s.blen bs)).zip (s.readBuf bs)) s.pl }

/-- The low `k` bits of the pixels at the given coordinates (rule R245). -/
def gather (m : Memory 8) (w k : Nat) (cs : List Coord) : List Byte := cs.map (fun c => m.read (c.index w) &&& lowMask k)

/-- `GATH bd, xk, xo, xn` (rule R245). -/
def execGath (bd : Buf) (xk xo xn : Reg) (s : State) : Host.Outcome State Fault Refusal :=
  s.finish do
    checkDepth (s.readReg xk).toNat
    s.checkPlane
    s.checkWindow (s.readReg xo).toNat (s.readReg xn).toNat
    s.checkInside (s.readReg xo).toNat (s.window (s.readReg xo).toNat (s.readReg xn).toNat)
    s.writeBuf bd (gather s.pl s.pw.toNat (s.readReg xk).toNat
      (s.window (s.readReg xo).toNat (s.readReg xn).toNat))

/-! ### EMBED -/

/-- Steps 7 and 8 of `EmbedPlane`: substitute each value into the pixel at its coordinate (rule R246). -/
def substAll (w k : Nat) : List (Coord × Byte) → List Byte → List Byte
  | [], Q => Q
  | (c, v) :: rest, Q => substAll w k rest (Q.set (c.index w) (subst (Q.getD (c.index w) 0) v k))

/-- Steps 6 to 9 of `EmbedPlane`, for header bits `hb` and groups `G` that fit the plane (rule R246). -/
def embedSlots (P : List Byte) (H W : Nat) (password : List Byte) (lsb : Nat) (hb : List Bool) (G : List Byte) :
    List Byte :=
  let co := permute H W password (hb.length + G.length)
  let Q1 := substAll W 1 ((co.take hb.length).zip (hb.map elemOfBit)) P
  let Q2 := substAll W lsb ((co.drop hb.length).zip G) Q1
  if 1 < lsb then adjust Q2 P lsb else Q2

/-- `EmbedPlane(P, H, W, secret, filename, password, lsb, req)` with compressor `D` (rule R246). -/
def embedPlane (D : List Byte → List Byte) (P : List Byte) (H W : Nat) (secret filename password : List Byte)
    (lsb : Nat) (req : Bool) : Except Fault (List Byte) := do
  let payload := (adopt D secret req).1
  let flag := (adopt D secret req).2
  require (payload.length ≤ Config.maxPayload) (.payloadTooLong payload.length)
  let hb := headerEncode payload filename lsb flag
  let G := bytesToGroups payload lsb
  require (hb.length + G.length ≤ H * W) (.insufficientCapacity (hb.length + G.length) (H * W))
  return embedSlots P H W password lsb hb G

/-- `EMBED bs, bf, bp, xl, xf` with compressor `D` (rule R248). The last check of the rule, `InsufficientCapacity`, is the
one `EmbedPlane` makes, with the same two numbers. -/
def embedWith (D : List Byte → List Byte) (bs bf bp : Buf) (xl xf : Reg) (s : State) :
    Host.Outcome State Fault Refusal :=
  s.finish do
    let lsb := (s.readReg xl).toNat
    checkDepth lsb
    require (s.lossyBit xf = false) .unsupportedOutputFormat
    s.checkPlane
    let payload := (adopt D (s.readBuf bs) (s.flagBit xf)).1
    require (payload.length ≤ Config.maxPayload) (.payloadTooLong payload.length)
    require (s.blen bf ≤ Config.maxFilename) (.operandRange (s.blen bf) Config.maxFilename)
    let Q ← embedPlane D s.plPixels s.ph.toNat s.pw.toNat (s.readBuf bs) (s.readBuf bf) (s.readBuf bp) lsb
      (s.flagBit xf)
    return { s with
      rf := s.rf.writeAll 0 s.plPixels
      pl := s.pl.writeAll 0 Q }

/-- `EMBED bs, bf, bp, xl, xf` (rule R248). -/
def execEmbed (bs bf bp : Buf) (xl xf : Reg) (s : State) : Host.Outcome State Fault Refusal :=
  embedWith Config.deflateFn bs bf bp xl xf s

/-! ### EXTRACT -/

/-- The record `ExtractPlane` returns (rule R249). -/
structure ExtractRecord where
  out : List Byte
  filename : List Byte
  payloadLength : Nat
  lsb : Nat
  flag : Bool
  crc : Word
  headerBitLength : Nat
deriving DecidableEq, Repr

/-- The low `k` bits of the plane's pixels at the given coordinates (rule R249). -/
def gatherPlane (P : List Byte) (w k : Nat) (cs : List Coord) : List Byte :=
  cs.map (fun c => P.getD (c.index w) 0 &&& lowMask k)

/-- Step 6 of `ExtractPlane`: the recovered bytes from the payload bytes (rule R249). -/
def extractOutput (h : HeaderRecord) (data : List Byte) : Except Fault (List Byte) :=
  if h.flag then
    match inflate data with
    | none => .error (.inflateError h.payloadLength)
    | some S => .ok S
  else .ok data

/-- Steps 3 to 6 of `ExtractPlane`, for a decoded header `h` and the permutation `co` (rule R249). -/
def extractPayload (P : List Byte) (n W : Nat) (co : List Coord) (h : HeaderRecord) : Except Fault ExtractRecord := do
  let ng := ceilDiv (8 * h.payloadLength) h.lsb
  require (h.headerBitLength + ng ≤ n) (.integrityFailure h.crc.toNat (2 ^ 32))
  let G := gatherPlane P W h.lsb ((co.drop h.headerBitLength).take ng)
  let data := (groupsToBytes G h.lsb).take h.payloadLength
  require (crc32 data = h.crc) (.integrityFailure h.crc.toNat (crc32 data).toNat)
  let out ← extractOutput h data
  return {
    out := out
    filename := h.filename
    payloadLength := h.payloadLength
    lsb := h.lsb
    flag := h.flag
    crc := h.crc
    headerBitLength := h.headerBitLength }

/-- `ExtractPlane(P, H, W, password)` (rule R249). -/
def extractPlane (P : List Byte) (H W : Nat) (password : List Byte) : Except Fault ExtractRecord :=
  let co := permuteAll H W password
  let cand := (gatherPlane P W 1 (co.take (min Config.maxHeaderBits (H * W)))).map bitOfElem
  match headerDecode cand with
  | .error t => .error (.headerTruncated t.needed t.available)
  | .ok h => extractPayload P (H * W) W co h

/-- `EXTRACT bd, bf, bp, xd` (rule R250). -/
def execExtract (bd bf bp : Buf) (xd : Base5) (s : State) : Host.Outcome State Fault Refusal :=
  s.finish do
    s.checkPlane
    let e ← extractPlane s.plPixels s.ph.toNat s.pw.toNat (s.readBuf bp)
    let t ← s.writeBuf bd e.out
    let u ← t.writeBuf bf e.filename
    return u.writeRegs5 xd (BitVec.ofNat 32 e.payloadLength) (BitVec.ofNat 32 e.lsb) (flagWord e.flag) e.crc
      (BitVec.ofNat 32 e.headerBitLength)

end Sys2Proof.Machine
end

