-- ==== Sys2Proof/Machine/Sequencer.lean ====
section
/-! DEFINITION. The command sequencer's own commands: HALT, LI, LUI, BLEN (rules R271 to R274). -/

namespace Sys2Proof.Machine

/-- `HALT`: `state <- DONE`; `cp` is not advanced (rule R271). -/
def execHalt (s : State) : Host.Outcome State Fault Refusal := .next { s with runState := .done }

/-- `LI xd, imm16`: `x[xd] <- zext_32(imm16)` (rule R272). -/
def execLi (xd : Reg) (imm : Half) (s : State) : Host.Outcome State Fault Refusal :=
  s.finish (.ok (s.writeReg xd (imm.setWidth 32)))

/-- `LUI xd, imm16`: `x[xd] <- imm16 * 2^16 + (x[xd] mod 2^16)` (rule R273). -/
def execLui (xd : Reg) (imm : Half) (s : State) : Host.Outcome State Fault Refusal :=
  s.finish (.ok (s.writeReg xd (BitVec.ofNat 32 (imm.toNat * 2 ^ 16 + (s.readReg xd).toNat % 2 ^ 16))))

/-- `BLEN xd, bs`: `x[xd] <- blen[bs]` (rule R274). -/
def execBlen (xd : Reg) (bs : Buf) (s : State) : Host.Outcome State Fault Refusal :=
  s.finish (.ok (s.writeReg xd (BitVec.ofNat 32 (s.blen bs))))

end Sys2Proof.Machine
end

