-- ==== Sys2Proof/Machine/Validation.lean ====
section
/-! DEFINITION. The validation unit: VLSB, VFMT, VCAP, VCRC (rules R230 to R234). A check that passes changes nothing but
the command pointer; one that fails raises its fault. -/

namespace Sys2Proof.Machine

/-- `VLSB xs`: all 32 bits count (rule R231). -/
def execVlsb (xs : Reg) (s : State) : Host.Outcome State Fault Refusal :=
  s.finish do
    checkDepth (s.readReg xs).toNat
    return s

/-- `VFMT xs` (rule R232). -/
def execVfmt (xs : Reg) (s : State) : Host.Outcome State Fault Refusal :=
  s.finish do
    require (s.flagBit xs = false) .unsupportedOutputFormat
    return s

/-- `VCAP xh, xp`: the sum is exact (rule R233). -/
def execVcap (xh xp : Reg) (s : State) : Host.Outcome State Fault Refusal :=
  s.finish do
    require ((s.readReg xh).toNat + (s.readReg xp).toNat ≤ s.pixels)
      (.insufficientCapacity ((s.readReg xh).toNat + (s.readReg xp).toNat) s.pixels)
    return s

/-- `VCRC bs, xs` (rule R234). -/
def execVcrc (bs : Buf) (xs : Reg) (s : State) : Host.Outcome State Fault Refusal :=
  s.finish do
    require (crc32 (s.readBuf bs) = s.readReg xs)
      (.integrityFailure (s.readReg xs).toNat (crc32 (s.readBuf bs)).toNat)
    return s

end Sys2Proof.Machine
end

