-- ==== Sys2Proof/Syntax.lean ====
section
/-! DEFINITION. The 28 commands, one constructor per row of spec/opcode_table.json, operands in the order the assembler
writes them (rule R74). -/

namespace Sys2Proof

/-- A command. A register operand is a `Reg`, a buffer operand a `Buf`, the base of five result registers a `Base5`
(rule R72). -/
inductive Instr where
  /-- `HALT`: end the run (rule R271). -/
  | halt
  /-- `LI xd, imm16`: load immediate (rule R272). -/
  | li (xd : Reg) (imm : Half)
  /-- `LUI xd, imm16`: load upper immediate, keeping the lower half (rule R273). -/
  | lui (xd : Reg) (imm : Half)
  /-- `BLEN xd, bs`: a buffer's length into a register (rule R274). -/
  | blen (xd : Reg) (bs : Buf)
  /-- `B2G bd, bs, xg`: bytes to bit groups (rule R106). -/
  | b2g (bd bs : Buf) (xg : Reg)
  /-- `G2B bd, bs, xg`: bit groups to bytes (rule R107). -/
  | g2b (bd bs : Buf) (xg : Reg)
  /-- `PACK xd, bs`: pack a bit sequence into a register (rule R108). -/
  | pack (xd : Reg) (bs : Buf)
  /-- `UNPK bd, xs`: unpack a register to its minimal bit sequence (rule R109). -/
  | unpk (bd : Buf) (xs : Reg)
  /-- `UNPKW bd, xs, xw`: unpack a register to exactly `w` bits (rule R110). -/
  | unpkw (bd : Buf) (xs xw : Reg)
  /-- `DEFL bd, bs`: compress (rule R122). -/
  | defl (bd bs : Buf)
  /-- `INFL bd, bs`: decompress (rule R123). -/
  | infl (bd bs : Buf)
  /-- `CADOPT bd, bs, xf, xq`: adopt the compressed form if it is strictly shorter (rule R124). -/
  | cadopt (bd bs : Buf) (xf xq : Reg)
  /-- `PERM bp`: the full permutation of the plane (rule R174). -/
  | perm (bp : Buf)
  /-- `PERML bp, xl`: the permutation limited to a length (rule R175). -/
  | perml (bp : Buf) (xl : Reg)
  /-- `SEED xd, bp`: the seed of a password (rule R176). -/
  | seed (xd : Reg) (bp : Buf)
  /-- `OPA xk`: correct the working plane against the reference plane (rule R192). -/
  | opa (xk : Reg)
  /-- `HENC bd, bs, bf, xl, xc`: build the header bits (rule R206). -/
  | henc (bd bs bf : Buf) (xl xc : Reg)
  /-- `HDEC bf, bs, xd`: parse a header (rule R207). -/
  | hdec (bf bs : Buf) (xd : Base5)
  /-- `CRC xd, bs`: checksum of a buffer (rule R208). -/
  | crc (xd : Reg) (bs : Buf)
  /-- `VLSB xs`: check the bit depth (rule R231). -/
  | vlsb (xs : Reg)
  /-- `VFMT xs`: check the destination format (rule R232). -/
  | vfmt (xs : Reg)
  /-- `VCAP xh, xp`: check capacity (rule R233). -/
  | vcap (xh xp : Reg)
  /-- `VCRC bs, xs`: check integrity (rule R234). -/
  | vcrc (bs : Buf) (xs : Reg)
  /-- `SNAP`: copy the working plane to the reference plane (rule R241). -/
  | snap
  /-- `SCAT bs, xk, xo`: scatter a buffer into the pixels of the coordinate buffer (rule R243). -/
  | scat (bs : Buf) (xk xo : Reg)
  /-- `GATH bd, xk, xo, xn`: gather from the pixels of the coordinate buffer (rule R245). -/
  | gath (bd : Buf) (xk xo xn : Reg)
  /-- `EMBED bs, bf, bp, xl, xf`: the whole of Embed (rule R248). -/
  | embed (bs bf bp : Buf) (xl xf : Reg)
  /-- `EXTRACT bd, bf, bp, xd`: the whole of Extract (rule R250). -/
  | extract (bd bf bp : Buf) (xd : Base5)
deriving DecidableEq, Repr

end Sys2Proof
end

