-- ==== Sys2Proof/Machine/Dispatch.lean ====
section
/-! DEFINITION. Each command's meaning, one arm per constructor of Instr (rule R10). -/

namespace Sys2Proof.Machine

def exec (i : Instr) (s : State) : Host.Outcome State Fault Refusal :=
  match i with
  | .halt => Sys2Proof.Machine.execHalt s
  | .li xd imm => Sys2Proof.Machine.execLi xd imm s
  | .lui xd imm => Sys2Proof.Machine.execLui xd imm s
  | .blen xd bs => Sys2Proof.Machine.execBlen xd bs s
  | .b2g bd bs xg => Sys2Proof.Machine.execB2g bd bs xg s
  | .g2b bd bs xg => Sys2Proof.Machine.execG2b bd bs xg s
  | .pack xd bs => Sys2Proof.Machine.execPack xd bs s
  | .unpk bd xs => Sys2Proof.Machine.execUnpk bd xs s
  | .unpkw bd xs xw => Sys2Proof.Machine.execUnpkw bd xs xw s
  | .defl bd bs => Sys2Proof.Machine.execDefl bd bs s
  | .infl bd bs => Sys2Proof.Machine.execInfl bd bs s
  | .cadopt bd bs xf xq => Sys2Proof.Machine.execCadopt bd bs xf xq s
  | .perm bp => Sys2Proof.Machine.execPerm bp s
  | .perml bp xl => Sys2Proof.Machine.execPerml bp xl s
  | .seed xd bp => Sys2Proof.Machine.execSeed xd bp s
  | .opa xk => Sys2Proof.Machine.execOpa xk s
  | .henc bd bs bf xl xc => Sys2Proof.Machine.execHenc bd bs bf xl xc s
  | .hdec bf bs xd => Sys2Proof.Machine.execHdec bf bs xd s
  | .crc xd bs => Sys2Proof.Machine.execCrc xd bs s
  | .vlsb xs => Sys2Proof.Machine.execVlsb xs s
  | .vfmt xs => Sys2Proof.Machine.execVfmt xs s
  | .vcap xh xp => Sys2Proof.Machine.execVcap xh xp s
  | .vcrc bs xs => Sys2Proof.Machine.execVcrc bs xs s
  | .snap => Sys2Proof.Machine.execSnap s
  | .scat bs xk xo => Sys2Proof.Machine.execScat bs xk xo s
  | .gath bd xk xo xn => Sys2Proof.Machine.execGath bd xk xo xn s
  | .embed bs bf bp xl xf => Sys2Proof.Machine.execEmbed bs bf bp xl xf s
  | .extract bd bf bp xd => Sys2Proof.Machine.execExtract bd bf bp xd s

end Sys2Proof.Machine
end

