-- ==== Sys2Proof/WellFormed.lean ====
section
/-! DEFINITION. Which commands have a legal word. The ranges of register, buffer and base fields (rule R80 items 3 and 4)
are carried by the operand types; the one relation between two fields (item 5) is the check below. -/

namespace Sys2Proof

/-- A command is well formed when it has a legal word: EXTRACT's two destination buffers differ (rules R72, R80 item 5);
every other command is, for all its operands. -/
def Instr.wellFormed : Instr → Bool
  | .extract bd bf _ _ => bd != bf
  | .halt | .li .. | .lui .. | .blen .. | .b2g .. | .g2b .. | .pack .. | .unpk .. | .unpkw .. | .defl .. | .infl ..
  | .cadopt .. | .perm .. | .perml .. | .seed .. | .opa .. | .henc .. | .hdec .. | .crc .. | .vlsb .. | .vfmt ..
  | .vcap .. | .vcrc .. | .snap | .scat .. | .gath .. | .embed .. => true

end Sys2Proof
end

