-- ==== Sys2Proof/Decode.lean ====
section
/-! DEFINITION. Decoding a 32-bit word to a command, or to the item of rule R80 that makes it illegal (rule R82); then
the encoder, from the same tables (rules R71, R74). -/

namespace Sys2Proof

/-- Why a word is illegal: the five items of rule R80. Every one of them raises `IllegalCommand(word, 0)`, so which one it
is cannot be observed (DESIGN CHOICE, log entry 15). -/
inductive Illegal where
  /-- Item 1: the opcode is not one of the 28. -/
  | unknownOpcode
  /-- Item 2: a field or bit the command does not use is not 0. -/
  | nonzeroUnused
  /-- Item 3: a buffer field holds 4 or more. -/
  | bufferField
  /-- Item 4: the base of five registers is 12 or more. -/
  | registerBase
  /-- Item 5: EXTRACT's destination buffers are equal. -/
  | equalDestinations
deriving DecidableEq, Repr

/-- `w[lo + len - 1 : lo]` as a number (rule R6). -/
def bitsAt (w : Word) (lo len : Nat) : Nat := w.toNat / 2 ^ lo % 2 ^ len

/-- The fields of format R, each as a number (rule R71). -/
structure Fields where
  op : Nat
  a : Nat
  b : Nat
  c : Nat
  d : Nat
  e : Nat
  f : Nat
deriving DecidableEq, Repr

/-- The fields of a word (rules R71, R82). -/
def fieldsOf (w : Word) : Fields where
  op := bitsAt w 24 8
  a := bitsAt w 20 4
  b := bitsAt w 16 4
  c := bitsAt w 12 4
  d := bitsAt w 8 4
  e := bitsAt w 4 4
  f := bitsAt w 0 4

/-- `imm16`, bits 15 to 0 (rule R73). -/
def immOf (w : Word) : Half := BitVec.ofNat 16 (bitsAt w 0 16)

/-- A register field: all 16 values are legal (rule R72). A field has 4 bits, so the remainder changes nothing. -/
def regField (v : Nat) : Reg := ⟨v % 16, Nat.mod_lt v (by decide)⟩

/-- A buffer field: only 0 to 3 are legal (rules R72, R80 item 3). -/
def bufField (v : Nat) : Except Illegal Buf :=
  if h : v < 4 then .ok ⟨v, h⟩ else .error .bufferField

/-- The base of five registers: only 0 to 11 are legal (rule R80 item 4). -/
def baseField (v : Nat) : Except Illegal Base5 :=
  if h : v < 12 then .ok ⟨v, h⟩ else .error .registerBase

/-- The fields a command does not use must be 0 (rule R80 item 2). -/
def unusedZero (vs : List Nat) : Except Illegal Unit :=
  if vs.all (· == 0) then .ok () else .error .nonzeroUnused

/-- Decode a word: total, reading nothing but the word; what is not a command is rejected by the name of the item of rule
R80 it breaks (rule R82). -/
def decode (w : Word) : Except Illegal Instr :=
  let F := fieldsOf w
  match F.op with
  | 0x01 => do
    unusedZero [bitsAt w 0 24]
    return .halt
  | 0x02 => do
    unusedZero [F.b]
    return .li (regField F.a) (immOf w)
  | 0x03 => do
    unusedZero [F.b]
    return .lui (regField F.a) (immOf w)
  | 0x04 => do
    unusedZero [F.c, F.d, F.e, F.f]
    return .blen (regField F.a) (← bufField F.b)
  | 0x10 => do
    unusedZero [F.d, F.e, F.f]
    return .b2g (← bufField F.a) (← bufField F.b) (regField F.c)
  | 0x11 => do
    unusedZero [F.d, F.e, F.f]
    return .g2b (← bufField F.a) (← bufField F.b) (regField F.c)
  | 0x12 => do
    unusedZero [F.c, F.d, F.e, F.f]
    return .pack (regField F.a) (← bufField F.b)
  | 0x13 => do
    unusedZero [F.c, F.d, F.e, F.f]
    return .unpk (← bufField F.a) (regField F.b)
  | 0x14 => do
    unusedZero [F.d, F.e, F.f]
    return .unpkw (← bufField F.a) (regField F.b) (regField F.c)
  | 0x20 => do
    unusedZero [F.c, F.d, F.e, F.f]
    return .defl (← bufField F.a) (← bufField F.b)
  | 0x21 => do
    unusedZero [F.c, F.d, F.e, F.f]
    return .infl (← bufField F.a) (← bufField F.b)
  | 0x22 => do
    unusedZero [F.e, F.f]
    return .cadopt (← bufField F.a) (← bufField F.b) (regField F.c) (regField F.d)
  | 0x30 => do
    unusedZero [F.b, F.c, F.d, F.e, F.f]
    return .perm (← bufField F.a)
  | 0x31 => do
    unusedZero [F.c, F.d, F.e, F.f]
    return .perml (← bufField F.a) (regField F.b)
  | 0x32 => do
    unusedZero [F.c, F.d, F.e, F.f]
    return .seed (regField F.a) (← bufField F.b)
  | 0x40 => do
    unusedZero [F.b, F.c, F.d, F.e, F.f]
    return .opa (regField F.a)
  | 0x50 => do
    unusedZero [F.f]
    return .henc (← bufField F.a) (← bufField F.b) (← bufField F.c) (regField F.d) (regField F.e)
  | 0x51 => do
    unusedZero [F.d, F.e, F.f]
    return .hdec (← bufField F.a) (← bufField F.b) (← baseField F.c)
  | 0x52 => do
    unusedZero [F.c, F.d, F.e, F.f]
    return .crc (regField F.a) (← bufField F.b)
  | 0x60 => do
    unusedZero [F.b, F.c, F.d, F.e, F.f]
    return .vlsb (regField F.a)
  | 0x61 => do
    unusedZero [F.b, F.c, F.d, F.e, F.f]
    return .vfmt (regField F.a)
  | 0x62 => do
    unusedZero [F.c, F.d, F.e, F.f]
    return .vcap (regField F.a) (regField F.b)
  | 0x63 => do
    unusedZero [F.c, F.d, F.e, F.f]
    return .vcrc (← bufField F.a) (regField F.b)
  | 0x70 => do
    unusedZero [bitsAt w 0 24]
    return .snap
  | 0x71 => do
    unusedZero [F.d, F.e, F.f]
    return .scat (← bufField F.a) (regField F.b) (regField F.c)
  | 0x72 => do
    unusedZero [F.e, F.f]
    return .gath (← bufField F.a) (regField F.b) (regField F.c) (regField F.d)
  | 0x73 => do
    unusedZero [F.f]
    return .embed (← bufField F.a) (← bufField F.b) (← bufField F.c) (regField F.d) (regField F.e)
  | 0x74 => do
    unusedZero [F.e, F.f]
    let bd ← bufField F.a
    let bf ← bufField F.b
    let bp ← bufField F.c
    let xd ← baseField F.d
    if bd = bf then .error .equalDestinations else .ok (.extract bd bf bp xd)
  | _ => .error .unknownOpcode

/-- The word of a format R command (rule R74). -/
def wordR (op a b c d e : Nat) : Word :=
  BitVec.ofNat 32 (op * 2 ^ 24 + a * 2 ^ 20 + b * 2 ^ 16 + c * 2 ^ 12 + d * 2 ^ 8 + e * 2 ^ 4)

/-- The word of a format I command (rule R74). -/
def wordI (op rd : Nat) (imm : Half) : Word :=
  BitVec.ofNat 32 (op * 2 ^ 24 + rd * 2 ^ 20 + imm.toNat)

/-- The opcode of a command (rule R74). -/
def Instr.opcode : Instr → Nat
  | .halt => 0x01
  | .li .. => 0x02
  | .lui .. => 0x03
  | .blen .. => 0x04
  | .b2g .. => 0x10
  | .g2b .. => 0x11
  | .pack .. => 0x12
  | .unpk .. => 0x13
  | .unpkw .. => 0x14
  | .defl .. => 0x20
  | .infl .. => 0x21
  | .cadopt .. => 0x22
  | .perm .. => 0x30
  | .perml .. => 0x31
  | .seed .. => 0x32
  | .opa .. => 0x40
  | .henc .. => 0x50
  | .hdec .. => 0x51
  | .crc .. => 0x52
  | .vlsb .. => 0x60
  | .vfmt .. => 0x61
  | .vcap .. => 0x62
  | .vcrc .. => 0x63
  | .snap => 0x70
  | .scat .. => 0x71
  | .gath .. => 0x72
  | .embed .. => 0x73
  | .extract .. => 0x74

/-- The word of a command: its opcode, its operands in the fields `a`, `b`, … from the left, every other bit 0 (rules R71,
R74). -/
def encode (i : Instr) : Word :=
  match i with
  | .halt => wordR i.opcode 0 0 0 0 0
  | .li xd imm => wordI i.opcode xd imm
  | .lui xd imm => wordI i.opcode xd imm
  | .blen xd bs => wordR i.opcode xd bs 0 0 0
  | .b2g bd bs xg => wordR i.opcode bd bs xg 0 0
  | .g2b bd bs xg => wordR i.opcode bd bs xg 0 0
  | .pack xd bs => wordR i.opcode xd bs 0 0 0
  | .unpk bd xs => wordR i.opcode bd xs 0 0 0
  | .unpkw bd xs xw => wordR i.opcode bd xs xw 0 0
  | .defl bd bs => wordR i.opcode bd bs 0 0 0
  | .infl bd bs => wordR i.opcode bd bs 0 0 0
  | .cadopt bd bs xf xq => wordR i.opcode bd bs xf xq 0
  | .perm bp => wordR i.opcode bp 0 0 0 0
  | .perml bp xl => wordR i.opcode bp xl 0 0 0
  | .seed xd bp => wordR i.opcode xd bp 0 0 0
  | .opa xk => wordR i.opcode xk 0 0 0 0
  | .henc bd bs bf xl xc => wordR i.opcode bd bs bf xl xc
  | .hdec bf bs xd => wordR i.opcode bf bs xd 0 0
  | .crc xd bs => wordR i.opcode xd bs 0 0 0
  | .vlsb xs => wordR i.opcode xs 0 0 0 0
  | .vfmt xs => wordR i.opcode xs 0 0 0 0
  | .vcap xh xp => wordR i.opcode xh xp 0 0 0
  | .vcrc bs xs => wordR i.opcode bs xs 0 0 0
  | .snap => wordR i.opcode 0 0 0 0 0
  | .scat bs xk xo => wordR i.opcode bs xk xo 0 0
  | .gath bd xk xo xn => wordR i.opcode bd xk xo xn 0
  | .embed bs bf bp xl xf => wordR i.opcode bs bf bp xl xf
  | .extract bd bf bp xd => wordR i.opcode bd bf bp xd 0

/-- The command the decoder reads from an instruction whose bits, numbered as spec/opcode_table.json numbers them, are
`w`: one command is one word, so the word is `w` itself with every bit above `nbits` 0. -/
def decodeTableWord (nbits w : Nat) : Option Instr :=
  (decode (BitVec.ofNat 32 (w % 2 ^ nbits))).toOption

/-- `LI32 xd, imm32`, the one pseudo-instruction: LI of the lower half, then LUI of the upper half (rule R84). -/
def pseudoLI32 (xd : Reg) (imm : Word) : List Instr :=
  [.li xd (imm.extractLsb' 0 16), .lui xd (imm.extractLsb' 16 16)]

end Sys2Proof
end

