-- ==== Sys2Proof/Machine/Fetch.lean ====
section
/-! DEFINITION. Fetch and decode (rules R70, R270), and placing a word where the next fetch reads it. -/

namespace Sys2Proof.Machine

/-- The start of a step: the fetch check, the fetch, the decoding (rules R270, R303). -/
def fetch (s : State) : Except Fault Instr :=
  if s.cp.toNat < s.caps.cmdCap then
    match decode (s.cm.read s.cp.toNat) with
    | .ok i => .ok i
    | .error _ => .error (.illegalCommand (s.cm.read s.cp.toNat).toNat)
  else .error (.fetchFault s.cp.toNat s.caps.cmdCap)

/-- `s` running, with `w` the command word it fetches next: `cp` is kept, or set to 0 where it names no word (DEDUCED, log entry 6). -/
def State.placeWord (s : State) (w : Word) : State :=
  if s.cp.toNat < s.caps.cmdCap then { s with runState := .running, cm := s.cm.write s.cp.toNat w }
  else { s with runState := .running, cp := 0, cm := s.cm.write 0 w }

end Sys2Proof.Machine
end

