-- ==== Sys2Proof/Machine/Step.lean ====
section
/-! DEFINITION. One step of the unit (rule R270). -/

namespace Sys2Proof.Machine

/-- One step. While `RUNNING`: fetch and decode, and the command's meaning or the fault's entry; in every other run state
the unit makes no step, and the state stands (rules R22, R270, R355; DEDUCED, log entry 4). -/
def step (s : State) : Host.Outcome State Fault Refusal :=
  match s.runState with
  | .running =>
    match fetch s with
    | .ok i => exec i s
    | .error f => .next (s.takeFault f)
  | .idle | .done | .faulted => .next s

/-- `s` running, with the command of bits `w` where step fetches its next command. -/
def State.withFetchWord (s : State) (nbits w : Nat) : State := s.placeWord (BitVec.ofNat 32 (w % 2 ^ nbits))

end Sys2Proof.Machine
end

