-- ==== Sys2Proof/Machine/Assembler.lean ====
section
/-! DEFINITION. The assembler syntax (rules R83, R84): one line of text to the commands it stands for, and back.
Blanks and letter case, which the rules leave open: DESIGN CHOICE, log entry 11. -/

namespace Sys2Proof

/-- The name of a command (rule R74). -/
def Instr.mnemonic : Instr → String
  | .halt => "HALT"
  | .li .. => "LI"
  | .lui .. => "LUI"
  | .blen .. => "BLEN"
  | .b2g .. => "B2G"
  | .g2b .. => "G2B"
  | .pack .. => "PACK"
  | .unpk .. => "UNPK"
  | .unpkw .. => "UNPKW"
  | .defl .. => "DEFL"
  | .infl .. => "INFL"
  | .cadopt .. => "CADOPT"
  | .perm .. => "PERM"
  | .perml .. => "PERML"
  | .seed .. => "SEED"
  | .opa .. => "OPA"
  | .henc .. => "HENC"
  | .hdec .. => "HDEC"
  | .crc .. => "CRC"
  | .vlsb .. => "VLSB"
  | .vfmt .. => "VFMT"
  | .vcap .. => "VCAP"
  | .vcrc .. => "VCRC"
  | .snap => "SNAP"
  | .scat .. => "SCAT"
  | .gath .. => "GATH"
  | .embed .. => "EMBED"
  | .extract .. => "EXTRACT"

/-! ### Numbers and operands as text -/

/-- The character of a decimal digit. -/
def digitChar (d : Nat) : Char := Char.ofNat (48 + d)

/-- Up to `n` decimal digits of `v`, put before `acc`. -/
def decimalOnto : Nat → Nat → List Char → List Char
  | 0, _, acc => acc
  | n + 1, v, acc => if v < 10 then digitChar v :: acc else decimalOnto n (v / 10) (digitChar (v % 10) :: acc)

/-- `v` in decimal, for a value of at most ten digits. -/
def decimal (v : Nat) : List Char := decimalOnto 10 v []

/-- The value of a digit in a base of at most 16. -/
def digitValue (base : Nat) (c : Char) : Option Nat :=
  let n := c.toNat
  let v := if 48 ≤ n ∧ n ≤ 57 then n - 48 else if 97 ≤ n ∧ n ≤ 102 then n - 87
    else if 65 ≤ n ∧ n ≤ 70 then n - 55 else 99
  if v < base then some v else none

/-- Digits onto a value. -/
def digitsOnto (base : Nat) : Nat → List Char → Option Nat
  | v, [] => some v
  | v, c :: cs => match digitValue base c with
    | none => none
    | some d => digitsOnto base (v * base + d) cs

/-- A number: decimal, or hexadecimal with `0x` (rule R83). -/
def parseNumber : List Char → Option Nat
  | [] => none
  | '0' :: 'x' :: c :: cs => digitsOnto 16 0 (c :: cs)
  | c :: cs => digitsOnto 10 0 (c :: cs)

/-- `x0` to `x15` (rule R83). -/
def regName (r : Nat) : List Char := 'x' :: decimal r

/-- `b0` to `b3` (rule R83). -/
def bufName (b : Nat) : List Char := 'b' :: decimal b

/-- A register operand. -/
def parseReg (cs : List Char) : Option Reg := (List.finRange 16).find? (fun r => regName r.val == cs)

/-- The register operand that is the base of five: a base above 11 has no word (rule R80). -/
def parseBase (cs : List Char) : Option Base5 := (List.finRange 12).find? (fun r => regName r.val == cs)

/-- A buffer operand. -/
def parseBuf (cs : List Char) : Option Buf := (List.finRange 4).find? (fun b => bufName b.val == cs)

/-- An immediate in `[0, 65535]`. -/
def parseImm (cs : List Char) : Option Half :=
  match parseNumber cs with
  | some v => if v < 2 ^ 16 then some (BitVec.ofNat 16 v) else none
  | none => none

/-- The 32-bit immediate of `LI32`. -/
def parseImm32 (cs : List Char) : Option Word :=
  match parseNumber cs with
  | some v => if v < 2 ^ 32 then some (BitVec.ofNat 32 v) else none
  | none => none

/-! ### Lines -/

/-- Drop spaces from the front. -/
def dropSpaces (cs : List Char) : List Char := cs.dropWhile (· == ' ')

/-- Drop spaces from both ends. -/
def trimSpaces (cs : List Char) : List Char := (dropSpaces (dropSpaces cs).reverse).reverse

/-- The parts between commas. -/
def splitCommas : List Char → List Char → List (List Char)
  | cur, [] => [cur.reverse]
  | cur, c :: cs => if c = ',' then cur.reverse :: splitCommas [] cs else splitCommas (c :: cur) cs

/-- The operands of a line, after the mnemonic. -/
def operandsOf (cs : List Char) : List (List Char) :=
  if trimSpaces cs = [] then [] else (splitCommas [] cs).map trimSpaces

/-- The commands of a mnemonic and its operands: one, or the two of `LI32` (rules R83, R84). -/
def assembleOps (m : String) (ops : List (List Char)) : Option (List Instr) :=
  match m, ops with
  | "HALT", [] => some [.halt]
  | "LI", [a, b] => do return [.li (← parseReg a) (← parseImm b)]
  | "LUI", [a, b] => do return [.lui (← parseReg a) (← parseImm b)]
  | "LI32", [a, b] => do return pseudoLI32 (← parseReg a) (← parseImm32 b)
  | "BLEN", [a, b] => do return [.blen (← parseReg a) (← parseBuf b)]
  | "B2G", [a, b, c] => do return [.b2g (← parseBuf a) (← parseBuf b) (← parseReg c)]
  | "G2B", [a, b, c] => do return [.g2b (← parseBuf a) (← parseBuf b) (← parseReg c)]
  | "PACK", [a, b] => do return [.pack (← parseReg a) (← parseBuf b)]
  | "UNPK", [a, b] => do return [.unpk (← parseBuf a) (← parseReg b)]
  | "UNPKW", [a, b, c] => do return [.unpkw (← parseBuf a) (← parseReg b) (← parseReg c)]
  | "DEFL", [a, b] => do return [.defl (← parseBuf a) (← parseBuf b)]
  | "INFL", [a, b] => do return [.infl (← parseBuf a) (← parseBuf b)]
  | "CADOPT", [a, b, c, d] => do
    return [.cadopt (← parseBuf a) (← parseBuf b) (← parseReg c) (← parseReg d)]
  | "PERM", [a] => do return [.perm (← parseBuf a)]
  | "PERML", [a, b] => do return [.perml (← parseBuf a) (← parseReg b)]
  | "SEED", [a, b] => do return [.seed (← parseReg a) (← parseBuf b)]
  | "OPA", [a] => do return [.opa (← parseReg a)]
  | "HENC", [a, b, c, d, e] => do
    return [.henc (← parseBuf a) (← parseBuf b) (← parseBuf c) (← parseReg d) (← parseReg e)]
  | "HDEC", [a, b, c] => do return [.hdec (← parseBuf a) (← parseBuf b) (← parseBase c)]
  | "CRC", [a, b] => do return [.crc (← parseReg a) (← parseBuf b)]
  | "VLSB", [a] => do return [.vlsb (← parseReg a)]
  | "VFMT", [a] => do return [.vfmt (← parseReg a)]
  | "VCAP", [a, b] => do return [.vcap (← parseReg a) (← parseReg b)]
  | "VCRC", [a, b] => do return [.vcrc (← parseBuf a) (← parseReg b)]
  | "SNAP", [] => some [.snap]
  | "SCAT", [a, b, c] => do return [.scat (← parseBuf a) (← parseReg b) (← parseReg c)]
  | "GATH", [a, b, c, d] => do
    return [.gath (← parseBuf a) (← parseReg b) (← parseReg c) (← parseReg d)]
  | "EMBED", [a, b, c, d, e] => do
    return [.embed (← parseBuf a) (← parseBuf b) (← parseBuf c) (← parseReg d) (← parseReg e)]
  | "EXTRACT", [a, b, c, d] => do
    let bd ← parseBuf a
    let bf ← parseBuf b
    let bp ← parseBuf c
    let xd ← parseBase d
    if bd = bf then none else some [.extract bd bf bp xd]
  | _, _ => none

/-- One line of assembler text: a `#` starts a comment, a line without a command stands for none (rule R83). -/
def assembleLine (line : List Char) : Option (List Instr) :=
  let code := trimSpaces (line.takeWhile (· != '#'))
  if code = [] then some []
  else assembleOps (String.ofList (code.takeWhile (· != ' '))) (operandsOf (code.dropWhile (· != ' ')))

/-- The words of a text, one line each; `none` if a line is not assembler text. -/
def assemble (lines : List (List Char)) : Option (List Word) :=
  (lines.mapM assembleLine).map (fun is => is.flatten.map encode)

/-- The operands of a command as text, in field order (rule R83). -/
def Instr.operandText : Instr → List (List Char)
  | .halt | .snap => []
  | .li xd imm | .lui xd imm => [regName xd, decimal imm.toNat]
  | .blen xd bs | .pack xd bs | .seed xd bs | .crc xd bs => [regName xd, bufName bs]
  | .b2g bd bs xg | .g2b bd bs xg => [bufName bd, bufName bs, regName xg]
  | .unpk b x | .perml b x | .vcrc b x => [bufName b, regName x]
  | .unpkw b x y | .scat b x y => [bufName b, regName x, regName y]
  | .defl bd bs | .infl bd bs => [bufName bd, bufName bs]
  | .cadopt bd bs xf xq => [bufName bd, bufName bs, regName xf, regName xq]
  | .perm bp => [bufName bp]
  | .opa x | .vlsb x | .vfmt x => [regName x]
  | .henc b1 b2 b3 x y | .embed b1 b2 b3 x y => [bufName b1, bufName b2, bufName b3, regName x, regName y]
  | .hdec bf bs xd => [bufName bf, bufName bs, regName xd]
  | .vcap xh xp => [regName xh, regName xp]
  | .gath bd xk xo xn => [bufName bd, regName xk, regName xo, regName xn]
  | .extract bd bf bp xd => [bufName bd, bufName bf, bufName bp, regName xd]

/-- Operands with a comma and a space between them. -/
def joinCommas : List (List Char) → List Char
  | [] => []
  | [a] => a
  | a :: as => a ++ ',' :: ' ' :: joinCommas as

/-- The assembler line of a command (rule R83). -/
def Instr.text (i : Instr) : List Char :=
  match i.operandText with
  | [] => i.mnemonic.toList
  | ops => i.mnemonic.toList ++ ' ' :: joinCommas ops

end Sys2Proof
end

