-- ==== Sys2Proof/OpcodeTable.lean ====
section
/-! DEFINITION. The rows of spec/opcode_table.json as data: each row's mnemonic, mask and match as the table gives them,
independent of the decoder. The claims hold the decoder against it. -/

namespace Sys2Proof

/-- One row: a word belongs to it when its bits under `mask` are `bits`. -/
structure OpcodeRow where
  mnemonic : String
  mask : Word
  bits : Word
deriving DecidableEq, Repr

/-- A word has the bits the row fixes. -/
def OpcodeRow.fits (r : OpcodeRow) (w : Word) : Bool := w &&& r.mask == r.bits

/-- The 28 rows, in the table's order. -/
def opcodeRows : List OpcodeRow :=
  [⟨"HALT", 0xFFFFFFFF, 0x01000000⟩, ⟨"LI", 0xFF0F0000, 0x02000000⟩,
   ⟨"LUI", 0xFF0F0000, 0x03000000⟩, ⟨"BLEN", 0xFF0CFFFF, 0x04000000⟩,
   ⟨"B2G", 0xFFCC0FFF, 0x10000000⟩, ⟨"G2B", 0xFFCC0FFF, 0x11000000⟩,
   ⟨"PACK", 0xFF0CFFFF, 0x12000000⟩, ⟨"UNPK", 0xFFC0FFFF, 0x13000000⟩,
   ⟨"UNPKW", 0xFFC00FFF, 0x14000000⟩, ⟨"DEFL", 0xFFCCFFFF, 0x20000000⟩,
   ⟨"INFL", 0xFFCCFFFF, 0x21000000⟩, ⟨"CADOPT", 0xFFCC00FF, 0x22000000⟩,
   ⟨"PERM", 0xFFCFFFFF, 0x30000000⟩, ⟨"PERML", 0xFFC0FFFF, 0x31000000⟩,
   ⟨"SEED", 0xFF0CFFFF, 0x32000000⟩, ⟨"OPA", 0xFF0FFFFF, 0x40000000⟩,
   ⟨"HENC", 0xFFCCC00F, 0x50000000⟩, ⟨"HDEC", 0xFFCC0FFF, 0x51000000⟩,
   ⟨"CRC", 0xFF0CFFFF, 0x52000000⟩, ⟨"VLSB", 0xFF0FFFFF, 0x60000000⟩,
   ⟨"VFMT", 0xFF0FFFFF, 0x61000000⟩, ⟨"VCAP", 0xFF00FFFF, 0x62000000⟩,
   ⟨"VCRC", 0xFFC0FFFF, 0x63000000⟩, ⟨"SNAP", 0xFFFFFFFF, 0x70000000⟩,
   ⟨"SCAT", 0xFFC00FFF, 0x71000000⟩, ⟨"GATH", 0xFFC000FF, 0x72000000⟩,
   ⟨"EMBED", 0xFFCCC00F, 0x73000000⟩, ⟨"EXTRACT", 0xFFCCC0FF, 0x74000000⟩]

end Sys2Proof
end

