-- ==== Sys2Proof/Machine/HostPort.lean ====
section
/-! DEFINITION. The host port: everything the host can do to the unit and read from it (rules R23 to R32, R62, R63, R340). -/

namespace Sys2Proof.Machine

/-- One of the two planes. -/
inductive PlaneId where
  /-- The working plane `PL`. -/
  | pl
  /-- The reference plane `RF`. -/
  | rf
deriving DecidableEq, Repr

/-- The host actions of rule R62 that change the unit. `HostStart` and `HostClear` are writes of `CTRL`. -/
inductive HostAction where
  /-- `HostWriteReg(n, v)`. -/
  | writeReg (n : Nat) (v : Word)
  /-- `HostLoadBuffer(i, s)`. -/
  | loadBuffer (i : Buf) (s : List Byte)
  /-- `HostLoadCoords(s)`, each coordinate as the host's 32-bit element. -/
  | loadCoords (s : List Word)
  /-- `HostLoadPlane(P, H, W, s)`, `H` and `W` as 32-bit values. Rule R62 does not say what `H` or `W` of `2^16` or more
  does: the elements are loaded as it says, and what `PH` or `PW` then holds is a free value (DESIGN CHOICE, log entry 3). -/
  | loadPlane (p : PlaneId) (h w : Word) (s : List Byte)
  /-- `HostWritePlaneElem(P, i, v)`. -/
  | writePlaneElem (p : PlaneId) (i : Nat) (v : Byte)
  /-- `HostLoadCommands(base, words)`. -/
  | loadCommands (base : Nat) (words : List Word)
  /-- `HostReset`: asserts `rst`. -/
  | reset
deriving DecidableEq, Repr

/-! ### Registers -/

/-- The two bits `STATUS` reads (rules R22, R25). -/
def RunState.code : RunState → Nat
  | .idle => 0
  | .running => 1
  | .done => 2
  | .faulted => 3

/-- A coordinate as the host sees it: `row` in bits 31 to 16, `col` in bits 15 to 0 (rule R34; DEDUCED, log entry 9). -/
def Coord.pack (c : Coord) : Word := c.row ++ c.col

/-- The coordinate of a host element (rule R34). -/
def Coord.unpack (w : Word) : Coord := { row := w.extractLsb' 16 16, col := w.extractLsb' 0 16 }

/-- The value of control register `n`, below 0x10 (rule R23); `CTRL` and the reserved number read 0. -/
def State.controlReg (s : State) (n : Nat) : DWord :=
  match n with
  | 0x01 => BitVec.ofNat 64 s.runState.code
  | 0x02 => s.cp.setWidth 64
  | 0x03 => s.ecode.setWidth 64
  | 0x04 => s.einfo0
  | 0x05 => s.einfo1
  | 0x06 => s.epc.setWidth 64
  | 0x07 => Config.version.setWidth 64
  | 0x08 => s.ph.setWidth 64
  | 0x09 => s.pw.setWidth 64
  | 0x0A => BitVec.ofNat 64 (s.blen 0)
  | 0x0B => BitVec.ofNat 64 (s.blen 1)
  | 0x0C => BitVec.ofNat 64 (s.blen 2)
  | 0x0D => BitVec.ofNat 64 (s.blen 3)
  | 0x0E => BitVec.ofNat 64 s.clen
  | _ => 0

/-- `HostReadReg(n)` (rules R23, R62): while the unit runs only `STATUS` can be read, any other read returns 0 (rule
R63); 0x10 to 0x1F are the general registers, the rest reserved. -/
def State.hostReadReg (s : State) (n : Nat) : DWord :=
  if s.runState = .running ∧ n ≠ 0x01 then 0
  else if h : 0x10 ≤ n ∧ n < 0x20 then (s.readReg ⟨n - 0x10, by omega⟩).setWidth 64
  else s.controlReg n

/-- A write of `CTRL`: CLEAR first, START second; bits 31 to 2 are ignored (rule R24). -/
def State.writeCtrl (s : State) (v : Word) : State :=
  let t := if v.getLsbD 1 then s.clear else s
  if v.getLsbD 0 then t.start else t

/-- What `PH` or `PW` holds after the host writes it `v` over `old`; what a value of `2^16` or more leaves is not stated
(rule R31; DESIGN CHOICE, log entry 3). -/
def dimensionOf (old : Half) (v : Word) : Half :=
  if v.toNat < 2 ^ 16 then v.setWidth 16 else Config.wideDimension old v

/-- `HostWriteReg(n, v)` on a unit that does not run: `CTRL`, `CP`, `PH`, `PW` and the general registers are writable, a write
of any other number is ignored (rules R23, R24). -/
def State.hostWriteReg (s : State) (n : Nat) (v : Word) : State :=
  if h : 0x10 ≤ n ∧ n < 0x20 then s.writeReg ⟨n - 0x10, by omega⟩ v
  else
    match n with
    | 0x00 => s.writeCtrl v
    | 0x02 => { s with cp := v }
    | 0x08 => { s with ph := dimensionOf s.ph v }
    | 0x09 => { s with pw := dimensionOf s.pw v }
    | _ => s

/-! ### Memories -/

/-- The contents of a plane memory. -/
def State.plane (s : State) : PlaneId → Memory 8
  | .pl => s.pl
  | .rf => s.rf

/-- Replace the contents of a plane memory. -/
def State.setPlane (s : State) (p : PlaneId) (m : Memory 8) : State :=
  match p with
  | .pl => { s with pl := m }
  | .rf => { s with rf := m }

/-- One host action on a unit that does not run; an action outside what rule R62 allows is ignored (rule R351;
DEDUCED, log entry 7). -/
def State.hostActStopped (s : State) (a : HostAction) : State :=
  match a with
  | .writeReg n v => s.hostWriteReg n v
  | .loadBuffer i l => if l.length ≤ s.caps.bufCap then s.setBuf i l else s
  | .loadCoords l => if l.length ≤ s.caps.crdCap then { s with coords := l.map Coord.unpack } else s
  | .loadPlane p h w l =>
    if l.length = h.toNat * w.toNat ∧ l.length ≤ s.caps.planeCap then
      ({ s with ph := dimensionOf s.ph h, pw := dimensionOf s.pw w }).setPlane p ((s.plane p).writeAll 0 l)
    else s
  | .writePlaneElem p i v => if i < s.caps.planeCap then s.setPlane p ((s.plane p).write i v) else s
  | .loadCommands base words =>
    if base + words.length ≤ s.caps.cmdCap then { s with cm := s.cm.writeAll base words } else s
  | .reset => State.resetWith s.caps

/-- One host action (rules R62, R63, R340): reset at any time; anything else only while the unit does not run, and dropped
while it does. -/
def State.hostAct (s : State) (a : HostAction) : State :=
  if s.runState = .running ∧ a ≠ .reset then s else s.hostActStopped a

/-! ### Reads -/

/-- `HostReadBuffer(i)`; while the unit runs there is no such move (rules R62, R63, log entry 7). -/
def State.hostReadBuffer (s : State) (i : Buf) : Option (List Byte) :=
  if s.runState = .running then none else some (s.readBuf i)

/-- `HostReadCoords()`, each coordinate as the host's 32-bit element; while the unit runs there is no such move (rules
R34, R62, R63, log entry 7). -/
def State.hostReadCoords (s : State) : Option (List Word) :=
  if s.runState = .running then none else some (s.coords.map Coord.pack)

/-- `HostReadPlane(P)`: elements `0 .. PH*PW - 1`; no such move while the unit runs, or when the plane is larger than its
memory and has no such elements (rules R62, R63, log entry 7). -/
def State.hostReadPlane (s : State) (p : PlaneId) : Option (List Byte) :=
  if s.runState = .running ∨ s.caps.planeCap < s.pixels then none else some ((s.plane p).readAll s.pixels)

/-- `HostReadPlaneElem(P, i)`, `i < PLANE_CAP`; no such move while the unit runs, or past the memory (rules R62, R63, log
entry 7). -/
def State.hostReadPlaneElem (s : State) (p : PlaneId) (i : Nat) : Option Byte :=
  if s.runState = .running ∨ s.caps.planeCap ≤ i then none else some ((s.plane p).read i)

/-- The `n` command words from index `base` on. Rule R50 says that the host reads `CM`, and rule R62 lists no action for it:
the read has the form of `HostLoadCommands`, and is no move while the unit runs or past the memory (DEDUCED, log entries
7 and 19). -/
def State.hostReadCommands (s : State) (base n : Nat) : Option (List Word) :=
  if s.runState = .running ∨ s.caps.cmdCap < base + n then none
  else some ((List.range n).map fun j => s.cm.read (base + j))

end Sys2Proof.Machine
end

