-- ==== Sys2Proof/Machine/System.lean ====
section
/-! DEFINITION. The two agents together (rules R11, R59, R62): the unit's steps and the host's actions, in the order the
events name them (DEDUCED, log entry 10). -/

namespace Sys2Proof.Machine

/-- Which agent moves. -/
inductive Event where
  /-- The unit makes a step. -/
  | unit
  /-- The host acts. -/
  | host (a : HostAction)
deriving DecidableEq, Repr

/-- The unit's step as a function to a state: `step` answers `.next` on every state. -/
def State.stepped (s : State) : State :=
  match step s with
  | .next t => t
  | .fault _ | .refused _ => s

/-- One event. -/
def State.onEvent (s : State) : Event → State
  | .unit => s.stepped
  | .host a => s.hostAct a

/-- A sequence of events. -/
def State.onEvents (s : State) (es : List Event) : State := es.foldl State.onEvent s

/-- `n` steps of the unit (rule R276). -/
def State.runSteps (s : State) : Nat → State
  | 0 => s
  | n + 1 => s.stepped.runSteps n

end Sys2Proof.Machine
end

