-- ==== Sys2Proof/Safety.lean ====
section
/-! DEFINITION. What a good state is, what a command may leave unchanged, and the numbers a fault leaves, in the terms the
claims use. -/

namespace Sys2Proof.Machine

/-- The fault registers agree with the run state: `ECODE` is a code of rule R300 exactly while `FAULTED`, and all four are 0
otherwise (rules R27, R28, R29, R300). -/
abbrev State.FaultRegsAgree (s : State) : Prop :=
  (s.runState = .faulted → 1 ≤ s.ecode.toNat ∧ s.ecode.toNat ≤ 12) ∧
  (s.runState ≠ .faulted → s.ecode = 0 ∧ s.einfo0 = 0 ∧ s.einfo1 = 0 ∧ s.epc = 0)

/-- Every space holds only elements it has, in canonical form (rules R32 to R36, R50, R57). -/
abbrev State.SpacesFit (s : State) : Prop :=
  (∀ b : Buf, s.blen b ≤ s.caps.bufCap) ∧ s.clen ≤ s.caps.crdCap ∧
  (s.pl.wf ∧ s.pl.below s.caps.planeCap) ∧ (s.rf.wf ∧ s.rf.below s.caps.planeCap) ∧
  (s.cm.wf ∧ s.cm.below s.caps.cmdCap)

/-- The invariant of the unit: lawful capacities, spaces that fit, fault registers that agree with the run state. -/
abbrev State.Inv (s : State) : Prop := s.caps.Lawful ∧ s.SpacesFit ∧ s.FaultRegsAgree

/-- The states the two agents can reach from reset. -/
def State.Reachable (s : State) : Prop := ∃ es, s = State.reset.onEvents es

/-- The run that starts in `s` has ended well after `n` steps (rule R276). -/
abbrev State.EndsDone (s : State) (n : Nat) : Prop := (s.runSteps n).runState = .done

/-! ### Faults -/

/-- The state after a fault of the given code and information words: the five writes of rule R305 and nothing else
(rule R304). The claims give the numbers of rule R300 here, not the model's names of the faults. -/
def State.faultEntry (s : State) (code info0 info1 : Nat) : State :=
  { s with
    ecode := BitVec.ofNat 8 code
    einfo0 := BitVec.ofNat 64 info0
    einfo1 := BitVec.ofNat 64 info1
    epc := s.cp
    runState := .faulted }

/-! ### Frames -/

/-- What no command writes but by a fault or HALT: run state, fault registers, dimensions, command memory, capacities. -/
abbrev State.SameControl (s t : State) : Prop :=
  t.runState = s.runState ∧ t.ecode = s.ecode ∧ t.einfo0 = s.einfo0 ∧ t.einfo1 = s.einfo1 ∧ t.epc = s.epc ∧
  t.ph = s.ph ∧ t.pw = s.pw ∧ t.cm = s.cm ∧ t.caps = s.caps

/-- Every general register but those named reads as before. -/
abbrev State.SameRegs (s t : State) (written : Reg → Prop) : Prop := ∀ r, ¬written r → t.readReg r = s.readReg r

/-- Every element buffer but those named holds what it held. -/
abbrev State.SameBufs (s t : State) (written : Buf → Prop) : Prop := ∀ b, ¬written b → t.readBuf b = s.readBuf b

/-- Every element of a plane memory but those named reads as before. -/
abbrev Memory.SameElems (m n : Memory 8) (written : Nat → Prop) : Prop := ∀ i, ¬written i → n.read i = m.read i

/-- The frame of a command that writes no plane: `cp + 1`, and all but the registers and buffers named stands. -/
abbrev State.FrameOffPlane (s t : State) (regs : Reg → Prop) (bufs : Buf → Prop) : Prop :=
  t.cp = s.cp + 1 ∧ s.SameControl t ∧ s.SameRegs t regs ∧ s.SameBufs t bufs ∧
  (∀ i, t.pl.read i = s.pl.read i) ∧ (∀ i, t.rf.read i = s.rf.read i)

/-- The frame of a command that writes no register, no buffer and not `C`: `cp + 1`, and all but the plane elements
named stands. -/
abbrev State.FrameOnPlane (s t : State) (pl rf : Nat → Prop) : Prop :=
  t.cp = s.cp + 1 ∧ s.SameControl t ∧ t.x = s.x ∧ t.bufs = s.bufs ∧ t.coords = s.coords ∧
  s.pl.SameElems t.pl pl ∧ s.rf.SameElems t.rf rf

/-! ### Bits of sequences -/

/-- Bit number `p` of a byte sequence: `S[p div 8][p mod 8]` (rule R100); 0 past the end. -/
def bitAt (S : List Byte) (p : Nat) : Bool := (S.getD (p / 8) 0).getLsbD (p % 8)

/-- Bit number `p` of a sequence of groups of width `g`: bit `p mod g` of element `p div g` (rule R102); 0 past the end. -/
def groupBitAt (G : List Byte) (g p : Nat) : Bool := (G.getD (p / g) 0).getLsbD (p % g)

end Sys2Proof.Machine
end

