-- ==== Sys2Proof/Certificates/Slice0/Obligations.lean ====
section
/-! DEFINITION. The statements for the provers. A fault is named by the numbers of rule R300 (`State.faultEntry`); a command's
completion is an equation `exec i s = .next t` for the `t` its rule gives. -/

open Sys2Proof Sys2Proof.Machine

/-! ### Encoding -/

/-- Every command that has a legal word is what its word decodes to, for all its operands (rules R74, R82). -/
def Obligations.DecodeEncodeRoundTrip : Prop :=
  ∀ i : Instr, i.wellFormed = true → decode (encode i) = .ok i

/-- A legal word is the one word of the command it decodes to (rule R82). -/
def Obligations.LegalWordIsItsCommandsWord : Prop :=
  ∀ (w : Word) (i : Instr), decode w = .ok i → i.wellFormed = true ∧ encode i = w

/-- The decoder accepts exactly the words of a row of the opcode table that meet items 4 and 5 of rule R80, and reads the
command of that row (rules R74, R80, R82). -/
def Obligations.DecoderAgreesWithOpcodeTable : Prop :=
  (∀ (w : Word) (i : Instr), decode w = .ok i → ∃ r ∈ opcodeRows, r.mnemonic = i.mnemonic ∧ r.fits w = true) ∧
  (∀ w : Word, (∃ i, decode w = .ok i) ↔
    ∃ r ∈ opcodeRows, r.fits w = true ∧ (r.mnemonic = "HDEC" → bitsAt w 12 4 < 12) ∧
      (r.mnemonic = "EXTRACT" → bitsAt w 8 4 < 12 ∧ bitsAt w 20 4 ≠ bitsAt w 16 4))

/-- Words written out in the rules decode to the commands they stand for, and the zero word to none. -/
def Obligations.WordsOfTheRulesDecode : Prop :=
  decode 0x01000000 = .ok .halt ∧ decode 0x0240012C = .ok (.li 4 0x012C) ∧ decode 0x03B041D3 = .ok (.lui 11 0x41D3) ∧
  decode 0x10101000 = .ok (.b2g 1 0 1) ∧ decode 0x14346000 = .ok (.unpkw 3 4 6) ∧
  decode 0x22203200 = .ok (.cadopt 2 0 3 2) ∧ decode 0x31310000 = .ok (.perml 3 1) ∧
  decode 0x40100000 = .ok (.opa 1) ∧ decode 0x50102120 = .ok (.henc 1 0 2 1 2) ∧
  decode 0x51218000 = .ok (.hdec 2 1 8) ∧ decode 0x62340000 = .ok (.vcap 3 4) ∧
  decode 0x72134500 = .ok (.gath 1 3 4 5) ∧ decode 0x74213800 = .ok (.extract 2 1 3 8) ∧
  decode 0x00000000 = .error .unknownOpcode

/-! ### The step -/

/-- A running unit whose `cp` names a word of the command memory that decodes to a command takes that command's step
(rules R70, R270). -/
def Obligations.StepRunsTheDecodedCommand : Prop :=
  ∀ (s : State) (i : Instr), s.runState = .running → s.cp.toNat < s.caps.cmdCap →
    decode (s.cm.read s.cp.toNat) = .ok i → step s = exec i s

/-- An illegal word raises `IllegalCommand(word, 0)` (rule R311). -/
def Obligations.IllegalWordRaisesIllegalCommand : Prop :=
  ∀ (s : State) (e : Illegal), s.runState = .running → s.cp.toNat < s.caps.cmdCap →
    decode (s.cm.read s.cp.toNat) = .error e →
    step s = .next (s.faultEntry 6 (s.cm.read s.cp.toNat).toNat 0)

/-- A fetch past the command memory raises `FetchFault(cp, CMD_CAP)`, whatever the memory holds (rule R312). -/
def Obligations.FetchPastTheEndRaisesFetchFault : Prop :=
  ∀ s : State, s.runState = .running → s.caps.cmdCap ≤ s.cp.toNat →
    step s = .next (s.faultEntry 7 s.cp.toNat s.caps.cmdCap)

/-- Each fault leaves the code and the two information words of rule R300, by the entry of rule R305. -/
def Obligations.FaultsLeaveTheirNumbers : Prop :=
  ∀ (s : State) (u v : Nat),
    s.takeFault (.invalidParameter u) = s.faultEntry 1 u 0 ∧
    s.takeFault .unsupportedOutputFormat = s.faultEntry 2 0 0 ∧
    s.takeFault (.insufficientCapacity u v) = s.faultEntry 3 u v ∧
    s.takeFault (.bitWidthOverflow u) = s.faultEntry 4 u 32 ∧
    s.takeFault (.integrityFailure u v) = s.faultEntry 5 u v ∧
    s.takeFault (.illegalCommand u) = s.faultEntry 6 u 0 ∧
    s.takeFault (.fetchFault u v) = s.faultEntry 7 u v ∧
    s.takeFault (.operandRange u v) = s.faultEntry 8 u v ∧
    s.takeFault (.bufferOverflow u v) = s.faultEntry 9 u v ∧
    s.takeFault (.inflateError u) = s.faultEntry 10 u 0 ∧
    s.takeFault (.payloadTooLong u) = s.faultEntry 11 u (2 ^ 31 - 1) ∧
    s.takeFault (.headerTruncated u v) = s.faultEntry 12 u v

/-- A step that ends in a fault has no effect but the entry of rule R305, whichever command raised it (rule R304), and its
code is one of the twelve (rule R27). -/
def Obligations.FaultingStepHasNoEffect : Prop :=
  ∀ s t : State, s.runState = .running → step s = .next t → t.runState = .faulted →
    t = s.faultEntry t.ecode.toNat t.einfo0.toNat t.einfo1.toNat ∧ 1 ≤ t.ecode.toNat ∧ t.ecode.toNat ≤ 12

/-- From every state a step yields a next state, whatever the command (rules R270, R351); in `IDLE`, `DONE` and `FAULTED` it
is the same state (rule R355). That `step` answers the same state there is the model's form of making no step: log
entry 4. -/
def Obligations.EveryStepHasANextState : Prop :=
  (∀ s : State, ∃ t, step s = .next t) ∧ (∀ (i : Instr) (s : State), ∃ t, exec i s = .next t) ∧
  (∀ s : State, s.runState ≠ .running → step s = .next s)

/-- A step moves `cp` on by one, without wrapping, or leaves it: at a HALT, and at a fault (rule R21). -/
def Obligations.CommandPointerMovesByOneOrStays : Prop :=
  ∀ s t : State, s.caps.Lawful → s.runState = .running → step s = .next t →
    (t.runState = .running ∧ t.cp.toNat = s.cp.toNat + 1) ∨
    (t.runState = .done ∧ t.cp = s.cp ∧ decode (s.cm.read s.cp.toNat) = .ok .halt) ∨
    (t.runState = .faulted ∧ t.cp = s.cp)

/-- No command writes the command memory or the plane's dimensions, and the capacities of the unit are what they are (rules
R31, R36, R61). -/
def Obligations.NoCommandWritesProgramOrDimensions : Prop :=
  ∀ (i : Instr) (s t : State), exec i s = .next t → t.cm = s.cm ∧ t.ph = s.ph ∧ t.pw = s.pw ∧ t.caps = s.caps

/-- A register or buffer reads what was written to it, every other one as before, and the five registers of a base are
consecutive (rules R9, R20, R72, R207). -/
def Obligations.RegistersAndBuffersReadWhatWasWritten : Prop :=
  (∀ (s : State) (r q : Reg) (v : Word), (s.writeReg r v).readReg q = if q = r then v else s.readReg q) ∧
  (∀ (s : State) (b c : Buf) (l : List Byte), (s.setBuf b l).readBuf c = if c = b then l else s.readBuf c) ∧
  (∀ (s : State) (b : Base5) (v0 v1 v2 v3 v4 : Word) (q : Reg), (s.writeRegs5 b v0 v1 v2 v3 v4).readReg q =
    if q.val = b.val then v0 else if q.val = b.val + 1 then v1 else if q.val = b.val + 2 then v2
    else if q.val = b.val + 3 then v3 else if q.val = b.val + 4 then v4 else s.readReg q)

/-! ### The host port and reset -/

/-- A write of `CTRL`: CLEAR first, then START, by run state (rule R24). -/
def Obligations.ControlWriteClearsThenStarts : Prop :=
  ∀ (s : State) (v : Word),
    s.hostAct (.writeReg 0 v) =
      match s.runState, v.getLsbD 1, v.getLsbD 0 with
      | .running, _, _ => s
      | _, false, false => s
      | .idle, true, false => s
      | .idle, _, true => { s with runState := .running }
      | .done, false, true => { s with runState := .running }
      | .faulted, false, true => s
      | .done, true, b =>
        { s with runState := if b then .running else .idle, ecode := 0, einfo0 := 0, einfo1 := 0, epc := 0 }
      | .faulted, true, b =>
        { s with runState := if b then .running else .idle, ecode := 0, einfo0 := 0, einfo1 := 0, epc := 0 }

/-- The register file of the host port while the unit does not run: what each number reads, and what a write of it does
(rule R23); a dimension is written with a value of 16 bits. -/
def Obligations.HostRegisterFile : Prop :=
  ∀ s : State, s.runState ≠ .running →
    (s.hostReadReg 0x00 = 0 ∧
      s.hostReadReg 0x01 = (match s.runState with | .idle => 0 | .running => 1 | .done => 2 | .faulted => 3) ∧
      s.hostReadReg 0x02 = s.cp.setWidth 64 ∧ s.hostReadReg 0x03 = s.ecode.setWidth 64 ∧
      s.hostReadReg 0x04 = s.einfo0 ∧ s.hostReadReg 0x05 = s.einfo1 ∧ s.hostReadReg 0x06 = s.epc.setWidth 64 ∧
      s.hostReadReg 0x07 = 0x0101 ∧ s.hostReadReg 0x08 = s.ph.setWidth 64 ∧ s.hostReadReg 0x09 = s.pw.setWidth 64 ∧
      (∀ b : Buf, s.hostReadReg (0x0A + b) = BitVec.ofNat 64 (s.blen b)) ∧
      s.hostReadReg 0x0E = BitVec.ofNat 64 s.clen ∧ s.hostReadReg 0x0F = 0 ∧
      (∀ r : Reg, s.hostReadReg (0x10 + r) = (s.readReg r).setWidth 64) ∧ ∀ n, 0x20 ≤ n → s.hostReadReg n = 0) ∧
    ∀ v : Word,
      s.hostAct (.writeReg 0x02 v) = { s with cp := v } ∧
      (v.toNat < 2 ^ 16 → s.hostAct (.writeReg 0x08 v) = { s with ph := v.setWidth 16 } ∧
        s.hostAct (.writeReg 0x09 v) = { s with pw := v.setWidth 16 }) ∧
      (∀ r : Reg, s.hostAct (.writeReg (0x10 + r) v) = s.writeReg r v) ∧
      ∀ n, (n = 0x01 ∨ (0x03 ≤ n ∧ n ≤ 0x07) ∨ (0x0A ≤ n ∧ n ≤ 0x0F) ∨ 0x20 ≤ n) → s.hostAct (.writeReg n v) = s

/-- While the unit runs the host can read `STATUS` and reset; every other action changes nothing, every other register reads
0, and a read of a memory is no move (rule R63). That such a read is `none` is the model's form of making no move: log
entry 7. -/
def Obligations.HostIsIgnoredWhileRunning : Prop :=
  ∀ (s : State) (a : HostAction) (n : Nat), s.runState = .running →
    (a ≠ .reset → s.hostAct a = s) ∧ s.hostReadReg 0x01 = 1 ∧ (n ≠ 0x01 → s.hostReadReg n = 0) ∧
    (∀ b, s.hostReadBuffer b = none) ∧ s.hostReadCoords = none ∧
    (∀ p, s.hostReadPlane p = none ∧ ∀ i, s.hostReadPlaneElem p i = none) ∧ ∀ base m, s.hostReadCommands base m = none

/-- What the host loads into a unit that does not run, or writes to one element of a plane, is what it reads back; the rest
of the space and the other spaces stand, and a load or write that does not fit changes nothing (rules R50, R62, R351). A
plane's dimensions are values of 16 bits here; that the host reads `CM`, and in which form, is log entry 19, and that a load
that is not allowed changes nothing is log entry 7. -/
def Obligations.HostReadsBackWhatItLoads : Prop :=
  (∀ (s : State) (b : Buf) (l : List Byte), s.runState ≠ .running →
    (l.length ≤ s.caps.bufCap →
      s.hostAct (.loadBuffer b l) = s.setBuf b l ∧ (s.hostAct (.loadBuffer b l)).hostReadBuffer b = some l) ∧
    (s.caps.bufCap < l.length → s.hostAct (.loadBuffer b l) = s)) ∧
  (∀ (s : State) (l : List Word), s.runState ≠ .running →
    (l.length ≤ s.caps.crdCap →
      ∃ t, s.hostAct (.loadCoords l) = t ∧ t.hostReadCoords = some l ∧ t = { s with coords := t.coords }) ∧
    (s.caps.crdCap < l.length → s.hostAct (.loadCoords l) = s)) ∧
  (∀ (s : State) (p : PlaneId) (h w : Word) (l : List Byte), s.runState ≠ .running →
    ((s.plane p).wf → h.toNat < 2 ^ 16 → w.toNat < 2 ^ 16 → l.length = h.toNat * w.toNat → l.length ≤ s.caps.planeCap →
      ∃ t, s.hostAct (.loadPlane p h w l) = t ∧ t.hostReadPlane p = some l ∧
        (∀ i, l.length ≤ i → (t.plane p).read i = (s.plane p).read i) ∧
        t = ({ s with ph := h.setWidth 16, pw := w.setWidth 16 } : State).setPlane p (t.plane p)) ∧
    (l.length ≠ h.toNat * w.toNat ∨ s.caps.planeCap < l.length → s.hostAct (.loadPlane p h w l) = s)) ∧
  (∀ (s : State) (p : PlaneId) (i : Nat) (v : Byte), s.runState ≠ .running →
    ((s.plane p).wf → i < s.caps.planeCap →
      ∃ t, s.hostAct (.writePlaneElem p i v) = t ∧ t.hostReadPlaneElem p i = some v ∧
        (∀ j, j ≠ i → (t.plane p).read j = (s.plane p).read j) ∧ t = s.setPlane p (t.plane p)) ∧
    (s.caps.planeCap ≤ i → s.hostAct (.writePlaneElem p i v) = s)) ∧
  (∀ (s : State) (base : Nat) (ws : List Word), s.runState ≠ .running →
    (s.cm.wf → base + ws.length ≤ s.caps.cmdCap →
      ∃ t, s.hostAct (.loadCommands base ws) = t ∧ t.hostReadCommands base ws.length = some ws ∧
        (∀ i, i < base ∨ base + ws.length ≤ i → t.cm.read i = s.cm.read i) ∧ t = { s with cm := t.cm }) ∧
    (s.caps.cmdCap < base + ws.length → s.hostAct (.loadCommands base ws) = s))

/-- Reset puts every piece of state to the value of the table, in every run state (rules R38, R341). -/
def Obligations.ResetGivesEveryStateItsValue : Prop :=
  ∀ t : State, (t = State.reset ∨ ∃ s : State, t = s.hostAct .reset) →
    (∀ r, t.readReg r = 0) ∧ t.cp = 0 ∧ t.runState = .idle ∧ t.ecode = 0 ∧ t.einfo0 = 0 ∧ t.einfo1 = 0 ∧ t.epc = 0 ∧
    t.ph = 0 ∧ t.pw = 0 ∧ (∀ b, t.readBuf b = []) ∧ t.coords = [] ∧ (∀ i, t.pl.read i = 0) ∧ (∀ i, t.rf.read i = 0) ∧
    (∀ i, t.cm.read i = 0) ∧ t.hostReadReg 0x07 = 0x0101

/-- A START straight after reset ends the run at once with `IllegalCommand(0, 0)` and `EPC = 0`, as the spec infers in
its rule R342 from the reset values and the decoding. -/
def Obligations.StartStraightAfterResetFaults : Prop :=
  ∃ s, State.reset.hostAct (.writeReg 0 1) = s ∧ s.runState = .running ∧ s.cp = 0 ∧
    step s = .next (s.faultEntry 6 0 0)

/-! ### Invariant and termination -/

/-- The reset state meets the invariant, and so does the reset state of every unit of lawful capacities (rules R5, R38). -/
def Obligations.ResetMeetsTheInvariant : Prop :=
  State.reset.Inv ∧ ∀ c : Capacities, c.Lawful → (State.resetWith c).Inv

/-- Every step keeps the invariant: buffers and `C` within their capacities, planes and command memory in canonical form and
within theirs, `ECODE` a code of rule R300 exactly while `FAULTED` (rules R27, R32, R34, R57). -/
def Obligations.StepKeepsTheInvariant : Prop :=
  ∀ s t : State, s.Inv → step s = .next t → t.Inv

/-- Every host action keeps the invariant (rules R62, R63). -/
def Obligations.HostActionKeepsTheInvariant : Prop :=
  ∀ (s : State) (a : HostAction), s.Inv → (s.hostAct a).Inv

/-- A run started at `cp = c0` has ended, in `DONE` or in `FAULTED`, after at most `CMD_CAP - c0 + 1` steps (rule R276). That
it stays as it ended for every larger number of steps is the model's choice: `step` answers a stopped unit's own state, log
entry 4. -/
def Obligations.EveryRunEnds : Prop :=
  ∀ (s : State) (m : Nat), s.caps.Lawful → s.runState = .running → s.caps.cmdCap - s.cp.toNat + 1 ≤ m →
    ((s.runSteps m).runState = .done ∨ (s.runSteps m).runState = .faulted) ∧
    s.runSteps m = s.runSteps (s.caps.cmdCap - s.cp.toNat + 1)

/-! ### The sequencer's commands -/

/-- HALT ends the run and changes nothing else: `cp` stays (rule R271). -/
def Obligations.HaltEndsTheRun : Prop :=
  (encode .halt).toNat = 0x01000000 ∧ ∀ s : State, exec .halt s = .next { s with runState := .done }

/-- LI writes the immediate and clears the upper half; LUI writes the upper half and keeps the lower; one after the other
they load any word, and cannot fault (rules R84, R272, R273). -/
def Obligations.LoadImmediatesSetRegisterHalves : Prop :=
  (∀ (xd : Reg) (imm : Half) (s : State),
    (encode (.li xd imm)).toNat = 0x02 * 2 ^ 24 + xd * 2 ^ 20 + imm.toNat ∧
    ∃ v : Word, (∀ j, v.getLsbD j = (decide (j < 16) && imm.getLsbD j)) ∧
      exec (.li xd imm) s = .next (s.writeReg xd v).advance) ∧
  (∀ (xd : Reg) (imm : Half) (s : State),
    (encode (.lui xd imm)).toNat = 0x03 * 2 ^ 24 + xd * 2 ^ 20 + imm.toNat ∧
    ∃ v : Word, (∀ j, v.getLsbD j = if j < 16 then (s.readReg xd).getLsbD j else imm.getLsbD (j - 16)) ∧
      exec (.lui xd imm) s = .next (s.writeReg xd v).advance) ∧
  (∀ (xd : Reg) (imm : Word) (s : State), ∃ i j t,
    pseudoLI32 xd imm = [i, j] ∧ exec i s = .next t ∧ exec j t = .next (s.writeReg xd imm).advance.advance)

/-- BLEN reads a length, SEED the seed of a password (the low 32 bits of its SHA-256 digest), CRC a checksum, each into one
register and without a fault (rules R168, R176, R208, R274). -/
def Obligations.BlenSeedAndCrcWriteTheirRegister : Prop :=
  ∀ (xd : Reg) (b : Buf) (s : State),
    ((encode (.blen xd b)).toNat = 0x04 * 2 ^ 24 + xd * 2 ^ 20 + b * 2 ^ 16 ∧
      (s.blen b < 2 ^ 32 → ∃ v : Word, v.toNat = s.blen b ∧ exec (.blen xd b) s = .next (s.writeReg xd v).advance)) ∧
    ((encode (.seed xd b)).toNat = 0x32 * 2 ^ 24 + xd * 2 ^ 20 + b * 2 ^ 16 ∧
      ∃ v : Word, (∀ j, v.getLsbD j = (decide (j < 32) && (sha256 (s.readBuf b)).getLsbD j)) ∧
        exec (.seed xd b) s = .next (s.writeReg xd v).advance) ∧
    ((encode (.crc xd b)).toNat = 0x52 * 2 ^ 24 + xd * 2 ^ 20 + b * 2 ^ 16 ∧
      exec (.crc xd b) s = .next (s.writeReg xd (crc32 (s.readBuf b))).advance)

/-! ### The bit codec -/

/-- B2G: bit `j` of group `i` is bit `i * g + j` of the source; the width is checked first, then the capacity (rule
R106). -/
def Obligations.BytesToGroupsCommand : Prop :=
  ∀ (bd bs : Buf) (xg : Reg) (s : State), ∃ g m,
    (s.readReg xg).toNat = g ∧ ceilDiv (8 * s.blen bs) g = m ∧
    (encode (.b2g bd bs xg)).toNat = 0x10 * 2 ^ 24 + bd * 2 ^ 20 + bs * 2 ^ 16 + xg * 2 ^ 12 ∧
    (g < 1 ∨ 8 < g → exec (.b2g bd bs xg) s = .next (s.faultEntry 1 g 0)) ∧
    (1 ≤ g → g ≤ 8 → s.caps.bufCap < m → exec (.b2g bd bs xg) s = .next (s.faultEntry 9 m s.caps.bufCap)) ∧
    (1 ≤ g → g ≤ 8 → m ≤ s.caps.bufCap → ∃ G : List Byte, G.length = m ∧
      (∀ i j, i < m → j < 8 → (G.getD i 0).getLsbD j = (decide (j < g) && bitAt (s.readBuf bs) (i * g + j))) ∧
      exec (.b2g bd bs xg) s = .next (s.setBuf bd G).advance)

/-- G2B: bit `p` of the bytes is bit `p mod g` of group `p div g`, for a source within its capacity; only the width is
checked (rule R107). -/
def Obligations.GroupsToBytesCommand : Prop :=
  ∀ (bd bs : Buf) (xg : Reg) (s : State), ∃ g n,
    (s.readReg xg).toNat = g ∧ ceilDiv (s.blen bs * g) 8 = n ∧
    (encode (.g2b bd bs xg)).toNat = 0x11 * 2 ^ 24 + bd * 2 ^ 20 + bs * 2 ^ 16 + xg * 2 ^ 12 ∧
    (g < 1 ∨ 8 < g → exec (.g2b bd bs xg) s = .next (s.faultEntry 1 g 0)) ∧
    (1 ≤ g → g ≤ 8 → s.blen bs ≤ s.caps.bufCap → ∃ S : List Byte, S.length = n ∧
      (∀ p, p < 8 * n → bitAt S p = groupBitAt (s.readBuf bs) g p) ∧
      exec (.g2b bd bs xg) s = .next (s.setBuf bd S).advance)

/-- PACK: bit `j` of the register is bit 0 of element `j`; more than 32 elements fault (rule R108). -/
def Obligations.PackCommand : Prop :=
  ∀ (xd : Reg) (bs : Buf) (s : State),
    (encode (.pack xd bs)).toNat = 0x12 * 2 ^ 24 + xd * 2 ^ 20 + bs * 2 ^ 16 ∧
    (32 < s.blen bs → exec (.pack xd bs) s = .next (s.faultEntry 4 (s.blen bs) 32)) ∧
    (s.blen bs ≤ 32 → ∃ v : Word, (∀ j, v.getLsbD j = ((s.readBuf bs).getD j 0).getLsbD 0) ∧
      exec (.pack xd bs) s = .next (s.writeReg xd v).advance)

/-- UNPK writes the bits of the register up to its highest 1; UNPKW writes exactly the width asked for, at most 32; an
element is 0 or 1 (rules R109, R110). -/
def Obligations.UnpackCommands : Prop :=
  (∀ (bd : Buf) (xs : Reg) (s : State), ∃ n,
    ((s.readReg xs).toNat < 2 ^ n ∧ (n = 0 ∨ 2 ^ (n - 1) ≤ (s.readReg xs).toNat)) ∧
    (encode (.unpk bd xs)).toNat = 0x13 * 2 ^ 24 + bd * 2 ^ 20 + xs * 2 ^ 16 ∧
    (s.caps.bufCap < n → exec (.unpk bd xs) s = .next (s.faultEntry 9 n s.caps.bufCap)) ∧
    (n ≤ s.caps.bufCap → ∃ L : List Byte, L.length = n ∧
      (∀ j, j < n → L.getD j 0 = if (s.readReg xs).getLsbD j then 1 else 0) ∧
      exec (.unpk bd xs) s = .next (s.setBuf bd L).advance)) ∧
  (∀ (bd : Buf) (xs xw : Reg) (s : State), ∃ w, (s.readReg xw).toNat = w ∧
    (encode (.unpkw bd xs xw)).toNat = 0x14 * 2 ^ 24 + bd * 2 ^ 20 + xs * 2 ^ 16 + xw * 2 ^ 12 ∧
    (32 < w → exec (.unpkw bd xs xw) s = .next (s.faultEntry 8 w 32)) ∧
    (w ≤ 32 → s.caps.bufCap < w → exec (.unpkw bd xs xw) s = .next (s.faultEntry 9 w s.caps.bufCap)) ∧
    (w ≤ 32 → w ≤ s.caps.bufCap → ∃ L : List Byte, L.length = w ∧
      (∀ j, j < w → L.getD j 0 = if (s.readReg xs).getLsbD j then 1 else 0) ∧
      exec (.unpkw bd xs xw) s = .next (s.setBuf bd L).advance))

/-- Regrouping and grouping back gives the bytes and, where the width does not divide the bits, one zero byte; packing undoes
unpacking (rule R105, items 1 to 4). -/
def Obligations.BitCodecRoundTrips : Prop :=
  (∀ (S : List Byte) (g : Nat), 1 ≤ g → g ≤ 8 →
    groupsToBytes (bytesToGroups S g) g = S ++ List.replicate (if 8 * S.length % g = 0 then 0 else 1) 0) ∧
  (∀ (v : Word) (w : Nat), w ≤ 32 → packBits ((unpackMin v.toNat).map elemOfBit) = v.toNat ∧
    packBits ((unpackWidth v.toNat w).map elemOfBit) = v.toNat % 2 ^ w) ∧
  (∀ T : List Byte, T.length ≤ 32 → unpackWidth (packBits T) T.length = T.map bitOfElem)

/-! ### The deflate adapter -/

/-- DEFL writes the compressed form if it fits and else faults, whatever the compressor is; the command uses the unit's
(rule R122). -/
def Obligations.DeflateCommand : Prop :=
  ∀ (bd bs : Buf) (s : State),
    (encode (.defl bd bs)).toNat = 0x20 * 2 ^ 24 + bd * 2 ^ 20 + bs * 2 ^ 16 ∧
    ((Config.deflateFn (s.readBuf bs)).length ≤ s.caps.bufCap →
      exec (.defl bd bs) s = .next (s.setBuf bd (Config.deflateFn (s.readBuf bs))).advance) ∧
    exec (.defl bd bs) s = deflWith Config.deflateFn bd bs s ∧
    ∀ D : List Byte → List Byte, s.caps.bufCap < (D (s.readBuf bs)).length →
      deflWith D bd bs s = .next (s.faultEntry 9 (D (s.readBuf bs)).length s.caps.bufCap)

/-- INFL writes the inflated bytes if the source is a well-formed stream and they fit; else it faults, the stream's error
first (rule R123). -/
def Obligations.InflateCommand : Prop :=
  ∀ (bd bs : Buf) (s : State),
    (encode (.infl bd bs)).toNat = 0x21 * 2 ^ 24 + bd * 2 ^ 20 + bs * 2 ^ 16 ∧
    (inflate (s.readBuf bs) = none → exec (.infl bd bs) s = .next (s.faultEntry 10 (s.blen bs) 0)) ∧
    ∀ S, inflate (s.readBuf bs) = some S →
      (s.caps.bufCap < S.length → exec (.infl bd bs) s = .next (s.faultEntry 9 S.length s.caps.bufCap)) ∧
      (S.length ≤ s.caps.bufCap → exec (.infl bd bs) s = .next (s.setBuf bd S).advance)

/-- CADOPT writes the compressed form and 1 exactly when it is requested and strictly shorter, else the source and 0; on a
source within its capacity it cannot fault (rule R124). An input of at most 2 bytes is never adopted, whatever the
compressor that meets the law (rule R136). -/
def Obligations.AdoptCommand : Prop :=
  (∀ (bd bs : Buf) (xf xq : Reg) (s : State),
    (encode (.cadopt bd bs xf xq)).toNat =
      0x22 * 2 ^ 24 + bd * 2 ^ 20 + bs * 2 ^ 16 + xf * 2 ^ 12 + xq * 2 ^ 8 ∧
    (s.blen bs ≤ s.caps.bufCap →
      exec (.cadopt bd bs xf xq) s = .next
        (if (s.readReg xq).getLsbD 0 = true ∧ (Config.deflateFn (s.readBuf bs)).length < s.blen bs then
          ((s.setBuf bd (Config.deflateFn (s.readBuf bs))).writeReg xf 1).advance
        else ((s.setBuf bd (s.readBuf bs)).writeReg xf 0).advance))) ∧
  (∀ (D : List Byte → List Byte) (S : List Byte) (requested : Bool), LawfulCompressor D → S.length ≤ 2 →
    adopt D S requested = (S, false))

/-- A stream that inflates has at least 2 bytes and expands to fewer than 258 bytes a bit; bytes after its final block are
ignored; a final stored block gives its bytes as they stand (rules R126, R127, R134, R136). -/
def Obligations.InflateBoundsAndStoredBlocks : Prop :=
  (∀ Z S : List Byte, inflate Z = some S → 2 ≤ Z.length ∧ S.length < 258 * (8 * Z.length)) ∧
  (∀ Z S U : List Byte, inflate Z = some S → inflate (Z ++ U) = some S) ∧
  (∀ S U : List Byte, S.length < 2 ^ 16 →
    inflate ([0x01, BitVec.ofNat 8 S.length, BitVec.ofNat 8 (S.length / 256), ~~~(BitVec.ofNat 8 S.length),
      ~~~(BitVec.ofNat 8 (S.length / 256))] ++ S ++ U) = some S)

/-! ### The permutation engine -/

/-- PERM and PERML write the coordinates of the index order, row-major for an empty password and the seeded shuffle
otherwise, cut to the length asked for; the plane's size is checked first, then the capacity of `C` (rules R174, R175). -/
def Obligations.PermuteCommands : Prop :=
  ∀ (bp : Buf) (xl : Reg) (s : State), ∃ (n : Nat) (idx : List Nat) (co : Nat → State),
    n = s.ph.toNat * s.pw.toNat ∧
    idx = (if s.blen bp = 0 then List.range n else shuffle (seedOf (s.readBuf bp)) n) ∧
    (∀ len, co len = { s with coords := (idx.take len).map fun i =>
      { row := BitVec.ofNat 16 (i / s.pw.toNat), col := BitVec.ofNat 16 (i % s.pw.toNat) } }) ∧
    (encode (.perm bp)).toNat = 0x30 * 2 ^ 24 + bp * 2 ^ 20 ∧
    (encode (.perml bp xl)).toNat = 0x31 * 2 ^ 24 + bp * 2 ^ 20 + xl * 2 ^ 16 ∧
    (s.caps.planeCap < n → exec (.perm bp) s = .next (s.faultEntry 8 n s.caps.planeCap) ∧
      exec (.perml bp xl) s = .next (s.faultEntry 8 n s.caps.planeCap)) ∧
    (n ≤ s.caps.planeCap → s.caps.crdCap < n → exec (.perm bp) s = .next (s.faultEntry 9 n s.caps.crdCap)) ∧
    (n ≤ s.caps.planeCap → n ≤ s.caps.crdCap → exec (.perm bp) s = .next (co n).advance) ∧
    (n ≤ s.caps.planeCap → s.caps.crdCap < min (s.readReg xl).toNat n →
      exec (.perml bp xl) s = .next (s.faultEntry 9 (min (s.readReg xl).toNat n) s.caps.crdCap)) ∧
    (n ≤ s.caps.planeCap → min (s.readReg xl).toNat n ≤ s.caps.crdCap →
      exec (.perml bp xl) s = .next (co (s.readReg xl).toNat).advance)

/-- The shuffle is a permutation of `[0, n)`, and the full permutation lists every pixel of the plane exactly once, whatever
the password; a shorter one is its prefix (rules R172, R173, R177). -/
def Obligations.PermutationListsEveryPixelOnce : Prop :=
  (∀ (seed : Word) (n : Nat), (shuffle seed n).Perm (List.range n)) ∧
  (∀ (H W : Nat) (P : List Byte), H < 2 ^ 16 → W < 2 ^ 16 →
    (permuteAll H W P).length = H * W ∧ (permuteAll H W P).Nodup ∧
    (∀ c : Coord, c ∈ permuteAll H W P ↔ c.row.toNat < H ∧ c.col.toNat < W) ∧
    (∀ len, permute H W P len = (permuteAll H W P).take len) ∧
    (∀ i, i < H * W → (coordOf W i).index W = i))

/-! ### The OPA unit -/

/-- OPA corrects each pixel of the working plane against the same pixel of the reference plane, and nothing else; the depth
is checked first, then the plane's size (rule R192). The premise is the canonical form the invariant keeps. -/
def Obligations.OpaCommand : Prop :=
  ∀ (xk : Reg) (s : State), ∃ k n,
    (s.readReg xk).toNat = k ∧ s.ph.toNat * s.pw.toNat = n ∧
    (encode (.opa xk)).toNat = 0x40 * 2 ^ 24 + xk * 2 ^ 20 ∧
    (k < 1 ∨ 8 < k → exec (.opa xk) s = .next (s.faultEntry 1 k 0)) ∧
    (1 ≤ k → k ≤ 8 → s.caps.planeCap < n → exec (.opa xk) s = .next (s.faultEntry 8 n s.caps.planeCap)) ∧
    (1 ≤ k → k ≤ 8 → n ≤ s.caps.planeCap → s.pl.wf → ∃ m : Memory 8,
      (∀ i, i < n → m.read i = adjust1 (s.pl.read i) (s.rf.read i) k) ∧ (∀ i, n ≤ i → m.read i = s.pl.read i) ∧
      exec (.opa xk) s = .next ({ s with pl := m } : State).advance)

/-- The seven laws of the correction: it keeps the low `k` bits, moves by a multiple of `2^k`, does nothing at depth 1, at
depth 8 and to an unmodified pixel, brings a corrected pixel to less than `2^(k-1)` from its original, and leaves another
distance only where the correction was discarded: below 0 for a pixel moved up, above 255 for one moved down (rule R193). -/
def Obligations.OpaLaws : Prop :=
  ∀ (m o : Byte) (k : Nat), 1 ≤ k → k ≤ 8 →
    (adjust1 m o k).toNat % 2 ^ k = m.toNat % 2 ^ k ∧
    ((adjust1 m o k) = m ∨ (adjust1 m o k).toNat + 2 ^ k = m.toNat ∨ (adjust1 m o k).toNat = m.toNat + 2 ^ k) ∧
    adjust1 m o 1 = m ∧ adjust1 m m k = m ∧ adjust1 m o 8 = m ∧
    (adjust1 m o k ≠ m → (((adjust1 m o k).toNat : Int) - o.toNat).natAbs = 2 ^ k - ((m.toNat : Int) - o.toNat).natAbs ∧
      (((adjust1 m o k).toNat : Int) - o.toNat).natAbs < 2 ^ (k - 1)) ∧
    (adjust1 m o k = m → ((m.toNat : Int) - o.toNat).natAbs ≤ 2 ^ (k - 1) ∨ 2 ^ k ≤ ((m.toNat : Int) - o.toNat).natAbs ∨
      (o.toNat < m.toNat ∧ m.toNat < 2 ^ k) ∨ (m.toNat < o.toNat ∧ 255 < m.toNat + 2 ^ k))

/-! ### The header unit -/

/-- HENC writes the bits of the frame, one per element; depth, payload length, filename length and capacity are checked in
that order (rule R206). -/
def Obligations.HeaderEncodeCommand : Prop :=
  ∀ (bd bs bf : Buf) (xl xc : Reg) (s : State), ∃ (lsb : Nat) (hb : List Bool),
    (s.readReg xl).toNat = lsb ∧ hb = headerEncode (s.readBuf bs) (s.readBuf bf) lsb ((s.readReg xc).getLsbD 0) ∧
    (encode (.henc bd bs bf xl xc)).toNat =
      0x50 * 2 ^ 24 + bd * 2 ^ 20 + bs * 2 ^ 16 + bf * 2 ^ 12 + xl * 2 ^ 8 + xc * 2 ^ 4 ∧
    (lsb < 1 ∨ 8 < lsb → exec (.henc bd bs bf xl xc) s = .next (s.faultEntry 1 lsb 0)) ∧
    (1 ≤ lsb → lsb ≤ 8 → 2 ^ 31 - 1 < s.blen bs →
      exec (.henc bd bs bf xl xc) s = .next (s.faultEntry 11 (s.blen bs) (2 ^ 31 - 1))) ∧
    (1 ≤ lsb → lsb ≤ 8 → s.blen bs ≤ 2 ^ 31 - 1 → 255 < s.blen bf →
      exec (.henc bd bs bf xl xc) s = .next (s.faultEntry 8 (s.blen bf) 255)) ∧
    (1 ≤ lsb → lsb ≤ 8 → s.blen bs ≤ 2 ^ 31 - 1 → s.blen bf ≤ 255 → s.caps.bufCap < hb.length →
      exec (.henc bd bs bf xl xc) s = .next (s.faultEntry 9 hb.length s.caps.bufCap)) ∧
    (1 ≤ lsb → lsb ≤ 8 → s.blen bs ≤ 2 ^ 31 - 1 → s.blen bf ≤ 255 → hb.length ≤ s.caps.bufCap →
      exec (.henc bd bs bf xl xc) s = .next (s.setBuf bd (hb.map fun b => if b then 1 else 0)).advance)

/-- HDEC writes the filename and the five numbers of the record; a header that ends inside a field faults first, then a
filename that does not fit (rule R207). -/
def Obligations.HeaderDecodeCommand : Prop :=
  ∀ (bf bs : Buf) (xd : Base5) (s : State), ∃ T : List Bool, T = (s.readBuf bs).map (fun e => e.getLsbD 0) ∧
    (encode (.hdec bf bs xd)).toNat = 0x51 * 2 ^ 24 + bf * 2 ^ 20 + bs * 2 ^ 16 + xd * 2 ^ 12 ∧
    (∀ e, headerDecode T = .error e → exec (.hdec bf bs xd) s = .next (s.faultEntry 12 e.needed e.available)) ∧
    (∀ h, headerDecode T = .ok h →
      (s.caps.bufCap < h.filename.length →
        exec (.hdec bf bs xd) s = .next (s.faultEntry 9 h.filename.length s.caps.bufCap)) ∧
      (h.filename.length ≤ s.caps.bufCap →
        exec (.hdec bf bs xd) s = .next ((s.setBuf bf h.filename).writeRegs5 xd (BitVec.ofNat 32 h.payloadLength)
          (BitVec.ofNat 32 h.lsb) (if h.flag then 1 else 0) h.crc (BitVec.ofNat 32 h.headerBitLength)).advance))

/-- The frame's fields stand at their places, each least significant bit first (rules R200, R202). -/
def Obligations.HeaderFieldsStandAtTheirPlaces : Prop :=
  ∀ (payload filename : List Byte) (lsb : Nat) (flag : Bool), payload.length ≤ 2 ^ 31 - 1 → filename.length ≤ 255 →
    1 ≤ lsb → lsb ≤ 8 →
    ∃ (T : List Bool) (n fl : Nat), T = headerEncode payload filename lsb flag ∧ fl = filename.length ∧
      (payload.length < 2 ^ n ∧ (n = 0 ∨ 2 ^ (n - 1) ≤ payload.length)) ∧
      T.length = 5 + n + 3 + 8 + 8 * fl + 1 + 32 ∧ T.length ≤ 2120 ∧
      (∀ j, j < 5 → T.getD j false = n.testBit j) ∧
      (∀ j, j < n → T.getD (5 + j) false = payload.length.testBit j) ∧
      (∀ j, j < 3 → T.getD (5 + n + j) false = (lsb - 1).testBit j) ∧
      (∀ j, j < 8 → T.getD (8 + n + j) false = fl.testBit j) ∧
      (∀ p, p < 8 * fl → T.getD (16 + n + p) false = bitAt filename p) ∧
      T.getD (16 + n + 8 * fl) false = flag ∧
      (∀ j, j < 32 → T.getD (17 + n + 8 * fl + j) false = (crc32 payload).getLsbD j)

/-- A decoded record holds the fields the bits announce. `T` is truncated exactly when it is shorter than the length its own
leading fields announce, and then `needed` is the end of the first field that passes the end of `T`; 2120 bits always
decode (rules R203, R205 item 4). A bit past the end of `T` counts as 0, and no field that ends within `T` depends on it. -/
def Obligations.HeaderDecodeReadsItsFields : Prop :=
  (∀ (T : List Bool) (h : HeaderRecord), headerDecode T = .ok h → ∃ n fl : Nat,
    n < 32 ∧ (∀ j, j < 5 → n.testBit j = T.getD j false) ∧
    h.payloadLength < 2 ^ n ∧ (∀ j, j < n → h.payloadLength.testBit j = T.getD (5 + j) false) ∧
    1 ≤ h.lsb ∧ h.lsb ≤ 8 ∧ (∀ j, j < 3 → (h.lsb - 1).testBit j = T.getD (5 + n + j) false) ∧
    fl < 256 ∧ (∀ j, j < 8 → fl.testBit j = T.getD (8 + n + j) false) ∧
    h.filename.length = fl ∧ (∀ p, p < 8 * fl → bitAt h.filename p = T.getD (16 + n + p) false) ∧
    h.flag = T.getD (16 + n + 8 * fl) false ∧
    (∀ j, j < 32 → h.crc.getLsbD j = T.getD (17 + n + 8 * fl + j) false) ∧
    h.headerBitLength = 49 + n + 8 * fl ∧ h.headerBitLength ≤ T.length) ∧
  (∀ T : List Bool, ∃ n fl : Nat,
    n < 32 ∧ (∀ j, j < 5 → n.testBit j = T.getD j false) ∧
    fl < 256 ∧ (∀ j, j < 8 → fl.testBit j = T.getD (8 + n + j) false) ∧
    ((∃ e, headerDecode T = .error e) ↔ T.length < 49 + n + 8 * fl) ∧
    (∀ e, headerDecode T = .error e → e.available = T.length ∧
      ([5, 5 + n, 8 + n, 16 + n] ++ (List.range fl).map (fun i => 24 + n + 8 * i) ++ [17 + n + 8 * fl, 49 + n + 8 * fl]).find?
        (fun fieldEnd => T.length < fieldEnd) = some e.needed)) ∧
  (∀ T : List Bool, 2120 ≤ T.length → ∃ h, headerDecode T = .ok h)

/-- Decoding a frame, whatever follows it, gives back what it was built from (rule R205, items 1 to 3). -/
def Obligations.HeaderRoundTrip : Prop :=
  ∀ (payload filename : List Byte) (lsb : Nat) (flag : Bool) (U : List Bool), payload.length ≤ 2 ^ 31 - 1 →
    filename.length ≤ 255 → 1 ≤ lsb → lsb ≤ 8 →
    headerDecode (headerEncode payload filename lsb flag ++ U) = .ok {
      payloadLength := payload.length
      lsb := lsb
      filename := filename
      flag := flag
      crc := crc32 payload
      headerBitLength := 49 + bitlen payload.length + 8 * filename.length }

/-- The checksum tells apart any two byte sequences that differ in exactly one bit (rules R204, R251 item 3). -/
def Obligations.CrcDetectsSingleBitChange : Prop :=
  ∀ (S T : List Byte) (p : Nat), S.length = T.length → p < 8 * S.length →
    (∀ q, q < 8 * S.length → (bitAt S q ≠ bitAt T q ↔ q = p)) → crc32 S ≠ crc32 T

/-! ### The validation unit -/

/-- The four checks: each changes nothing but `cp` when it passes, and raises its fault when it fails (rules R231 to
R234). -/
def Obligations.ValidationChecksPassOrFault : Prop :=
  (∀ (xs : Reg) (s : State), (encode (.vlsb xs)).toNat = 0x60 * 2 ^ 24 + xs * 2 ^ 20 ∧
    (1 ≤ (s.readReg xs).toNat → (s.readReg xs).toNat ≤ 8 → exec (.vlsb xs) s = .next s.advance) ∧
    ((s.readReg xs).toNat < 1 ∨ 8 < (s.readReg xs).toNat →
      exec (.vlsb xs) s = .next (s.faultEntry 1 (s.readReg xs).toNat 0))) ∧
  (∀ (xs : Reg) (s : State), (encode (.vfmt xs)).toNat = 0x61 * 2 ^ 24 + xs * 2 ^ 20 ∧
    ((s.readReg xs).getLsbD 0 = false → exec (.vfmt xs) s = .next s.advance) ∧
    ((s.readReg xs).getLsbD 0 = true → exec (.vfmt xs) s = .next (s.faultEntry 2 0 0))) ∧
  (∀ (xh xp : Reg) (s : State), ∃ needed avail,
    needed = (s.readReg xh).toNat + (s.readReg xp).toNat ∧ avail = s.ph.toNat * s.pw.toNat ∧
    (encode (.vcap xh xp)).toNat = 0x62 * 2 ^ 24 + xh * 2 ^ 20 + xp * 2 ^ 16 ∧
    (needed ≤ avail → exec (.vcap xh xp) s = .next s.advance) ∧
    (avail < needed → exec (.vcap xh xp) s = .next (s.faultEntry 3 needed avail))) ∧
  (∀ (bs : Buf) (xs : Reg) (s : State), (encode (.vcrc bs xs)).toNat = 0x63 * 2 ^ 24 + bs * 2 ^ 20 + xs * 2 ^ 16 ∧
    (crc32 (s.readBuf bs) = s.readReg xs → exec (.vcrc bs xs) s = .next s.advance) ∧
    (crc32 (s.readBuf bs) ≠ s.readReg xs →
      exec (.vcrc bs xs) s = .next (s.faultEntry 5 (s.readReg xs).toNat (crc32 (s.readBuf bs)).toNat)))

/-! ### The orchestrator -/

/-- SNAP copies the pixels of the working plane to the reference plane, and nothing else (rule R241). The premise is the
canonical form the invariant keeps. -/
def Obligations.SnapCommand : Prop :=
  ∀ s : State, ∃ n, s.ph.toNat * s.pw.toNat = n ∧ (encode .snap).toNat = 0x70000000 ∧
    (s.caps.planeCap < n → exec .snap s = .next (s.faultEntry 8 n s.caps.planeCap)) ∧
    (n ≤ s.caps.planeCap → s.rf.wf → ∃ m : Memory 8, (∀ i, i < n → m.read i = s.pl.read i) ∧
      (∀ i, n ≤ i → m.read i = s.rf.read i) ∧ exec .snap s = .next ({ s with rf := m } : State).advance)

/-- SCAT substitutes the low `k` bits of the pixels its window of `C` names, the later of two writes to one pixel standing;
depth, plane, window and coordinates are checked in that order (rules R240, R243). The premise is the canonical form the
invariant keeps. -/
def Obligations.ScatterCommand : Prop :=
  ∀ (bs : Buf) (xk xo : Reg) (s : State), ∃ (k n off L : Nat) (px : Nat → Nat) (inside : Nat → Prop),
    (s.readReg xk).toNat = k ∧ s.ph.toNat * s.pw.toNat = n ∧ (s.readReg xo).toNat = off ∧ s.blen bs = L ∧
    (∀ i, px i = (s.coords.getD (off + i) ⟨0, 0⟩).row.toNat * s.pw.toNat + (s.coords.getD (off + i) ⟨0, 0⟩).col.toNat) ∧
    (∀ i, inside i ↔ (s.coords.getD (off + i) ⟨0, 0⟩).row.toNat < s.ph.toNat ∧
      (s.coords.getD (off + i) ⟨0, 0⟩).col.toNat < s.pw.toNat) ∧
    (encode (.scat bs xk xo)).toNat = 0x71 * 2 ^ 24 + bs * 2 ^ 20 + xk * 2 ^ 16 + xo * 2 ^ 12 ∧
    (k < 1 ∨ 8 < k → exec (.scat bs xk xo) s = .next (s.faultEntry 1 k 0)) ∧
    (1 ≤ k → k ≤ 8 → s.caps.planeCap < n → exec (.scat bs xk xo) s = .next (s.faultEntry 8 n s.caps.planeCap)) ∧
    (1 ≤ k → k ≤ 8 → n ≤ s.caps.planeCap → s.clen < off + L →
      exec (.scat bs xk xo) s = .next (s.faultEntry 8 (off + L) s.clen)) ∧
    (1 ≤ k → k ≤ 8 → n ≤ s.caps.planeCap → off + L ≤ s.clen → ∀ i, i < L → ¬inside i → (∀ j, j < i → inside j) →
      exec (.scat bs xk xo) s = .next (s.faultEntry 8 (off + i)
        ((s.coords.getD (off + i) ⟨0, 0⟩).row.toNat * 2 ^ 16 + (s.coords.getD (off + i) ⟨0, 0⟩).col.toNat))) ∧
    (1 ≤ k → k ≤ 8 → n ≤ s.caps.planeCap → off + L ≤ s.clen → (∀ i, i < L → inside i) → s.pl.wf → ∃ m : Memory 8,
      (∀ i, i < L → (∀ j, i < j → j < L → px j ≠ px i) → ∀ b, b < 8 →
        (m.read (px i)).getLsbD b = if b < k then ((s.readBuf bs).getD i 0).getLsbD b else (s.pl.read (px i)).getLsbD b) ∧
      (∀ a, (∀ i, i < L → px i ≠ a) → m.read a = s.pl.read a) ∧
      exec (.scat bs xk xo) s = .next ({ s with pl := m } : State).advance)

/-- GATH reads the low `k` bits of the pixels its window of `C` names into a buffer; the checks are SCAT's, then the buffer's
capacity (rule R245). -/
def Obligations.GatherCommand : Prop :=
  ∀ (bd : Buf) (xk xo xn : Reg) (s : State), ∃ (k n off cnt : Nat) (px : Nat → Nat) (inside : Nat → Prop),
    (s.readReg xk).toNat = k ∧ s.ph.toNat * s.pw.toNat = n ∧ (s.readReg xo).toNat = off ∧ (s.readReg xn).toNat = cnt ∧
    (∀ i, px i = (s.coords.getD (off + i) ⟨0, 0⟩).row.toNat * s.pw.toNat + (s.coords.getD (off + i) ⟨0, 0⟩).col.toNat) ∧
    (∀ i, inside i ↔ (s.coords.getD (off + i) ⟨0, 0⟩).row.toNat < s.ph.toNat ∧
      (s.coords.getD (off + i) ⟨0, 0⟩).col.toNat < s.pw.toNat) ∧
    (encode (.gath bd xk xo xn)).toNat =
      0x72 * 2 ^ 24 + bd * 2 ^ 20 + xk * 2 ^ 16 + xo * 2 ^ 12 + xn * 2 ^ 8 ∧
    (k < 1 ∨ 8 < k → exec (.gath bd xk xo xn) s = .next (s.faultEntry 1 k 0)) ∧
    (1 ≤ k → k ≤ 8 → s.caps.planeCap < n → exec (.gath bd xk xo xn) s = .next (s.faultEntry 8 n s.caps.planeCap)) ∧
    (1 ≤ k → k ≤ 8 → n ≤ s.caps.planeCap → s.clen < off + cnt →
      exec (.gath bd xk xo xn) s = .next (s.faultEntry 8 (off + cnt) s.clen)) ∧
    (1 ≤ k → k ≤ 8 → n ≤ s.caps.planeCap → off + cnt ≤ s.clen → ∀ i, i < cnt → ¬inside i → (∀ j, j < i → inside j) →
      exec (.gath bd xk xo xn) s = .next (s.faultEntry 8 (off + i)
        ((s.coords.getD (off + i) ⟨0, 0⟩).row.toNat * 2 ^ 16 + (s.coords.getD (off + i) ⟨0, 0⟩).col.toNat))) ∧
    (1 ≤ k → k ≤ 8 → n ≤ s.caps.planeCap → off + cnt ≤ s.clen → (∀ i, i < cnt → inside i) → s.caps.bufCap < cnt →
      exec (.gath bd xk xo xn) s = .next (s.faultEntry 9 cnt s.caps.bufCap)) ∧
    (1 ≤ k → k ≤ 8 → n ≤ s.caps.planeCap → off + cnt ≤ s.clen → (∀ i, i < cnt → inside i) → cnt ≤ s.caps.bufCap →
      ∃ L : List Byte, L.length = cnt ∧
        (∀ i b, i < cnt → b < 8 → (L.getD i 0).getLsbD b = (decide (b < k) && (s.pl.read (px i)).getLsbD b)) ∧
        exec (.gath bd xk xo xn) s = .next (s.setBuf bd L).advance)

/-- EMBED: the six checks in order, then the reference plane takes the old pixels and the working plane the header bits in
the first slots of the permutation, the payload's groups in the next, each corrected at depths above 1, and its old value
everywhere else (rules R246, R248). The premise is the canonical form the invariant keeps. -/
def Obligations.EmbedCommand : Prop :=
  ∀ (bs bf bp : Buf) (xl xf : Reg) (s : State),
    ∃ (lsb n : Nat) (payload : List Byte) (hb : List Bool) (G : List Byte) (slot : Nat → Nat) (corrected : Byte → Byte → Byte),
    (s.readReg xl).toNat = lsb ∧ s.ph.toNat * s.pw.toNat = n ∧
    payload = (adopt Config.deflateFn (s.readBuf bs) ((s.readReg xf).getLsbD 0)).1 ∧
    hb = headerEncode payload (s.readBuf bf) lsb (adopt Config.deflateFn (s.readBuf bs) ((s.readReg xf).getLsbD 0)).2 ∧
    G = bytesToGroups payload lsb ∧
    (∀ i, slot i = ((permuteAll s.ph.toNat s.pw.toNat (s.readBuf bp)).getD i ⟨0, 0⟩).index s.pw.toNat) ∧
    (∀ q p, corrected q p = if 1 < lsb then adjust1 q p lsb else q) ∧
    (encode (.embed bs bf bp xl xf)).toNat =
      0x73 * 2 ^ 24 + bs * 2 ^ 20 + bf * 2 ^ 16 + bp * 2 ^ 12 + xl * 2 ^ 8 + xf * 2 ^ 4 ∧
    (lsb < 1 ∨ 8 < lsb → exec (.embed bs bf bp xl xf) s = .next (s.faultEntry 1 lsb 0)) ∧
    (1 ≤ lsb → lsb ≤ 8 → (s.readReg xf).getLsbD 1 = true →
      exec (.embed bs bf bp xl xf) s = .next (s.faultEntry 2 0 0)) ∧
    (1 ≤ lsb → lsb ≤ 8 → (s.readReg xf).getLsbD 1 = false → s.caps.planeCap < n →
      exec (.embed bs bf bp xl xf) s = .next (s.faultEntry 8 n s.caps.planeCap)) ∧
    (1 ≤ lsb → lsb ≤ 8 → (s.readReg xf).getLsbD 1 = false → n ≤ s.caps.planeCap → 2 ^ 31 - 1 < payload.length →
      exec (.embed bs bf bp xl xf) s = .next (s.faultEntry 11 payload.length (2 ^ 31 - 1))) ∧
    (1 ≤ lsb → lsb ≤ 8 → (s.readReg xf).getLsbD 1 = false → n ≤ s.caps.planeCap → payload.length ≤ 2 ^ 31 - 1 →
      255 < s.blen bf → exec (.embed bs bf bp xl xf) s = .next (s.faultEntry 8 (s.blen bf) 255)) ∧
    (1 ≤ lsb → lsb ≤ 8 → (s.readReg xf).getLsbD 1 = false → n ≤ s.caps.planeCap → payload.length ≤ 2 ^ 31 - 1 →
      s.blen bf ≤ 255 → n < hb.length + G.length →
      exec (.embed bs bf bp xl xf) s = .next (s.faultEntry 3 (hb.length + G.length) n)) ∧
    (1 ≤ lsb → lsb ≤ 8 → (s.readReg xf).getLsbD 1 = false → n ≤ s.caps.planeCap → payload.length ≤ 2 ^ 31 - 1 →
      s.blen bf ≤ 255 → hb.length + G.length ≤ n → s.pl.wf → s.rf.wf → ∃ pl rf : Memory 8,
        (∀ i, i < n → rf.read i = s.pl.read i) ∧ (∀ i, n ≤ i → rf.read i = s.rf.read i) ∧
        (∀ i, i < hb.length → pl.read (slot i) =
          corrected (subst (s.pl.read (slot i)) (if hb.getD i false then 1 else 0) 1) (s.pl.read (slot i))) ∧
        (∀ j, j < G.length → pl.read (slot (hb.length + j)) =
          corrected (subst (s.pl.read (slot (hb.length + j))) (G.getD j 0) lsb) (s.pl.read (slot (hb.length + j)))) ∧
        (∀ a, (∀ i, i < hb.length + G.length → slot i ≠ a) → pl.read a = s.pl.read a) ∧
        exec (.embed bs bf bp xl xf) s = .next ({ s with pl := pl, rf := rf } : State).advance)

/-- EXTRACT: the plane's size first, then what `ExtractPlane` raises, then the two capacities; on success the data, the
filename and the five numbers, the plane unchanged (rule R250). What `ExtractPlane` raises, and in which order, is
`ExtractPlaneFailsInOrder`. -/
def Obligations.ExtractCommand : Prop :=
  ∀ (bd bf bp : Buf) (xd : Base5) (s : State), ∃ (n : Nat) (R : Except Fault ExtractRecord),
    s.ph.toNat * s.pw.toNat = n ∧ R = extractPlane (s.pl.readAll n) s.ph.toNat s.pw.toNat (s.readBuf bp) ∧
    (encode (.extract bd bf bp xd)).toNat =
      0x74 * 2 ^ 24 + bd * 2 ^ 20 + bf * 2 ^ 16 + bp * 2 ^ 12 + xd * 2 ^ 8 ∧
    (s.caps.planeCap < n → exec (.extract bd bf bp xd) s = .next (s.faultEntry 8 n s.caps.planeCap)) ∧
    (n ≤ s.caps.planeCap → ∀ f, R = .error f →
      ((∃ u v, f = .headerTruncated u v) ∨ (∃ u v, f = .integrityFailure u v) ∨ ∃ u, f = .inflateError u) ∧
      exec (.extract bd bf bp xd) s = .next (s.takeFault f)) ∧
    (n ≤ s.caps.planeCap → ∀ e, R = .ok e →
      (s.caps.bufCap < e.out.length →
        exec (.extract bd bf bp xd) s = .next (s.faultEntry 9 e.out.length s.caps.bufCap)) ∧
      (e.out.length ≤ s.caps.bufCap → s.caps.bufCap < e.filename.length →
        exec (.extract bd bf bp xd) s = .next (s.faultEntry 9 e.filename.length s.caps.bufCap)) ∧
      (e.out.length ≤ s.caps.bufCap → e.filename.length ≤ s.caps.bufCap →
        exec (.extract bd bf bp xd) s = .next (((s.setBuf bd e.out).setBuf bf e.filename).writeRegs5 xd
          (BitVec.ofNat 32 e.payloadLength) (BitVec.ofNat 32 e.lsb) (if e.flag then 1 else 0) e.crc
          (BitVec.ofNat 32 e.headerBitLength)).advance))

/-- What was embedded in a plane is extracted from it, under every compressor that meets its law: the secret, the filename,
the depth, and the adoption's flag and length (rule R251 item 1). -/
def Obligations.EmbedExtractRoundTrip : Prop :=
  ∀ (D : List Byte → List Byte) (P : List Byte) (H W : Nat) (secret filename password : List Byte) (lsb : Nat)
    (req : Bool) (Q : List Byte), LawfulCompressor D → H < 2 ^ 16 → W < 2 ^ 16 → P.length = H * W →
    filename.length ≤ 255 → 1 ≤ lsb → lsb ≤ 8 → embedPlane D P H W secret filename password lsb req = .ok Q →
    extractPlane Q H W password = .ok {
      out := secret
      filename := filename
      payloadLength := (adopt D secret req).1.length
      lsb := lsb
      flag := (adopt D secret req).2
      crc := crc32 (adopt D secret req).1
      headerBitLength := 49 + bitlen (adopt D secret req).1.length + 8 * filename.length }

/-- One flipped bit of the payload in the embedded plane, padding bits apart, makes the extraction fail with
`IntegrityFailure`, the stored checksum and another one (rule R251 item 3). -/
def Obligations.FlippedPayloadBitIsCaught : Prop :=
  ∀ (D : List Byte → List Byte) (P : List Byte) (H W : Nat) (secret filename password : List Byte) (lsb : Nat)
    (req : Bool) (Q : List Byte) (j b : Nat), H < 2 ^ 16 → W < 2 ^ 16 → P.length = H * W →
    filename.length ≤ 255 → 1 ≤ lsb → lsb ≤ 8 → embedPlane D P H W secret filename password lsb req = .ok Q →
    b < lsb → j * lsb + b < 8 * (adopt D secret req).1.length →
    ∃ a : Nat, a = ((permuteAll H W password).getD
        (49 + bitlen (adopt D secret req).1.length + 8 * filename.length + j) ⟨0, 0⟩).index W ∧
      ∃ c : Word, c ≠ crc32 (adopt D secret req).1 ∧
        extractPlane (Q.set a (Q.getD a 0 ^^^ BitVec.twoPow 8 b)) H W password =
          .error (.integrityFailure (crc32 (adopt D secret req).1).toNat c.toNat)

/-- EMBED moves each pixel by less than `2^lsb`, and changes no pixel outside the slots it needs (rule R251 item 5). -/
def Obligations.EmbedMovesPixelsLittle : Prop :=
  ∀ (D : List Byte → List Byte) (P : List Byte) (H W : Nat) (secret filename password : List Byte) (lsb : Nat)
    (req : Bool) (Q : List Byte), H < 2 ^ 16 → W < 2 ^ 16 → P.length = H * W → 1 ≤ lsb → lsb ≤ 8 →
    embedPlane D P H W secret filename password lsb req = .ok Q →
    Q.length = P.length ∧
    (∀ a, a < H * W → (((Q.getD a 0).toNat : Int) - (P.getD a 0).toNat).natAbs < 2 ^ lsb) ∧
    (∀ a, a < H * W →
      (∀ c ∈ permute H W password ((49 + bitlen (adopt D secret req).1.length + 8 * filename.length) +
        ceilDiv (8 * (adopt D secret req).1.length) lsb), c.index W ≠ a) → Q.getD a 0 = P.getD a 0)

/-- SNAP, SCAT of the header bits, SCAT of the groups and OPA leave in both planes what EMBED leaves, on buffers, coordinates
and registers that hold what EMBED computes for itself (rule R251 item 4). -/
def Obligations.LeafCommandsEqualEmbed : Prop :=
  ∀ (bs bf bp bh bg : Buf) (xl xf one zero xh : Reg) (s t u : State) (payload : List Byte) (flag : Bool),
    s.Inv → s.runState = .running → exec (.embed bs bf bp xl xf) s = .next t → t.runState = .running →
    adopt Config.deflateFn (s.readBuf bs) ((s.readReg xf).getLsbD 0) = (payload, flag) →
    u = { s with x := u.x, bufs := u.bufs, coords := u.coords } →
    u.readBuf bh = (headerEncode payload (s.readBuf bf) (s.readReg xl).toNat flag).map (fun b => if b then 1 else 0) →
    u.readBuf bg = bytesToGroups payload (s.readReg xl).toNat →
    u.coords = permute s.ph.toNat s.pw.toNat (s.readBuf bp) (u.blen bh + u.blen bg) →
    u.readReg one = 1 → u.readReg zero = 0 → u.readReg xl = s.readReg xl → (u.readReg xh).toNat = u.blen bh →
    ∃ u1 u2 u3 u4, exec .snap u = .next u1 ∧ exec (.scat bh one zero) u1 = .next u2 ∧
      exec (.scat bg xl xh) u2 = .next u3 ∧ exec (.opa xl) u3 = .next u4 ∧ u4.runState = .running ∧
      (∀ i, u4.pl.read i = t.pl.read i) ∧ (∀ i, u4.rf.read i = t.rf.read i)

/-! ### Frames -/

/-- A command that writes one register writes nothing else: no other register, no buffer, not `C`, no byte of a plane, no
control state; a check writes nothing but `cp`; or they faulted. HALT writes the run state alone (rules R9, R230, R271,
R304). -/
def Obligations.RegisterCommandsAndChecksKeepTheRest : Prop :=
  (∀ (i : Instr) (xd : Reg) (s t : State),
    ((∃ imm, i = .li xd imm) ∨ (∃ imm, i = .lui xd imm) ∨ (∃ b, i = .blen xd b) ∨ (∃ b, i = .pack xd b) ∨
      (∃ b, i = .seed xd b) ∨ (∃ b, i = .crc xd b)) → exec i s = .next t →
    (∃ f, t = s.takeFault f) ∨
    (s.FrameOffPlane t (fun r => r = xd) (fun _ => False) ∧ t.coords = s.coords)) ∧
  (∀ (i : Instr) (s t : State),
    ((∃ x, i = .vlsb x) ∨ (∃ x, i = .vfmt x) ∨ (∃ x y, i = .vcap x y) ∨ (∃ b x, i = .vcrc b x)) → exec i s = .next t →
    (∃ f, t = s.takeFault f) ∨
    (s.FrameOffPlane t (fun _ => False) (fun _ => False) ∧ t.coords = s.coords)) ∧
  (∀ s t : State, exec .halt s = .next t → t.runState = .done ∧ s = { t with runState := s.runState })

/-- A command that writes one buffer writes no register, no other buffer, not `C`, no byte of a plane and no control state;
or it faulted (rules R9, R304). -/
def Obligations.BufferCommandsKeepTheRest : Prop :=
  ∀ (i : Instr) (bd : Buf) (s t : State),
    ((∃ b x, i = .b2g bd b x) ∨ (∃ b x, i = .g2b bd b x) ∨ (∃ x, i = .unpk bd x) ∨ (∃ x y, i = .unpkw bd x y) ∨
      (∃ b, i = .defl bd b) ∨ (∃ b, i = .infl bd b) ∨ (∃ b c x y, i = .henc bd b c x y) ∨
      (∃ x y z, i = .gath bd x y z)) → exec i s = .next t →
    (∃ f, t = s.takeFault f) ∨
    (s.FrameOffPlane t (fun _ => False) (fun b => b = bd) ∧ t.coords = s.coords)

/-- CADOPT, HDEC, EXTRACT, PERM and PERML write only the buffers and registers they name, or only `C`, and no byte of a plane;
or they faulted (rules R124, R174, R175, R207, R250, R304). -/
def Obligations.MixedCommandsKeepTheRest : Prop :=
  (∀ (bd bs : Buf) (xf xq : Reg) (s t : State), exec (.cadopt bd bs xf xq) s = .next t →
    (∃ f, t = s.takeFault f) ∨ (s.FrameOffPlane t (fun r => r = xf) (fun b => b = bd) ∧ t.coords = s.coords)) ∧
  (∀ (bf bs : Buf) (xd : Base5) (s t : State), exec (.hdec bf bs xd) s = .next t →
    (∃ f, t = s.takeFault f) ∨
    (s.FrameOffPlane t (fun r => xd.val ≤ r.val ∧ r.val ≤ xd.val + 4) (fun b => b = bf) ∧ t.coords = s.coords)) ∧
  (∀ (bd bf bp : Buf) (xd : Base5) (s t : State), exec (.extract bd bf bp xd) s = .next t →
    (∃ f, t = s.takeFault f) ∨
    (s.FrameOffPlane t (fun r => xd.val ≤ r.val ∧ r.val ≤ xd.val + 4) (fun b => b = bd ∨ b = bf) ∧
      t.coords = s.coords)) ∧
  (∀ (bp : Buf) (xl : Reg) (s t : State), exec (.perm bp) s = .next t ∨ exec (.perml bp xl) s = .next t →
    (∃ f, t = s.takeFault f) ∨ s.FrameOffPlane t (fun _ => False) (fun _ => False))

/-- SNAP writes pixels of the reference plane, OPA of the working plane, EMBED of both, SCAT the pixels its window of `C`
names; every other byte, every register, buffer and coordinate stands, or they faulted (rules R192, R241, R243, R248,
R304). The premise is the canonical form the invariant keeps. -/
def Obligations.PlaneCommandsKeepTheRest : Prop :=
  ∀ s t : State, s.pl.wf → s.rf.wf →
    (exec .snap s = .next t →
      (∃ f, t = s.takeFault f) ∨ s.FrameOnPlane t (fun _ => False) (fun i => i < s.ph.toNat * s.pw.toNat)) ∧
    (∀ xk, exec (.opa xk) s = .next t →
      (∃ f, t = s.takeFault f) ∨ s.FrameOnPlane t (fun i => i < s.ph.toNat * s.pw.toNat) (fun _ => False)) ∧
    (∀ bs bf bp xl xf, exec (.embed bs bf bp xl xf) s = .next t →
      (∃ f, t = s.takeFault f) ∨
      s.FrameOnPlane t (fun i => i < s.ph.toNat * s.pw.toNat) (fun i => i < s.ph.toNat * s.pw.toNat)) ∧
    (∀ bs xk xo, exec (.scat bs xk xo) s = .next t →
      (∃ f, t = s.takeFault f) ∨
      s.FrameOnPlane t (fun i => ∃ c ∈ s.window (s.readReg xo).toNat (s.blen bs), c.index s.pw.toNat = i)
        (fun _ => False))

/-! ### What EXTRACT computes -/

/-- The steps of `ExtractPlane` and their failures, in order: the candidate header is the lowest bits of the first 2121
permuted pixels, or of all; a header that ends inside a field; a payload past the end of the plane, with `2^32` for the
recomputed checksum; a checksum that differs; a payload flagged as compressed that does not inflate; else the record
(rule R249). -/
def Obligations.ExtractPlaneFailsInOrder : Prop :=
  ∀ (P : List Byte) (H W : Nat) (password : List Byte), ∃ (slot : Nat → Nat) (cand : List Bool),
    (∀ i, slot i = ((permuteAll H W password).getD i ⟨0, 0⟩).index W) ∧
    cand.length = min 2121 (H * W) ∧ (∀ i, i < cand.length → cand.getD i false = (P.getD (slot i) 0).getLsbD 0) ∧
    (∀ e, headerDecode cand = .error e →
      extractPlane P H W password = .error (.headerTruncated e.needed e.available)) ∧
    (∀ h, headerDecode cand = .ok h → ∃ (ng : Nat) (G data : List Byte),
      h.headerBitLength ≤ cand.length ∧ ng = ceilDiv (8 * h.payloadLength) h.lsb ∧
      (H * W < h.headerBitLength + ng →
        extractPlane P H W password = .error (.integrityFailure h.crc.toNat (2 ^ 32))) ∧
      (h.headerBitLength + ng ≤ H * W →
        G.length = ng ∧
        (∀ j b, j < ng → b < 8 → (G.getD j 0).getLsbD b =
          (decide (b < h.lsb) && (P.getD (slot (h.headerBitLength + j)) 0).getLsbD b)) ∧
        data.length = h.payloadLength ∧ (∀ p, p < 8 * h.payloadLength → bitAt data p = groupBitAt G h.lsb p) ∧
        (crc32 data ≠ h.crc →
          extractPlane P H W password = .error (.integrityFailure h.crc.toNat (crc32 data).toNat)) ∧
        (crc32 data = h.crc → h.flag = true → inflate data = none →
          extractPlane P H W password = .error (.inflateError h.payloadLength)) ∧
        (∀ out, crc32 data = h.crc → (if h.flag = true then inflate data = some out else out = data) →
          extractPlane P H W password = .ok {
            out := out
            filename := h.filename
            payloadLength := h.payloadLength
            lsb := h.lsb
            flag := h.flag
            crc := h.crc
            headerBitLength := h.headerBitLength })))
end

