-- ==== Sys2Proof/Laws/Bits.lean ====
section
/-! SUPPORT. The laws of `Val`, `BitsOf` and the bit sequences (rules R8, R100 to R104). -/

namespace Sys2Proof.Machine

/-! ### Val and BitsOf (rule R8) -/

@[simp] theorem val_nil : val [] = 0 := rfl

theorem val_cons (b : Bool) (bs : List Bool) : val (b :: bs) = b.toNat + 2 * val bs := rfl

@[simp] theorem length_bitsOf (v w : Nat) : (bitsOf v w).length = w := by
  induction w generalizing v with
  | zero => rfl
  | succ w ih => simp [bitsOf, ih]

/-- Element `i` of `BitsOf(v, w)` is bit `i` of `v`. -/
theorem getElem_bitsOf (v w i : Nat) (h : i < (bitsOf v w).length) : (bitsOf v w)[i] = v.testBit i := by
  induction w generalizing v i with
  | zero => simp at h
  | succ w ih =>
    cases i with
    | zero =>
      simp only [bitsOf, List.getElem_cons_zero, Nat.testBit_zero]
      rfl
    | succ i =>
      simp only [bitsOf, List.getElem_cons_succ]
      rw [ih, Nat.testBit_succ]

/-- Bit `i` of `Val(bits)` is element `i`, and 0 past the end. -/
theorem testBit_val (bs : List Bool) (i : Nat) : (val bs).testBit i = bs.getD i false := by
  induction bs generalizing i with
  | nil => simp
  | cons b bs ih =>
    rw [val_cons]
    cases i with
    | zero => cases b <;> simp [Nat.testBit_zero]
    | succ i =>
      rw [Nat.testBit_succ, show (b.toNat + 2 * val bs) / 2 = val bs by have := Bool.toNat_lt b; omega, ih]
      simp

theorem val_lt (bs : List Bool) : val bs < 2 ^ bs.length := by
  induction bs with
  | nil => simp
  | cons b bs ih =>
    have := Bool.toNat_lt b
    simp only [val_cons, List.length_cons, Nat.pow_succ]
    omega

/-- `Val(BitsOf(v, w)) = v mod 2^w`. -/
theorem val_bitsOf (v w : Nat) : val (bitsOf v w) = v % 2 ^ w := by
  refine Nat.eq_of_testBit_eq fun i => ?_
  rw [testBit_val, Nat.testBit_mod_two_pow]
  by_cases h : i < w
  · rw [List.getD_eq_getElem _ _ (by simpa using h), getElem_bitsOf]
    simp [h]
  · rw [List.getD_eq_default _ _ (by simpa using h)]
    simp [h]

/-- `BitsOf(Val(bits), len(bits)) = bits`. -/
theorem bitsOf_val (bs : List Bool) : bitsOf (val bs) bs.length = bs := by
  refine List.ext_getElem (by simp) fun i h1 h2 => ?_
  rw [getElem_bitsOf, testBit_val, List.getD_eq_getElem]

/-! ### Sequences of bytes as bits (rule R100) -/

@[simp] theorem length_bytesToBits (S : List Byte) : (bytesToBits S).length = 8 * S.length := by
  induction S with
  | nil => rfl
  | cons b S ih =>
    simp only [bytesToBits, List.flatMap_cons, List.length_append, length_bitsOf, List.length_cons] at ih ⊢
    omega

@[simp] theorem bytesToBits_nil : bytesToBits [] = [] := rfl

theorem bytesToBits_cons (b : Byte) (S : List Byte) : bytesToBits (b :: S) = bitsOf b.toNat 8 ++ bytesToBits S := rfl

theorem bytesToBits_append (S T : List Byte) : bytesToBits (S ++ T) = bytesToBits S ++ bytesToBits T := by
  simp [bytesToBits]

/-! ### Groups (rules R101, R102) -/

@[simp] theorem length_chunks (g m : Nat) (bits : List Bool) : (chunks g m bits).length = m := by
  induction m generalizing bits with
  | zero => rfl
  | succ m ih => simp [chunks, ih]

/-- Chunk `i` is `g` elements from position `i * g`. -/
theorem getElem_chunks (g m : Nat) (bits : List Bool) (i : Nat) (h : i < (chunks g m bits).length) :
    (chunks g m bits)[i] = (bits.drop (i * g)).take g := by
  induction m generalizing bits i with
  | zero => simp at h
  | succ m ih =>
    cases i with
    | zero => simp [chunks]
    | succ i =>
      simp only [chunks, List.getElem_cons_succ]
      rw [ih, List.drop_drop, show g + i * g = (i + 1) * g by rw [Nat.succ_mul, Nat.add_comm]]

@[simp] theorem length_padTo (n : Nat) (bits : List Bool) : (padTo n bits).length = max n bits.length := by
  simp only [padTo, List.length_append, List.length_replicate]
  omega

/-- Padding appends zero bits: every position reads as before, past the end as 0. -/
theorem getD_padTo (n : Nat) (bits : List Bool) (i : Nat) : (padTo n bits).getD i false = bits.getD i false := by
  by_cases h : i < bits.length
  · simp [padTo, List.getD_eq_getElem?_getD, List.getElem?_append, h]
  · rw [List.getD_eq_default bits false (by omega), padTo, List.getD_eq_getElem?_getD, List.getElem?_append,
      if_neg h, List.getElem?_replicate]
    split <;> rfl

@[simp] theorem length_bytesToGroups (S : List Byte) (g : Nat) :
    (bytesToGroups S g).length = ceilDiv (8 * S.length) g := by
  simp [bytesToGroups]

@[simp] theorem length_groupsToBytes (G : List Byte) (g : Nat) :
    (groupsToBytes G g).length = ceilDiv (G.length * g) 8 := by
  simp [groupsToBytes]

/-- `ceil(a / b)` is the least number of `b`s that cover `a`. -/
theorem le_ceilDiv_mul (a : Nat) {b : Nat} (hb : 0 < b) : a ≤ ceilDiv a b * b := by
  have := Nat.div_add_mod (a + b - 1) b
  have := Nat.mod_lt (a + b - 1) hb
  rw [ceilDiv, Nat.mul_comm]
  omega

theorem ceilDiv_mul_lt (a : Nat) {b : Nat} (hb : 0 < b) : ceilDiv a b * b < a + b := by
  have := Nat.div_mul_le_self (a + b - 1) b
  rw [ceilDiv]
  omega

end Sys2Proof.Machine
end

