-- ==== Sys2Proof/Laws/Decode.lean ====
section
/-! SUPPORT. The fields of an encoded word (rules R71, R74). -/

namespace Sys2Proof

/-- The number a format R word is. -/
theorem toNat_wordR {op a b c d e : Nat} (ho : op < 256) (ha : a < 16) (hb : b < 16) (hc : c < 16) (hd : d < 16)
    (he : e < 16) :
    (wordR op a b c d e).toNat = op * 2 ^ 24 + a * 2 ^ 20 + b * 2 ^ 16 + c * 2 ^ 12 + d * 2 ^ 8 + e * 2 ^ 4 := by
  rw [wordR, BitVec.toNat_ofNat]
  omega

/-- The number a format I word is. -/
theorem toNat_wordI {op rd : Nat} {imm : Half} (ho : op < 256) (hr : rd < 16) :
    (wordI op rd imm).toNat = op * 2 ^ 24 + rd * 2 ^ 20 + imm.toNat := by
  have := imm.isLt
  rw [wordI, BitVec.toNat_ofNat]
  omega

/-- The fields of a format R word. -/
theorem fieldsOf_wordR {op a b c d e : Nat} (ho : op < 256) (ha : a < 16) (hb : b < 16) (hc : c < 16) (hd : d < 16)
    (he : e < 16) :
    fieldsOf (wordR op a b c d e) = { op := op, a := a, b := b, c := c, d := d, e := e, f := 0 } := by
  have h := toNat_wordR ho ha hb hc hd he
  simp only [fieldsOf, bitsAt, h, Fields.mk.injEq]
  refine ⟨?_, ?_, ?_, ?_, ?_, ?_, ?_⟩ <;> omega

/-- The bits under the opcode of a format R word. -/
theorem bitsAt_wordR_low {op a b c d e : Nat} (ho : op < 256) (ha : a < 16) (hb : b < 16) (hc : c < 16) (hd : d < 16)
    (he : e < 16) :
    bitsAt (wordR op a b c d e) 0 24 = a * 2 ^ 20 + b * 2 ^ 16 + c * 2 ^ 12 + d * 2 ^ 8 + e * 2 ^ 4 := by
  simp only [bitsAt, toNat_wordR ho ha hb hc hd he]
  omega

/-- The fields a format I command uses. -/
theorem fieldsOf_wordI {op rd : Nat} {imm : Half} (ho : op < 256) (hr : rd < 16) :
    (fieldsOf (wordI op rd imm)).op = op ∧ (fieldsOf (wordI op rd imm)).a = rd ∧
    (fieldsOf (wordI op rd imm)).b = 0 := by
  have h := toNat_wordI (imm := imm) ho hr
  have := imm.isLt
  simp only [fieldsOf, bitsAt, h]
  refine ⟨?_, ?_, ?_⟩ <;> omega

/-- The immediate of a format I word. -/
theorem immOf_wordI {op rd : Nat} {imm : Half} (ho : op < 256) (hr : rd < 16) : immOf (wordI op rd imm) = imm := by
  have h := toNat_wordI (imm := imm) ho hr
  have := imm.isLt
  apply BitVec.eq_of_toNat_eq
  simp only [immOf, bitsAt, h, BitVec.toNat_ofNat]
  omega

/-- A register field reads back the register written to it. -/
@[simp] theorem regField_val (r : Reg) : regField r.val = r := Fin.ext (Nat.mod_eq_of_lt r.isLt)

/-- A buffer field reads back the buffer written to it. -/
@[simp] theorem bufField_val (b : Buf) : bufField b.val = .ok b := by
  simp [bufField]

/-- A base field reads back the base written to it. -/
@[simp] theorem baseField_val (b : Base5) : baseField b.val = .ok b := by
  simp [baseField]

/-- A buffer field is legal exactly when it holds less than 4. -/
theorem bufField_eq_ok {v : Nat} {b : Buf} : bufField v = .ok b ↔ v = b.val := by
  unfold bufField
  split
  · rename_i h
    simp [Fin.ext_iff]
  · rename_i h
    simp only [reduceCtorEq, false_iff]
    omega

/-- A base field is legal exactly when it holds less than 12. -/
theorem baseField_eq_ok {v : Nat} {b : Base5} : baseField v = .ok b ↔ v = b.val := by
  unfold baseField
  split
  · rename_i h
    simp [Fin.ext_iff]
  · rename_i h
    simp only [reduceCtorEq, false_iff]
    omega

/-- The unused fields pass exactly when all are 0. -/
theorem unusedZero_eq_ok {vs : List Nat} {u : Unit} : unusedZero vs = .ok u ↔ ∀ v ∈ vs, v = 0 := by
  by_cases h : ∀ v ∈ vs, v = 0
  · simp [unusedZero]
  · have : ¬(vs.all (· == 0) = true) := by simpa using h
    simp only [unusedZero, if_neg this, reduceCtorEq, h]

end Sys2Proof
end

