-- ==== Sys2Proof/Laws/Inflate.lean ====
section
/-! SUPPORT. What the readers of `Inflate` answer, and a compressor that meets the law of rule R121: the one that only
stores (rule R127). It shows that the law is met by something. -/

namespace Sys2Proof.Machine

/-- `NeedBits(n)`: the value of the next `n` bits, and the rest, exactly when there are `n` (rule R125). -/
theorem needBits_eq (n : Nat) (bs : List Bool) :
    needBits n bs = if n ≤ bs.length then some (val (bs.take n), bs.drop n) else none := by
  induction n generalizing bs with
  | zero => simp [needBits]
  | succ n ih =>
    cases bs with
    | nil => simp [needBits]
    | cons b bs =>
      simp only [needBits, ih, List.length_cons, Nat.add_le_add_iff_right]
      split <;> simp [val_cons]

/-- Reading the bits of a number of `n` bits. -/
theorem needBits_bitsOf (n v : Nat) (h : v < 2 ^ n) (bs : List Bool) :
    needBits n (bitsOf v n ++ bs) = some (v, bs) := by
  simp [needBits_eq, val_bitsOf, Nat.mod_eq_of_lt h]

/-- Reading the bytes of a sequence (rule R127). -/
theorem takeBytes_bytesToBits (S : List Byte) (bs : List Bool) (out : List Byte) :
    takeBytes S.length (bytesToBits S ++ bs) out = some (S.reverse ++ out, bs) := by
  induction S generalizing out with
  | nil => simp [takeBytes]
  | cons b S ih =>
    simp only [List.length_cons, takeBytes, bytesToBits_cons, List.append_assoc]
    rw [needBits_bitsOf 8 _ b.isLt]
    simp [ih]

/-! ### The storing compressor -/

/-- The header of a stored block of `n` bytes: the type byte, `LEN`, `NLEN`, least significant byte first (rule R127). -/
def storedHeader (final : Bool) (n : Nat) : List Byte :=
  [if final then 1 else 0, BitVec.ofNat 8 n, BitVec.ofNat 8 (n / 256), BitVec.ofNat 8 (65535 - n),
    BitVec.ofNat 8 ((65535 - n) / 256)]

/-- `n` full stored blocks of 65535 bytes, and a final one of what is left. -/
def storedBlocks : Nat → List Byte → List Byte
  | 0, S => storedHeader true S.length ++ S
  | n + 1, S => storedHeader false 65535 ++ S.take 65535 ++ storedBlocks n (S.drop 65535)

/-- The compressor that only stores. -/
def storedDeflate (S : List Byte) : List Byte := storedBlocks (S.length / 65535) S

theorem bitsOf_split (v m n : Nat) : bitsOf v (m + n) = bitsOf v m ++ bitsOf (v / 2 ^ m) n := by
  induction m generalizing v with
  | zero => simp [bitsOf]
  | succ m ih =>
    rw [show m + 1 + n = m + n + 1 by omega]
    simp only [bitsOf, ih, List.cons_append, Nat.div_div_eq_div_mul]
    rw [show 2 ^ (m + 1) = 2 * 2 ^ m by rw [Nat.pow_succ, Nat.mul_comm]]

/-- A bit sequence of a number depends on the number modulo its width. -/
theorem bitsOf_mod (v w : Nat) : bitsOf (v % 2 ^ w) w = bitsOf v w := by
  rw [← val_bitsOf]
  simpa using bitsOf_val (bitsOf v w)

/-- The bits of a stored block's header: the final bit, type 0, five bits to skip, the two lengths. -/
theorem bytesToBits_storedHeader (final : Bool) (n : Nat) :
    bytesToBits (storedHeader final n) =
      bitsOf final.toNat 1 ++ (bitsOf 0 2 ++ (List.replicate 5 false ++ (bitsOf n 16 ++ bitsOf (65535 - n) 16))) := by
  have two : ∀ v, bitsOf v 16 = bitsOf (v % 2 ^ 8) 8 ++ bitsOf (v / 256 % 2 ^ 8) 8 := fun v => by
    rw [bitsOf_mod, bitsOf_mod]
    exact bitsOf_split v 8 8
  rw [two n, two (65535 - n)]
  simp only [storedHeader, bytesToBits_cons, bytesToBits_nil, BitVec.toNat_ofNat, List.append_nil]
  cases final <;> simp [bitsOf, List.replicate]

theorem xor_ones {n : Nat} (h : n < 65536) : (65535 - n) ^^^ 0xFFFF = n := by
  refine Nat.eq_of_testBit_eq fun i => ?_
  rw [Nat.testBit_xor, show 65535 - n = 2 ^ 16 - (n + 1) by omega, Nat.testBit_two_pow_sub_succ h,
    show (0xFFFF : Nat) = 2 ^ 16 - 1 by rfl, Nat.testBit_two_pow_sub_one]
  by_cases hi : i < 16
  · simp [hi]
  · have hp : 2 ^ 16 ≤ 2 ^ i := Nat.pow_le_pow_right (by decide) (by omega)
    have : n.testBit i = false := Nat.testBit_lt_two_pow (Nat.lt_of_lt_of_le h hp)
    simp [hi, this]

/-- Reading a stored block of whole bytes followed by whole bytes. -/
theorem storedBlock_stored (S R : List Byte) (h : S.length < 65536) (out : List Byte) :
    storedBlock (List.replicate 5 false ++
      (bitsOf S.length 16 ++ bitsOf (65535 - S.length) 16 ++ (bytesToBits S ++ bytesToBits R))) out =
      some (S.reverse ++ out, bytesToBits R) := by
  have hl : (List.replicate 5 false ++ (bitsOf S.length 16 ++ bitsOf (65535 - S.length) 16 ++
      (bytesToBits S ++ bytesToBits R))).length % 8 = 5 := by
    simp only [List.length_append, List.length_replicate, length_bitsOf, length_bytesToBits]
    omega
  have hd : (List.replicate 5 false ++ (bitsOf S.length 16 ++ bitsOf (65535 - S.length) 16 ++
      (bytesToBits S ++ bytesToBits R))).drop 5 =
      bitsOf S.length 16 ++ (bitsOf (65535 - S.length) 16 ++ (bytesToBits S ++ bytesToBits R)) := by
    simp [List.append_assoc]
  rw [storedBlock, hl, hd, needBits_bitsOf 16 _ h]
  simp only [Option.bind_eq_bind, Option.bind_some]
  rw [needBits_bitsOf 16 _ (by omega)]
  simp only [Option.bind_some, xor_ones h, if_true]
  exact takeBytes_bytesToBits S (bytesToBits R) out

/-- One stored block of the block loop. -/
theorem inflateBlocks_stored (final : Bool) (S R : List Byte) (h : S.length < 65536) (fuel : Nat) (out : List Byte) :
    inflateBlocks (fuel + 1) (bytesToBits (storedHeader final S.length ++ S ++ R)) out =
      if final then some (S.reverse ++ out).reverse else inflateBlocks fuel (bytesToBits R) (S.reverse ++ out) := by
  rw [bytesToBits_append, bytesToBits_append, bytesToBits_storedHeader]
  simp only [List.append_assoc, inflateBlocks]
  rw [needBits_bitsOf 1 _ (by cases final <;> decide)]
  simp only
  rw [needBits_bitsOf 2 _ (by decide)]
  simp only [inflateBlock]
  have := storedBlock_stored S R h out
  simp only [List.append_assoc] at this
  rw [this]
  cases final <;> simp

theorem inflateBlocks_storedBlocks (n : Nat) (S : List Byte) (h : S.length < 65536 * (n + 1) - n) (hn : n * 65535 ≤ S.length)
    (fuel : Nat) (out : List Byte) :
    inflateBlocks (fuel + n + 1) (bytesToBits (storedBlocks n S)) out = some (out.reverse ++ S) := by
  induction n generalizing S fuel out with
  | zero =>
    have := inflateBlocks_stored true S [] (by omega) fuel out
    simpa [storedBlocks] using this
  | succ n ih =>
    have left : ∀ k, k = S.length - 65535 → k < 65536 * (n + 1) - n ∧ n * 65535 ≤ k := by
      intro k hk
      omega
    have hlen : (S.take 65535).length = 65535 := by
      rw [List.length_take]
      omega
    have := inflateBlocks_stored false (S.take 65535) (storedBlocks n (S.drop 65535)) (by omega) (fuel + n + 1) out
    rw [hlen] at this
    rw [storedBlocks, show fuel + (n + 1) + 1 = fuel + n + 1 + 1 by omega, this]
    simp only [Bool.false_eq_true, if_false]
    rw [ih (S.drop 65535) (left _ List.length_drop).1 (left _ List.length_drop).2]
    simp

/-- The storing compressor meets the law of rule R121, so the law is met by something. -/
theorem storedDeflate_lawful : LawfulCompressor storedDeflate := by
  intro S
  have hlen : ∀ n (T : List Byte), n ≤ (storedBlocks n T).length := by
    intro n
    induction n with
    | zero => intro T; exact Nat.zero_le _
    | succ n ih =>
      intro T
      have := ih (T.drop 65535)
      simp only [storedBlocks, List.length_append, storedHeader, List.length_cons]
      omega
  have h1 := hlen (S.length / 65535) S
  have := inflateBlocks_storedBlocks (S.length / 65535) S (by omega) (by omega)
    (8 * (storedBlocks (S.length / 65535) S).length - S.length / 65535) []
  rw [show 8 * (storedBlocks (S.length / 65535) S).length - S.length / 65535 + S.length / 65535 + 1 =
    8 * (storedBlocks (S.length / 65535) S).length + 1 by omega] at this
  simpa [inflate, storedDeflate] using this

end Sys2Proof.Machine
end

