-- ==== Sys2Proof/Laws/Memory.lean ====
section
/-! SUPPORT. The laws of a memory space: a read after a write, and that every operation keeps the canonical form and the
bound of the space (rules R9, R50, R57, R59). -/

namespace Sys2Proof.Machine

variable {w : Nat}

@[simp] theorem Memory.read_nil (i : Nat) : Memory.read ([] : Memory w) i = blankCell w := rfl

theorem Memory.wf_nil : Memory.wf ([] : Memory w) := ⟨List.Pairwise.nil, fun _ h => nomatch h⟩

theorem Memory.below_nil (cap : Nat) : Memory.below ([] : Memory w) cap := fun _ h => nomatch h

theorem Memory.read_cons (a : Nat) (v : BitVec w) (m : Memory w) (i : Nat) :
    Memory.read ((a, v) :: m) i = if a = i then v else Memory.read m i := rfl

/-- An index below every listed one reads as an unlisted index does. -/
theorem Memory.read_of_lt {m : Memory w} {i : Nat} (h : ∀ p ∈ m, i < p.1) : m.read i = blankCell w := by
  induction m with
  | nil => rfl
  | cons p m ih =>
    have h1 := h p List.mem_cons_self
    have h2 := ih fun q hq => h q (List.mem_cons_of_mem _ hq)
    obtain ⟨a, v⟩ := p
    rw [Memory.read_cons, if_neg (by simp only at h1; omega), h2]

/-- An index of no listed element reads as an unlisted index does. -/
theorem Memory.read_of_below {m : Memory w} {cap i : Nat} (h : m.below cap) (hi : cap ≤ i) :
    m.read i = blankCell w := by
  induction m with
  | nil => rfl
  | cons p m ih =>
    have h1 := h p List.mem_cons_self
    have h2 := ih fun q hq => h q (List.mem_cons_of_mem _ hq)
    obtain ⟨a, v⟩ := p
    rw [Memory.read_cons, if_neg (by simp only at h1; omega), h2]

theorem Memory.wf_cons {p : Nat × BitVec w} {m : Memory w} :
    Memory.wf (p :: m) ↔ ((∀ q ∈ m, p.1 < q.1) ∧ p.2 ≠ blankCell w) ∧ m.wf := by
  simp only [Memory.wf, List.pairwise_cons, List.forall_mem_cons]
  tauto

/-- What a write lists: the element written, and elements that were listed. -/
theorem Memory.mem_write {m : Memory w} {i : Nat} {v : BitVec w} {p : Nat × BitVec w} (h : p ∈ m.write i v) :
    p = (i, v) ∨ p ∈ m := by
  induction m with
  | nil =>
    simp only [Memory.write] at h
    split at h <;> simp_all
  | cons q m ih =>
    obtain ⟨a, u⟩ := q
    simp only [Memory.write] at h
    split at h
    · split at h
      · exact .inr h
      · simpa using h
    · split at h
      · split at h
        · exact .inr (List.mem_cons_of_mem _ h)
        · rcases List.mem_cons.1 h with h | h
          · exact .inl h
          · exact .inr (List.mem_cons_of_mem _ h)
      · rcases List.mem_cons.1 h with h | h
        · exact .inr (h ▸ List.mem_cons_self)
        · exact (ih h).imp id (List.mem_cons_of_mem _)

/-- A write keeps the canonical form. -/
theorem Memory.wf_write {m : Memory w} (h : m.wf) (i : Nat) (v : BitVec w) : (m.write i v).wf := by
  induction m with
  | nil =>
    simp only [Memory.write]
    split
    · exact h
    · exact ⟨List.pairwise_singleton _ _, by simpa using ‹_›⟩
  | cons q m ih =>
    obtain ⟨a, u⟩ := q
    obtain ⟨⟨h1, h2⟩, h3⟩ := Memory.wf_cons.1 h
    simp only [Memory.write]
    split
    · rename_i hlt
      split
      · exact h
      · refine Memory.wf_cons.2 ⟨⟨fun q hq => ?_, ‹_›⟩, h⟩
        rcases List.mem_cons.1 hq with rfl | hq
        · exact hlt
        · exact Nat.lt_trans hlt (h1 q hq)
    · split
      · rename_i heq
        subst heq
        split
        · exact h3
        · exact Memory.wf_cons.2 ⟨⟨h1, ‹_›⟩, h3⟩
      · refine Memory.wf_cons.2 ⟨⟨fun q hq => ?_, h2⟩, ih h3⟩
        rcases Memory.mem_write hq with rfl | hq
        · show a < i
          omega
        · exact h1 q hq

/-- A write inside the space lists nothing outside it. -/
theorem Memory.below_write {m : Memory w} {cap i : Nat} (h : m.below cap) (hi : i < cap) (v : BitVec w) :
    (m.write i v).below cap := by
  intro p hp
  rcases Memory.mem_write hp with rfl | hp
  · exact hi
  · exact h p hp

/-- A read after a write: the element written reads as the value, every other one as before. -/
theorem Memory.read_write {m : Memory w} (h : m.wf) (i : Nat) (v : BitVec w) (j : Nat) :
    (m.write i v).read j = if j = i then v else m.read j := by
  induction m with
  | nil =>
    simp only [Memory.write]
    split
    · rename_i hv
      simp [hv]
    · simp only [Memory.read_cons, Memory.read_nil, eq_comm]
  | cons q m ih =>
    obtain ⟨a, u⟩ := q
    obtain ⟨⟨h1, h2⟩, h3⟩ := Memory.wf_cons.1 h
    have below : ∀ k, k < a → Memory.read ((a, u) :: m) k = blankCell w := fun k hk =>
      Memory.read_of_lt fun p hp => by
        rcases List.mem_cons.1 hp with rfl | hp
        · exact hk
        · exact Nat.lt_trans hk (h1 p hp)
    simp only [Memory.write]
    split
    · rename_i hlt
      split
      · rename_i hv
        split
        · rename_i hj
          rw [hj, below i hlt, hv]
        · rfl
      · rw [Memory.read_cons]
        simp only [eq_comm]
    · split
      · rename_i heq
        subst heq
        split
        · rename_i hv
          split
          · rename_i hj
            rw [hj, hv]
            exact Memory.read_of_lt h1
          · rename_i hj
            rw [Memory.read_cons, if_neg (Ne.symm hj)]
        · rw [Memory.read_cons, Memory.read_cons]
          by_cases hj : j = i
          · simp [hj]
          · simp [hj, Ne.symm hj]
      · rename_i hne
        rw [Memory.read_cons, Memory.read_cons, ih h3]
        by_cases hj : a = j
        · subst hj
          simp [Ne.symm hne]
        · simp [hj]

/-! ### Sequences of elements -/

/-- Consecutive writes keep the canonical form. -/
theorem Memory.wf_writeAll {m : Memory w} (h : m.wf) (i : Nat) (vs : List (BitVec w)) : (m.writeAll i vs).wf := by
  induction vs generalizing m i with
  | nil => exact h
  | cons v vs ih => exact ih (Memory.wf_write h i v) (i + 1)

/-- Consecutive writes inside the space list nothing outside it. -/
theorem Memory.below_writeAll {m : Memory w} {cap i : Nat} {vs : List (BitVec w)} (h : m.below cap)
    (hi : i + vs.length ≤ cap) : (m.writeAll i vs).below cap := by
  induction vs generalizing m i with
  | nil => exact h
  | cons v vs ih =>
    simp only [List.length_cons] at hi
    exact ih (Memory.below_write h (by omega) v) (by omega)

/-- Consecutive writes: each element written reads as its value, every other one as before. -/
theorem Memory.read_writeAll {m : Memory w} (h : m.wf) (i : Nat) (vs : List (BitVec w)) (j : Nat) :
    (m.writeAll i vs).read j = if i ≤ j ∧ j < i + vs.length then vs.getD (j - i) (blankCell w) else m.read j := by
  induction vs generalizing m i with
  | nil =>
    rw [if_neg (by simp)]
    rfl
  | cons v vs ih =>
    simp only [Memory.writeAll, List.length_cons]
    rw [ih (Memory.wf_write h i v), Memory.read_write h]
    by_cases h1 : j = i
    · subst h1
      rw [if_neg (by omega), if_pos rfl, if_pos (by omega)]
      simp
    · by_cases h2 : i ≤ j ∧ j < i + (vs.length + 1)
      · obtain ⟨k, hk⟩ : ∃ k, j - i = k + 1 := ⟨j - i - 1, by omega⟩
        rw [if_pos (by omega), if_pos h2, show j - (i + 1) = k by omega, hk, List.getD_cons_succ]
      · rw [if_neg (by omega), if_neg h1, if_neg h2]

@[simp] theorem Memory.length_readAll (m : Memory w) (n : Nat) : (m.readAll n).length = n := by
  simp [Memory.readAll]

/-- Element `i` of the first `n` elements. -/
theorem Memory.getD_readAll (m : Memory w) {n i : Nat} (h : i < n) (d : BitVec w) :
    (m.readAll n).getD i d = m.read i := by
  simp [Memory.readAll, h]

@[simp] theorem Memory.getElem_readAll (m : Memory w) (n i : Nat) (h : i < (m.readAll n).length) :
    (m.readAll n)[i] = m.read i := by
  simp [Memory.readAll]

/-! ### Equal memories are equal data -/

/-- Two memories in canonical form that read the same everywhere are the same list. -/
theorem Memory.ext_read {m n : Memory w} (hm : m.wf) (hn : n.wf) (h : ∀ i, m.read i = n.read i) : m = n := by
  induction m generalizing n with
  | nil =>
    match n with
    | [] => rfl
    | (b, u) :: n =>
      have := h b
      rw [Memory.read_cons, if_pos rfl, Memory.read_nil] at this
      exact absurd this.symm (Memory.wf_cons.1 hn).1.2
  | cons p m ih =>
    obtain ⟨a, v⟩ := p
    obtain ⟨⟨h1, h2⟩, h3⟩ := Memory.wf_cons.1 hm
    match n with
    | [] =>
      have := h a
      rw [Memory.read_cons, if_pos rfl, Memory.read_nil] at this
      exact absurd this h2
    | (b, u) :: n =>
      obtain ⟨⟨g1, g2⟩, g3⟩ := Memory.wf_cons.1 hn
      have bl : ∀ k, k < b → Memory.read ((b, u) :: n) k = blankCell w := fun k hk =>
        Memory.read_of_lt fun p hp => by
          rcases List.mem_cons.1 hp with rfl | hp
          · exact hk
          · exact Nat.lt_trans hk (g1 p hp)
      have al : ∀ k, k < a → Memory.read ((a, v) :: m) k = blankCell w := fun k hk =>
        Memory.read_of_lt fun p hp => by
          rcases List.mem_cons.1 hp with rfl | hp
          · exact hk
          · exact Nat.lt_trans hk (h1 p hp)
      have hab : a = b := by
        rcases Nat.lt_trichotomy a b with hlt | heq | hgt
        · have := h a
          rw [bl a hlt, Memory.read_cons, if_pos rfl] at this
          exact absurd this h2
        · exact heq
        · have := h b
          rw [al b hgt, Memory.read_cons, if_pos rfl] at this
          exact absurd this.symm g2
      subst hab
      have hvu : v = u := by simpa [Memory.read_cons] using h a
      subst hvu
      congr 1
      refine ih h3 g3 fun i => ?_
      by_cases hi : a = i
      · subst hi
        rw [Memory.read_of_lt h1, Memory.read_of_lt g1]
      · simpa [Memory.read_cons, hi] using h i

end Sys2Proof.Machine
end

