-- ==== Sys2Proof/Laws/Ops.lean ====
section
/-! SUPPORT. One lemma per shared operation that says once everything it can do: a check, a write of a buffer or of `C`, a
window, the end of a command; and that every command but HALT ends through `State.finish`. -/

namespace Sys2Proof.Machine

/-! ### Sequencing -/

/-- A sequence of two computations answers a value exactly when both do. -/
theorem except_bind_eq_ok {α β : Type} {x : Except Fault α} {k : α → Except Fault β} {b : β} :
    (x >>= k) = .ok b ↔ ∃ a, x = .ok a ∧ k a = .ok b := by
  cases x <;> simp [bind, Except.bind]

/-- A sequence of two computations raises what the first raises, else what the second does. -/
theorem except_bind_eq_error {α β : Type} {x : Except Fault α} {k : α → Except Fault β} {f : Fault} :
    (x >>= k) = .error f ↔ x = .error f ∨ ∃ a, x = .ok a ∧ k a = .error f := by
  cases x <;> simp [bind, Except.bind]

@[simp] theorem except_ok_bind {α β : Type} (a : α) (k : α → Except Fault β) :
    ((Except.ok a : Except Fault α) >>= k) = k a := rfl

@[simp] theorem except_error_bind {α β : Type} (f : Fault) (k : α → Except Fault β) :
    ((Except.error f : Except Fault α) >>= k) = .error f := rfl

/-! ### Checks -/

@[simp] theorem require_of_true {c : Prop} [Decidable c] (h : c) (f : Fault) : require c f = .ok () := if_pos h

@[simp] theorem require_of_false {c : Prop} [Decidable c] (h : ¬c) (f : Fault) : require c f = .error f := if_neg h

/-- A check passes exactly when its condition holds. -/
theorem require_eq_ok {c : Prop} [Decidable c] {f : Fault} {u : Unit} : require c f = .ok u ↔ c := by
  unfold require
  split <;> simp_all

/-- A check raises its own fault, exactly when its condition fails. -/
theorem require_eq_error {c : Prop} [Decidable c] {f g : Fault} : require c f = .error g ↔ ¬c ∧ g = f := by
  unfold require
  split <;> simp_all [eq_comm]

theorem checkDepth_eq_ok {k : Nat} {u : Unit} : checkDepth k = .ok u ↔ 1 ≤ k ∧ k ≤ 8 := require_eq_ok

theorem State.checkPlane_eq_ok {s : State} {u : Unit} : s.checkPlane = .ok u ↔ s.pixels ≤ s.caps.planeCap :=
  require_eq_ok

theorem State.checkWindow_eq_ok {s : State} {off n : Nat} {u : Unit} :
    s.checkWindow off n = .ok u ↔ off + n ≤ s.clen := require_eq_ok

/-- The coordinate check passes exactly when every coordinate lies in the plane. -/
theorem State.checkInside_eq_ok {s : State} {i : Nat} {cs : List Coord} {u : Unit} :
    s.checkInside i cs = .ok u ↔ ∀ c ∈ cs, c.row.toNat < s.ph.toNat ∧ c.col.toNat < s.pw.toNat := by
  induction cs generalizing i with
  | nil => simp [State.checkInside]
  | cons c cs ih =>
    simp only [State.checkInside, List.forall_mem_cons]
    split
    · rename_i h
      rw [ih]
      exact ⟨fun g => ⟨h, g⟩, fun g => g.2⟩
    · rename_i h
      exact ⟨(nomatch ·), fun g => absurd g.1 h⟩

/-- The coordinate check raises its fault at the first coordinate outside the plane, counted from the index given. -/
theorem State.checkInside_eq_error {s : State} {i : Nat} {cs : List Coord} {f : Fault} :
    s.checkInside i cs = .error f ↔ ∃ j, ∃ h : j < cs.length,
      ¬(cs[j].row.toNat < s.ph.toNat ∧ cs[j].col.toNat < s.pw.toNat) ∧
      (∀ j', ∀ h' : j' < j, (cs[j'].row.toNat < s.ph.toNat ∧ cs[j'].col.toNat < s.pw.toNat)) ∧
      f = .operandRange (i + j) (cs[j].row.toNat * 2 ^ 16 + cs[j].col.toNat) := by
  induction cs generalizing i with
  | nil => simp [State.checkInside]
  | cons c cs ih =>
    simp only [State.checkInside]
    split
    · rename_i h
      rw [ih]
      constructor
      · rintro ⟨j, hj, h1, h2, h3⟩
        refine ⟨j + 1, by simpa using hj, by simpa using h1, fun j' hj' => ?_, ?_⟩
        · cases j' with
          | zero => simpa using h
          | succ j' => simpa using h2 j' (by omega)
        · rw [h3, show i + 1 + j = i + (j + 1) by omega]
          rfl
      · rintro ⟨j, hj, h1, h2, h3⟩
        cases j with
        | zero => exact absurd h (by simpa using h1)
        | succ j =>
          refine ⟨j, by simpa using hj, by simpa using h1, fun j' hj' => ?_, ?_⟩
          · simpa using h2 (j' + 1) (by omega)
          · rw [h3, show i + (j + 1) = i + 1 + j by omega]
            rfl
    · rename_i h
      constructor
      · intro g
        exact ⟨0, by simp, by simpa using h, fun j' hj' => absurd hj' (by omega), by simpa [eq_comm] using g⟩
      · rintro ⟨j, hj, h1, h2, h3⟩
        cases j with
        | zero => simpa [eq_comm] using h3
        | succ j => exact absurd (h2 0 (by omega)) (by simpa using h)

/-- A window of `C` holds the coordinates it names. -/
theorem State.getElem_window {s : State} {off n j : Nat} (h : j < (s.window off n).length) :
    (s.window off n)[j] = s.coords[off + j]'(by
      simp only [State.window, List.length_take, List.length_drop] at h
      omega) := by
  simp [State.window]

@[simp] theorem State.length_window (s : State) (off n : Nat) :
    (s.window off n).length = min n (s.clen - off) := by
  simp [State.window, State.clen]

/-! ### Writes -/

/-- A write of a buffer stores the sequence exactly when it fits. -/
theorem State.writeBuf_eq_ok {s t : State} {b : Buf} {l : List Byte} :
    s.writeBuf b l = .ok t ↔ l.length ≤ s.caps.bufCap ∧ t = s.setBuf b l := by
  unfold State.writeBuf
  split <;> simp_all [eq_comm]

/-- A write of a buffer that does not fit raises `BufferOverflow`. -/
theorem State.writeBuf_eq_error {s : State} {b : Buf} {l : List Byte} {f : Fault} :
    s.writeBuf b l = .error f ↔ s.caps.bufCap < l.length ∧ f = .bufferOverflow l.length s.caps.bufCap := by
  unfold State.writeBuf
  split <;> simp_all [eq_comm]

/-- A write of `C` stores the sequence exactly when it fits. -/
theorem State.writeCoords_eq_ok {s t : State} {l : List Coord} :
    s.writeCoords l = .ok t ↔ l.length ≤ s.caps.crdCap ∧ t = { s with coords := l } := by
  unfold State.writeCoords
  split <;> simp_all [eq_comm]

/-- A write of `C` that does not fit raises `BufferOverflow`. -/
theorem State.writeCoords_eq_error {s : State} {l : List Coord} {f : Fault} :
    s.writeCoords l = .error f ↔ s.caps.crdCap < l.length ∧ f = .bufferOverflow l.length s.caps.crdCap := by
  unfold State.writeCoords
  split <;> simp_all [eq_comm]

/-! ### How a command ends -/

@[simp] theorem State.finish_ok (s t : State) : s.finish (.ok t) = .next t.advance := rfl

@[simp] theorem State.finish_error (s : State) (f : Fault) : s.finish (.error f) = .next (s.takeFault f) := rfl

/-- A command that ends through `finish` either applied its writes and advanced, or entered the fault it raised. -/
theorem State.finish_eq_next {s t : State} {e : Except Fault State} :
    s.finish e = .next t ↔ (∃ u, e = .ok u ∧ t = u.advance) ∨ ∃ f, e = .error f ∧ t = s.takeFault f := by
  cases e <;> simp [State.finish, eq_comm]

/-- Every command but HALT ends through `finish`. -/
theorem exec_ends_through_finish (i : Instr) (s : State) : i = .halt ∨ ∃ e, exec i s = s.finish e := by
  cases i with
  | halt => exact .inl rfl
  | _ =>
    simp only [exec, execLi, execLui, execBlen, execSeed, execCrc]
    exact .inr ⟨_, rfl⟩

end Sys2Proof.Machine
end

