-- ==== Sys2Proof/Laws/PerInstr.lean ====
section
/-! SUPPORT. Statements about every command, made per command. -/

namespace Sys2Proof.Laws.EncodeOpcode

/-- Bits 31 to 24 of a command's word are its opcode (rules R71, R74). -/
def Statement (i : Instr) : Prop := (encode i).toNat / 2 ^ 24 = i.opcode

theorem halt : Statement (.halt) := by
  simp only [Statement, encode, Instr.opcode]
  rw [toNat_wordR (by omega) (by omega) (by omega) (by omega) (by omega) (by omega)]
  omega

theorem li (xd : Reg) (imm : Half) : Statement (.li xd imm) := by
  have h := imm.isLt
  simp only [Statement, encode, Instr.opcode]
  rw [toNat_wordI (by omega) xd.isLt]
  omega

theorem lui (xd : Reg) (imm : Half) : Statement (.lui xd imm) := by
  have h := imm.isLt
  simp only [Statement, encode, Instr.opcode]
  rw [toNat_wordI (by omega) xd.isLt]
  omega

theorem blen (xd : Reg) (bs : Buf) : Statement (.blen xd bs) := by
  have := xd.isLt
  have := bs.isLt
  simp only [Statement, encode, Instr.opcode]
  rw [toNat_wordR (by omega) (by omega) (by omega) (by omega) (by omega) (by omega)]
  omega

theorem b2g (bd bs : Buf) (xg : Reg) : Statement (.b2g bd bs xg) := by
  have := bd.isLt
  have := bs.isLt
  have := xg.isLt
  simp only [Statement, encode, Instr.opcode]
  rw [toNat_wordR (by omega) (by omega) (by omega) (by omega) (by omega) (by omega)]
  omega

theorem g2b (bd bs : Buf) (xg : Reg) : Statement (.g2b bd bs xg) := by
  have := bd.isLt
  have := bs.isLt
  have := xg.isLt
  simp only [Statement, encode, Instr.opcode]
  rw [toNat_wordR (by omega) (by omega) (by omega) (by omega) (by omega) (by omega)]
  omega

theorem pack (xd : Reg) (bs : Buf) : Statement (.pack xd bs) := by
  have := xd.isLt
  have := bs.isLt
  simp only [Statement, encode, Instr.opcode]
  rw [toNat_wordR (by omega) (by omega) (by omega) (by omega) (by omega) (by omega)]
  omega

theorem unpk (bd : Buf) (xs : Reg) : Statement (.unpk bd xs) := by
  have := bd.isLt
  have := xs.isLt
  simp only [Statement, encode, Instr.opcode]
  rw [toNat_wordR (by omega) (by omega) (by omega) (by omega) (by omega) (by omega)]
  omega

theorem unpkw (bd : Buf) (xs xw : Reg) : Statement (.unpkw bd xs xw) := by
  have := bd.isLt
  have := xs.isLt
  have := xw.isLt
  simp only [Statement, encode, Instr.opcode]
  rw [toNat_wordR (by omega) (by omega) (by omega) (by omega) (by omega) (by omega)]
  omega

theorem defl (bd bs : Buf) : Statement (.defl bd bs) := by
  have := bd.isLt
  have := bs.isLt
  simp only [Statement, encode, Instr.opcode]
  rw [toNat_wordR (by omega) (by omega) (by omega) (by omega) (by omega) (by omega)]
  omega

theorem infl (bd bs : Buf) : Statement (.infl bd bs) := by
  have := bd.isLt
  have := bs.isLt
  simp only [Statement, encode, Instr.opcode]
  rw [toNat_wordR (by omega) (by omega) (by omega) (by omega) (by omega) (by omega)]
  omega

theorem cadopt (bd bs : Buf) (xf xq : Reg) : Statement (.cadopt bd bs xf xq) := by
  have := bd.isLt
  have := bs.isLt
  have := xf.isLt
  have := xq.isLt
  simp only [Statement, encode, Instr.opcode]
  rw [toNat_wordR (by omega) (by omega) (by omega) (by omega) (by omega) (by omega)]
  omega

theorem perm (bp : Buf) : Statement (.perm bp) := by
  have := bp.isLt
  simp only [Statement, encode, Instr.opcode]
  rw [toNat_wordR (by omega) (by omega) (by omega) (by omega) (by omega) (by omega)]
  omega

theorem perml (bp : Buf) (xl : Reg) : Statement (.perml bp xl) := by
  have := bp.isLt
  have := xl.isLt
  simp only [Statement, encode, Instr.opcode]
  rw [toNat_wordR (by omega) (by omega) (by omega) (by omega) (by omega) (by omega)]
  omega

theorem seed (xd : Reg) (bp : Buf) : Statement (.seed xd bp) := by
  have := xd.isLt
  have := bp.isLt
  simp only [Statement, encode, Instr.opcode]
  rw [toNat_wordR (by omega) (by omega) (by omega) (by omega) (by omega) (by omega)]
  omega

theorem opa (xk : Reg) : Statement (.opa xk) := by
  have := xk.isLt
  simp only [Statement, encode, Instr.opcode]
  rw [toNat_wordR (by omega) (by omega) (by omega) (by omega) (by omega) (by omega)]
  omega

theorem henc (bd bs bf : Buf) (xl xc : Reg) : Statement (.henc bd bs bf xl xc) := by
  have := bd.isLt
  have := bs.isLt
  have := bf.isLt
  have := xl.isLt
  have := xc.isLt
  simp only [Statement, encode, Instr.opcode]
  rw [toNat_wordR (by omega) (by omega) (by omega) (by omega) (by omega) (by omega)]
  omega

theorem hdec (bf bs : Buf) (xd : Base5) : Statement (.hdec bf bs xd) := by
  have := bf.isLt
  have := bs.isLt
  have := xd.isLt
  simp only [Statement, encode, Instr.opcode]
  rw [toNat_wordR (by omega) (by omega) (by omega) (by omega) (by omega) (by omega)]
  omega

theorem crc (xd : Reg) (bs : Buf) : Statement (.crc xd bs) := by
  have := xd.isLt
  have := bs.isLt
  simp only [Statement, encode, Instr.opcode]
  rw [toNat_wordR (by omega) (by omega) (by omega) (by omega) (by omega) (by omega)]
  omega

theorem vlsb (xs : Reg) : Statement (.vlsb xs) := by
  have := xs.isLt
  simp only [Statement, encode, Instr.opcode]
  rw [toNat_wordR (by omega) (by omega) (by omega) (by omega) (by omega) (by omega)]
  omega

theorem vfmt (xs : Reg) : Statement (.vfmt xs) := by
  have := xs.isLt
  simp only [Statement, encode, Instr.opcode]
  rw [toNat_wordR (by omega) (by omega) (by omega) (by omega) (by omega) (by omega)]
  omega

theorem vcap (xh xp : Reg) : Statement (.vcap xh xp) := by
  have := xh.isLt
  have := xp.isLt
  simp only [Statement, encode, Instr.opcode]
  rw [toNat_wordR (by omega) (by omega) (by omega) (by omega) (by omega) (by omega)]
  omega

theorem vcrc (bs : Buf) (xs : Reg) : Statement (.vcrc bs xs) := by
  have := bs.isLt
  have := xs.isLt
  simp only [Statement, encode, Instr.opcode]
  rw [toNat_wordR (by omega) (by omega) (by omega) (by omega) (by omega) (by omega)]
  omega

theorem snap : Statement (.snap) := by
  simp only [Statement, encode, Instr.opcode]
  rw [toNat_wordR (by omega) (by omega) (by omega) (by omega) (by omega) (by omega)]
  omega

theorem scat (bs : Buf) (xk xo : Reg) : Statement (.scat bs xk xo) := by
  have := bs.isLt
  have := xk.isLt
  have := xo.isLt
  simp only [Statement, encode, Instr.opcode]
  rw [toNat_wordR (by omega) (by omega) (by omega) (by omega) (by omega) (by omega)]
  omega

theorem gath (bd : Buf) (xk xo xn : Reg) : Statement (.gath bd xk xo xn) := by
  have := bd.isLt
  have := xk.isLt
  have := xo.isLt
  have := xn.isLt
  simp only [Statement, encode, Instr.opcode]
  rw [toNat_wordR (by omega) (by omega) (by omega) (by omega) (by omega) (by omega)]
  omega

theorem embed (bs bf bp : Buf) (xl xf : Reg) : Statement (.embed bs bf bp xl xf) := by
  have := bs.isLt
  have := bf.isLt
  have := bp.isLt
  have := xl.isLt
  have := xf.isLt
  simp only [Statement, encode, Instr.opcode]
  rw [toNat_wordR (by omega) (by omega) (by omega) (by omega) (by omega) (by omega)]
  omega

theorem extract (bd bf bp : Buf) (xd : Base5) : Statement (.extract bd bf bp xd) := by
  have := bd.isLt
  have := bf.isLt
  have := bp.isLt
  have := xd.isLt
  simp only [Statement, encode, Instr.opcode]
  rw [toNat_wordR (by omega) (by omega) (by omega) (by omega) (by omega) (by omega)]
  omega

end Sys2Proof.Laws.EncodeOpcode
end

