-- ==== Sys2Proof/Laws/State.lean ====
section
/-! SUPPORT. One lemma per field per update of the state, and per derived reading, so that no proof unfolds a record
update. -/

namespace Sys2Proof.Machine

variable (s : State)

/-! ### writeReg -/

@[simp] theorem State.writeReg_x (r : Reg) (v : Word) : (s.writeReg r v).x = s.x.set r v := rfl
@[simp] theorem State.writeReg_cp (r : Reg) (v : Word) : (s.writeReg r v).cp = s.cp := rfl
@[simp] theorem State.writeReg_runState (r : Reg) (v : Word) : (s.writeReg r v).runState = s.runState := rfl
@[simp] theorem State.writeReg_ecode (r : Reg) (v : Word) : (s.writeReg r v).ecode = s.ecode := rfl
@[simp] theorem State.writeReg_einfo0 (r : Reg) (v : Word) : (s.writeReg r v).einfo0 = s.einfo0 := rfl
@[simp] theorem State.writeReg_einfo1 (r : Reg) (v : Word) : (s.writeReg r v).einfo1 = s.einfo1 := rfl
@[simp] theorem State.writeReg_epc (r : Reg) (v : Word) : (s.writeReg r v).epc = s.epc := rfl
@[simp] theorem State.writeReg_ph (r : Reg) (v : Word) : (s.writeReg r v).ph = s.ph := rfl
@[simp] theorem State.writeReg_pw (r : Reg) (v : Word) : (s.writeReg r v).pw = s.pw := rfl
@[simp] theorem State.writeReg_bufs (r : Reg) (v : Word) : (s.writeReg r v).bufs = s.bufs := rfl
@[simp] theorem State.writeReg_coords (r : Reg) (v : Word) : (s.writeReg r v).coords = s.coords := rfl
@[simp] theorem State.writeReg_pl (r : Reg) (v : Word) : (s.writeReg r v).pl = s.pl := rfl
@[simp] theorem State.writeReg_rf (r : Reg) (v : Word) : (s.writeReg r v).rf = s.rf := rfl
@[simp] theorem State.writeReg_cm (r : Reg) (v : Word) : (s.writeReg r v).cm = s.cm := rfl
@[simp] theorem State.writeReg_caps (r : Reg) (v : Word) : (s.writeReg r v).caps = s.caps := rfl

/-! ### setBuf -/

@[simp] theorem State.setBuf_x (b : Buf) (l : List Byte) : (s.setBuf b l).x = s.x := rfl
@[simp] theorem State.setBuf_cp (b : Buf) (l : List Byte) : (s.setBuf b l).cp = s.cp := rfl
@[simp] theorem State.setBuf_runState (b : Buf) (l : List Byte) : (s.setBuf b l).runState = s.runState := rfl
@[simp] theorem State.setBuf_ecode (b : Buf) (l : List Byte) : (s.setBuf b l).ecode = s.ecode := rfl
@[simp] theorem State.setBuf_einfo0 (b : Buf) (l : List Byte) : (s.setBuf b l).einfo0 = s.einfo0 := rfl
@[simp] theorem State.setBuf_einfo1 (b : Buf) (l : List Byte) : (s.setBuf b l).einfo1 = s.einfo1 := rfl
@[simp] theorem State.setBuf_epc (b : Buf) (l : List Byte) : (s.setBuf b l).epc = s.epc := rfl
@[simp] theorem State.setBuf_ph (b : Buf) (l : List Byte) : (s.setBuf b l).ph = s.ph := rfl
@[simp] theorem State.setBuf_pw (b : Buf) (l : List Byte) : (s.setBuf b l).pw = s.pw := rfl
@[simp] theorem State.setBuf_bufs (b : Buf) (l : List Byte) : (s.setBuf b l).bufs = s.bufs.set b l := rfl
@[simp] theorem State.setBuf_coords (b : Buf) (l : List Byte) : (s.setBuf b l).coords = s.coords := rfl
@[simp] theorem State.setBuf_pl (b : Buf) (l : List Byte) : (s.setBuf b l).pl = s.pl := rfl
@[simp] theorem State.setBuf_rf (b : Buf) (l : List Byte) : (s.setBuf b l).rf = s.rf := rfl
@[simp] theorem State.setBuf_cm (b : Buf) (l : List Byte) : (s.setBuf b l).cm = s.cm := rfl
@[simp] theorem State.setBuf_caps (b : Buf) (l : List Byte) : (s.setBuf b l).caps = s.caps := rfl

/-! ### takeFault -/

@[simp] theorem State.takeFault_x (f : Fault) : (s.takeFault f).x = s.x := rfl
@[simp] theorem State.takeFault_cp (f : Fault) : (s.takeFault f).cp = s.cp := rfl
@[simp] theorem State.takeFault_runState (f : Fault) : (s.takeFault f).runState = .faulted := rfl
@[simp] theorem State.takeFault_ecode (f : Fault) : (s.takeFault f).ecode = f.code := rfl
@[simp] theorem State.takeFault_einfo0 (f : Fault) : (s.takeFault f).einfo0 = BitVec.ofNat 64 f.info0 := rfl
@[simp] theorem State.takeFault_einfo1 (f : Fault) : (s.takeFault f).einfo1 = BitVec.ofNat 64 f.info1 := rfl
@[simp] theorem State.takeFault_epc (f : Fault) : (s.takeFault f).epc = s.cp := rfl
@[simp] theorem State.takeFault_ph (f : Fault) : (s.takeFault f).ph = s.ph := rfl
@[simp] theorem State.takeFault_pw (f : Fault) : (s.takeFault f).pw = s.pw := rfl
@[simp] theorem State.takeFault_bufs (f : Fault) : (s.takeFault f).bufs = s.bufs := rfl
@[simp] theorem State.takeFault_coords (f : Fault) : (s.takeFault f).coords = s.coords := rfl
@[simp] theorem State.takeFault_pl (f : Fault) : (s.takeFault f).pl = s.pl := rfl
@[simp] theorem State.takeFault_rf (f : Fault) : (s.takeFault f).rf = s.rf := rfl
@[simp] theorem State.takeFault_cm (f : Fault) : (s.takeFault f).cm = s.cm := rfl
@[simp] theorem State.takeFault_caps (f : Fault) : (s.takeFault f).caps = s.caps := rfl

/-! ### advance -/

@[simp] theorem State.advance_x : (s.advance).x = s.x := rfl
@[simp] theorem State.advance_cp : (s.advance).cp = s.cp + 1 := rfl
@[simp] theorem State.advance_runState : (s.advance).runState = s.runState := rfl
@[simp] theorem State.advance_ecode : (s.advance).ecode = s.ecode := rfl
@[simp] theorem State.advance_einfo0 : (s.advance).einfo0 = s.einfo0 := rfl
@[simp] theorem State.advance_einfo1 : (s.advance).einfo1 = s.einfo1 := rfl
@[simp] theorem State.advance_epc : (s.advance).epc = s.epc := rfl
@[simp] theorem State.advance_ph : (s.advance).ph = s.ph := rfl
@[simp] theorem State.advance_pw : (s.advance).pw = s.pw := rfl
@[simp] theorem State.advance_bufs : (s.advance).bufs = s.bufs := rfl
@[simp] theorem State.advance_coords : (s.advance).coords = s.coords := rfl
@[simp] theorem State.advance_pl : (s.advance).pl = s.pl := rfl
@[simp] theorem State.advance_rf : (s.advance).rf = s.rf := rfl
@[simp] theorem State.advance_cm : (s.advance).cm = s.cm := rfl
@[simp] theorem State.advance_caps : (s.advance).caps = s.caps := rfl

/-! ### Derived readings -/

@[simp] theorem State.writeReg_then_readBuf (r : Reg) (v : Word) (c : Buf) : (s.writeReg r v).readBuf c = s.readBuf c := rfl
@[simp] theorem State.writeReg_then_blen (r : Reg) (v : Word) (c : Buf) : (s.writeReg r v).blen c = s.blen c := rfl
@[simp] theorem State.writeReg_then_clen (r : Reg) (v : Word) : (s.writeReg r v).clen = s.clen := rfl
@[simp] theorem State.writeReg_then_pixels (r : Reg) (v : Word) : (s.writeReg r v).pixels = s.pixels := rfl
@[simp] theorem State.writeReg_then_plPixels (r : Reg) (v : Word) : (s.writeReg r v).plPixels = s.plPixels := rfl
@[simp] theorem State.writeReg_then_rfPixels (r : Reg) (v : Word) : (s.writeReg r v).rfPixels = s.rfPixels := rfl

@[simp] theorem State.setBuf_then_readReg (b : Buf) (l : List Byte) (q : Reg) : (s.setBuf b l).readReg q = s.readReg q := rfl
@[simp] theorem State.setBuf_then_clen (b : Buf) (l : List Byte) : (s.setBuf b l).clen = s.clen := rfl
@[simp] theorem State.setBuf_then_pixels (b : Buf) (l : List Byte) : (s.setBuf b l).pixels = s.pixels := rfl
@[simp] theorem State.setBuf_then_plPixels (b : Buf) (l : List Byte) : (s.setBuf b l).plPixels = s.plPixels := rfl
@[simp] theorem State.setBuf_then_rfPixels (b : Buf) (l : List Byte) : (s.setBuf b l).rfPixels = s.rfPixels := rfl

@[simp] theorem State.takeFault_then_readReg (f : Fault) (q : Reg) : (s.takeFault f).readReg q = s.readReg q := rfl
@[simp] theorem State.takeFault_then_readBuf (f : Fault) (c : Buf) : (s.takeFault f).readBuf c = s.readBuf c := rfl
@[simp] theorem State.takeFault_then_blen (f : Fault) (c : Buf) : (s.takeFault f).blen c = s.blen c := rfl
@[simp] theorem State.takeFault_then_clen (f : Fault) : (s.takeFault f).clen = s.clen := rfl
@[simp] theorem State.takeFault_then_pixels (f : Fault) : (s.takeFault f).pixels = s.pixels := rfl
@[simp] theorem State.takeFault_then_plPixels (f : Fault) : (s.takeFault f).plPixels = s.plPixels := rfl
@[simp] theorem State.takeFault_then_rfPixels (f : Fault) : (s.takeFault f).rfPixels = s.rfPixels := rfl

@[simp] theorem State.advance_then_readReg (q : Reg) : (s.advance).readReg q = s.readReg q := rfl
@[simp] theorem State.advance_then_readBuf (c : Buf) : (s.advance).readBuf c = s.readBuf c := rfl
@[simp] theorem State.advance_then_blen (c : Buf) : (s.advance).blen c = s.blen c := rfl
@[simp] theorem State.advance_then_clen : (s.advance).clen = s.clen := rfl
@[simp] theorem State.advance_then_pixels : (s.advance).pixels = s.pixels := rfl
@[simp] theorem State.advance_then_plPixels : (s.advance).plPixels = s.plPixels := rfl
@[simp] theorem State.advance_then_rfPixels : (s.advance).rfPixels = s.rfPixels := rfl

/-- Reading a register after a write. -/
theorem State.readReg_writeReg (r q : Reg) (v : Word) :
    (s.writeReg r v).readReg q = if q = r then v else s.readReg q := by
  simp only [State.readReg, State.writeReg, Fin.getElem_fin, Vector.getElem_set]
  by_cases h : q = r
  · simp [h]
  · simp [h, Fin.val_ne_of_ne (Ne.symm h)]

@[simp] theorem State.readReg_writeReg_self (r : Reg) (v : Word) : (s.writeReg r v).readReg r = v := by
  simp [State.readReg_writeReg]

theorem State.readReg_writeReg_ne {r q : Reg} (h : q ≠ r) (v : Word) :
    (s.writeReg r v).readReg q = s.readReg q := by
  simp [State.readReg_writeReg, h]

/-- Reading a buffer after one is replaced. -/
theorem State.readBuf_setBuf (b c : Buf) (l : List Byte) :
    (s.setBuf b l).readBuf c = if c = b then l else s.readBuf c := by
  simp only [State.readBuf, State.setBuf, Fin.getElem_fin, Vector.getElem_set]
  by_cases h : c = b
  · simp [h]
  · simp [h, Fin.val_ne_of_ne (Ne.symm h)]

@[simp] theorem State.readBuf_setBuf_self (b : Buf) (l : List Byte) : (s.setBuf b l).readBuf b = l := by
  simp [State.readBuf_setBuf]

theorem State.readBuf_setBuf_ne {b c : Buf} (h : c ≠ b) (l : List Byte) :
    (s.setBuf b l).readBuf c = s.readBuf c := by
  simp [State.readBuf_setBuf, h]

theorem State.blen_setBuf (b c : Buf) (l : List Byte) :
    (s.setBuf b l).blen c = if c = b then l.length else s.blen c := by
  simp only [State.blen, State.readBuf_setBuf]
  split <;> rfl

/-! ### Five result registers -/

@[simp] theorem State.writeRegs5_cp (b : Base5) (v0 v1 v2 v3 v4 : Word) :
    (s.writeRegs5 b v0 v1 v2 v3 v4).cp = s.cp := rfl
@[simp] theorem State.writeRegs5_runState (b : Base5) (v0 v1 v2 v3 v4 : Word) :
    (s.writeRegs5 b v0 v1 v2 v3 v4).runState = s.runState := rfl
@[simp] theorem State.writeRegs5_ecode (b : Base5) (v0 v1 v2 v3 v4 : Word) :
    (s.writeRegs5 b v0 v1 v2 v3 v4).ecode = s.ecode := rfl
@[simp] theorem State.writeRegs5_einfo0 (b : Base5) (v0 v1 v2 v3 v4 : Word) :
    (s.writeRegs5 b v0 v1 v2 v3 v4).einfo0 = s.einfo0 := rfl
@[simp] theorem State.writeRegs5_einfo1 (b : Base5) (v0 v1 v2 v3 v4 : Word) :
    (s.writeRegs5 b v0 v1 v2 v3 v4).einfo1 = s.einfo1 := rfl
@[simp] theorem State.writeRegs5_epc (b : Base5) (v0 v1 v2 v3 v4 : Word) :
    (s.writeRegs5 b v0 v1 v2 v3 v4).epc = s.epc := rfl
@[simp] theorem State.writeRegs5_ph (b : Base5) (v0 v1 v2 v3 v4 : Word) :
    (s.writeRegs5 b v0 v1 v2 v3 v4).ph = s.ph := rfl
@[simp] theorem State.writeRegs5_pw (b : Base5) (v0 v1 v2 v3 v4 : Word) :
    (s.writeRegs5 b v0 v1 v2 v3 v4).pw = s.pw := rfl
@[simp] theorem State.writeRegs5_bufs (b : Base5) (v0 v1 v2 v3 v4 : Word) :
    (s.writeRegs5 b v0 v1 v2 v3 v4).bufs = s.bufs := rfl
@[simp] theorem State.writeRegs5_coords (b : Base5) (v0 v1 v2 v3 v4 : Word) :
    (s.writeRegs5 b v0 v1 v2 v3 v4).coords = s.coords := rfl
@[simp] theorem State.writeRegs5_pl (b : Base5) (v0 v1 v2 v3 v4 : Word) :
    (s.writeRegs5 b v0 v1 v2 v3 v4).pl = s.pl := rfl
@[simp] theorem State.writeRegs5_rf (b : Base5) (v0 v1 v2 v3 v4 : Word) :
    (s.writeRegs5 b v0 v1 v2 v3 v4).rf = s.rf := rfl
@[simp] theorem State.writeRegs5_cm (b : Base5) (v0 v1 v2 v3 v4 : Word) :
    (s.writeRegs5 b v0 v1 v2 v3 v4).cm = s.cm := rfl
@[simp] theorem State.writeRegs5_caps (b : Base5) (v0 v1 v2 v3 v4 : Word) :
    (s.writeRegs5 b v0 v1 v2 v3 v4).caps = s.caps := rfl

@[simp] theorem State.writeRegs5_then_readBuf (b : Base5) (v0 v1 v2 v3 v4 : Word) (c : Buf) :
    (s.writeRegs5 b v0 v1 v2 v3 v4).readBuf c = s.readBuf c := rfl

@[simp] theorem State.writeRegs5_then_blen (b : Base5) (v0 v1 v2 v3 v4 : Word) (c : Buf) :
    (s.writeRegs5 b v0 v1 v2 v3 v4).blen c = s.blen c := rfl

@[simp] theorem State.writeRegs5_then_clen (b : Base5) (v0 v1 v2 v3 v4 : Word) :
    (s.writeRegs5 b v0 v1 v2 v3 v4).clen = s.clen := rfl

/-- The five registers a base names are five. -/
theorem baseReg_inj (b : Base5) (i j : Fin 5) : baseReg b i = baseReg b j ↔ i = j := by
  simp only [baseReg, Fin.ext_iff]
  omega

/-- Each of the five registers reads what was written to it. -/
theorem State.readReg_writeRegs5 (b : Base5) (v : Fin 5 → Word) (k : Fin 5) :
    (s.writeRegs5 b (v 0) (v 1) (v 2) (v 3) (v 4)).readReg (baseReg b k) = v k := by
  fin_cases k <;> simp [State.writeRegs5, State.readReg_writeReg, baseReg_inj]

/-- Every other register stays. -/
theorem State.readReg_writeRegs5_ne (b : Base5) (v0 v1 v2 v3 v4 : Word) (q : Reg) (h : ∀ k, q ≠ baseReg b k) :
    (s.writeRegs5 b v0 v1 v2 v3 v4).readReg q = s.readReg q := by
  simp [State.writeRegs5, State.readReg_writeReg, h]

/-! ### Run-state changes -/

@[simp] theorem State.clear_x : s.clear.x = s.x := by unfold State.clear; split <;> rfl
@[simp] theorem State.clear_cp : s.clear.cp = s.cp := by unfold State.clear; split <;> rfl
@[simp] theorem State.clear_ph : s.clear.ph = s.ph := by unfold State.clear; split <;> rfl
@[simp] theorem State.clear_pw : s.clear.pw = s.pw := by unfold State.clear; split <;> rfl
@[simp] theorem State.clear_bufs : s.clear.bufs = s.bufs := by unfold State.clear; split <;> rfl
@[simp] theorem State.clear_coords : s.clear.coords = s.coords := by unfold State.clear; split <;> rfl
@[simp] theorem State.clear_pl : s.clear.pl = s.pl := by unfold State.clear; split <;> rfl
@[simp] theorem State.clear_rf : s.clear.rf = s.rf := by unfold State.clear; split <;> rfl
@[simp] theorem State.clear_cm : s.clear.cm = s.cm := by unfold State.clear; split <;> rfl
@[simp] theorem State.clear_caps : s.clear.caps = s.caps := by unfold State.clear; split <;> rfl

@[simp] theorem State.start_x : s.start.x = s.x := by unfold State.start; split <;> rfl
@[simp] theorem State.start_cp : s.start.cp = s.cp := by unfold State.start; split <;> rfl
@[simp] theorem State.start_ecode : s.start.ecode = s.ecode := by unfold State.start; split <;> rfl
@[simp] theorem State.start_einfo0 : s.start.einfo0 = s.einfo0 := by unfold State.start; split <;> rfl
@[simp] theorem State.start_einfo1 : s.start.einfo1 = s.einfo1 := by unfold State.start; split <;> rfl
@[simp] theorem State.start_epc : s.start.epc = s.epc := by unfold State.start; split <;> rfl
@[simp] theorem State.start_ph : s.start.ph = s.ph := by unfold State.start; split <;> rfl
@[simp] theorem State.start_pw : s.start.pw = s.pw := by unfold State.start; split <;> rfl
@[simp] theorem State.start_bufs : s.start.bufs = s.bufs := by unfold State.start; split <;> rfl
@[simp] theorem State.start_coords : s.start.coords = s.coords := by unfold State.start; split <;> rfl
@[simp] theorem State.start_pl : s.start.pl = s.pl := by unfold State.start; split <;> rfl
@[simp] theorem State.start_rf : s.start.rf = s.rf := by unfold State.start; split <;> rfl
@[simp] theorem State.start_cm : s.start.cm = s.cm := by unfold State.start; split <;> rfl
@[simp] theorem State.start_caps : s.start.caps = s.caps := by unfold State.start; split <;> rfl

end Sys2Proof.Machine
end

