-- ==== Sys2Proof/Tests/Slice0.lean ====
section
/-! SUPPORT. Tests: the well-formedness check, every command's word, one or two steps of each command, vectors of the spec's
functions, and a witness for the hypotheses of each statement. Expected values are the spec's; each group names its rules. -/

namespace Sys2Proof.Tests

open Sys2Proof.Machine

/-! ### Well-formedness and decoding (rules R74, R80) -/

/-- The one check of `wellFormed`: EXTRACT with equal destination buffers is refused, as a term and as a word. -/
theorem test_equal_destinations_refused :
    (Instr.extract 1 1 0 0).wellFormed = false ∧ decode 0x74110000 = .error .equalDestinations ∧
    (Instr.extract 1 2 0 0).wellFormed = true := by decide

/-- Family 0: HALT; LI x4, 0x012C; LUI x11, 0x41D3; BLEN x3, b1. -/
theorem test_decode_sequencer :
    decode 0b00000001_0000_0000_0000_0000_0000_0000 = .ok .halt ∧
    decode 0b00000010_0100_0000_0000_0001_0010_1100 = .ok (.li 4 0x012C) ∧
    decode 0b00000011_1011_0000_0100_0001_1101_0011 = .ok (.lui 11 0x41D3) ∧
    decode 0b00000100_0011_0001_0000_0000_0000_0000 = .ok (.blen 3 1) := by decide

/-- Family 1: B2G b1, b0, x1; G2B b2, b1, x1; PACK x5, b3; UNPK b3, x4; UNPKW b3, x4, x6. -/
theorem test_decode_bit_codec :
    decode 0b00010000_0001_0000_0001_0000_0000_0000 = .ok (.b2g 1 0 1) ∧
    decode 0b00010001_0010_0001_0001_0000_0000_0000 = .ok (.g2b 2 1 1) ∧
    decode 0b00010010_0101_0011_0000_0000_0000_0000 = .ok (.pack 5 3) ∧
    decode 0b00010011_0011_0100_0000_0000_0000_0000 = .ok (.unpk 3 4) ∧
    decode 0b00010100_0011_0100_0110_0000_0000_0000 = .ok (.unpkw 3 4 6) := by decide

/-- Family 2: DEFL b1, b0; INFL b2, b1; CADOPT b2, b0, x3, x2. -/
theorem test_decode_compression :
    decode 0b00100000_0001_0000_0000_0000_0000_0000 = .ok (.defl 1 0) ∧
    decode 0b00100001_0010_0001_0000_0000_0000_0000 = .ok (.infl 2 1) ∧
    decode 0b00100010_0010_0000_0011_0010_0000_0000 = .ok (.cadopt 2 0 3 2) := by decide

/-- Family 3: PERM b3; PERML b3, x1; SEED x1, b3. -/
theorem test_decode_permutation :
    decode 0b00110000_0011_0000_0000_0000_0000_0000 = .ok (.perm 3) ∧
    decode 0b00110001_0011_0001_0000_0000_0000_0000 = .ok (.perml 3 1) ∧
    decode 0b00110010_0001_0011_0000_0000_0000_0000 = .ok (.seed 1 3) := by decide

/-- Families 4 and 5: OPA x1; HENC b1, b0, b2, x1, x2; HDEC b2, b1, x8; CRC x3, b0. -/
theorem test_decode_opa_and_header :
    decode 0b01000000_0001_0000_0000_0000_0000_0000 = .ok (.opa 1) ∧
    decode 0b01010000_0001_0000_0010_0001_0010_0000 = .ok (.henc 1 0 2 1 2) ∧
    decode 0b01010001_0010_0001_1000_0000_0000_0000 = .ok (.hdec 2 1 8) ∧
    decode 0b01010010_0011_0000_0000_0000_0000_0000 = .ok (.crc 3 0) := by decide

/-- Family 6: VLSB x1; VFMT x2; VCAP x3, x4; VCRC b2, x11. -/
theorem test_decode_validation :
    decode 0b01100000_0001_0000_0000_0000_0000_0000 = .ok (.vlsb 1) ∧
    decode 0b01100001_0010_0000_0000_0000_0000_0000 = .ok (.vfmt 2) ∧
    decode 0b01100010_0011_0100_0000_0000_0000_0000 = .ok (.vcap 3 4) ∧
    decode 0b01100011_0010_1011_0000_0000_0000_0000 = .ok (.vcrc 2 11) := by decide

/-- Family 7: SNAP; SCAT b0, x1, x2; GATH b1, x3, x4, x5; EMBED b0, b1, b3, x1, x2; EXTRACT b2, b1, b3, x8. -/
theorem test_decode_orchestrator :
    decode 0b01110000_0000_0000_0000_0000_0000_0000 = .ok .snap ∧
    decode 0b01110001_0000_0001_0010_0000_0000_0000 = .ok (.scat 0 1 2) ∧
    decode 0b01110010_0001_0011_0100_0101_0000_0000 = .ok (.gath 1 3 4 5) ∧
    decode 0b01110011_0000_0001_0011_0001_0010_0000 = .ok (.embed 0 1 3 1 2) ∧
    decode 0b01110100_0010_0001_0011_1000_0000_0000 = .ok (.extract 2 1 3 8) := by decide

/-- The items of rule R80: unknown opcodes, a nonzero unused field, field `f`, a buffer of 4, a base of 12. -/
theorem test_illegal_words :
    decode 0x00000000 = .error .unknownOpcode ∧ decode 0x80000000 = .error .unknownOpcode ∧
    decode 0x01000001 = .error .nonzeroUnused ∧ decode 0x02010000 = .error .nonzeroUnused ∧
    decode 0x50102121 = .error .nonzeroUnused ∧ decode 0x10410000 = .error .bufferField ∧
    decode 0x5121C000 = .error .registerBase ∧ decode 0x74210C00 = .error .registerBase ∧
    decode 0x5121B000 = .ok (.hdec 2 1 11) := by decide

/-- No word fits two rows of the opcode table: any two rows differ in a bit both fix. -/
theorem test_opcode_rows_do_not_overlap :
    opcodeRows.Pairwise (fun r q => r.bits &&& q.mask ≠ q.bits &&& r.mask) := by decide

/-- Rule R84: LI32 x11, 0x41D3833A. -/
theorem test_pseudo_li32 : pseudoLI32 11 0x41D3833A = [.li 11 0x833A, .lui 11 0x41D3] := by decide

/-! ### Small states -/

/-- A running unit of the given capacities. -/
def unit (bufCap crdCap planeCap cmdCap : Nat) : State :=
  { State.resetWith { bufCap, crdCap, planeCap, cmdCap } with runState := .running }

/-- A running unit with room for the tests. -/
def base : State := unit 200 64 64 8

/-- A state with the given working plane. -/
def withPlane (s : State) (h w : Half) (l : List Byte) : State :=
  { s with ph := h, pw := w, pl := Memory.writeAll [] 0 l }

/-- A reading of the state after a command. -/
def after {α : Type} (i : Instr) (s : State) (view : State → α) : Option α :=
  match exec i s with
  | .next t => some (view t)
  | .fault _ | .refused _ => none

/-- What a fault leaves: run state, code, the two information words. -/
def faultOf (s : State) : RunState × Byte × DWord × DWord := (s.runState, s.ecode, s.einfo0, s.einfo1)

/-! ### One step of each command (the examples of the command rules) -/

/-- HALT leaves `cp` (rule R271). -/
theorem test_halt : after .halt { base with cp := 5 } (fun t => (t.runState, t.cp)) = some (.done, 5) := by decide

/-- LI clears the upper half and moves on (rule R272). -/
theorem test_li :
    after (.li 4 0x012C) (base.writeReg 4 0xFFFFFFFF) (fun t => (t.readReg 4, t.cp)) = some (300, 1) := by decide

/-- LUI keeps the lower half (rule R273). -/
theorem test_lui : after (.lui 11 0x41D3) (base.writeReg 11 0x0000833A) (·.readReg 11) = some 0x41D3833A := by decide

/-- BLEN (rule R274). -/
theorem test_blen : after (.blen 3 1) (base.setBuf 1 [7, 8, 9]) (·.readReg 3) = some 3 := by decide

/-- B2G of "hi" at width 3; the destination may be the source (rule R106). -/
theorem test_b2g :
    after (.b2g 0 0 1) ((base.setBuf 0 [0x68, 0x69]).writeReg 1 3) (·.readBuf 0) = some [0, 5, 5, 4, 6, 0] := by decide

/-- B2G: bits 31 to 4 of the width count (rule R106). -/
theorem test_b2g_wide_width :
    after (.b2g 1 0 1) (base.writeReg 1 0x101) faultOf = some (.faulted, 1, 0x101, 0) := by decide

/-- G2B appends one zero byte, and ignores the bits above the width (rule R107). -/
theorem test_g2b :
    after (.g2b 2 1 1) ((base.setBuf 1 [0, 0xFD, 5, 4, 6, 0]).writeReg 1 3) (·.readBuf 2) = some [0x68, 0x69, 0] := by
  decide

/-- PACK uses bit 0 of each element (rule R108). -/
theorem test_pack :
    after (.pack 5 3) (base.setBuf 3 [0, 0, 1, 1, 0, 3, 0, 0, 1]) (·.readReg 5) = some 300 := by decide

/-- PACK of 33 elements (rule R108). -/
theorem test_pack_too_wide :
    after (.pack 5 3) (base.setBuf 3 (List.replicate 33 1)) faultOf = some (.faulted, 4, 33, 32) := by decide

/-- UNPK of 300 (rule R109). -/
theorem test_unpk :
    after (.unpk 3 4) (base.writeReg 4 300) (·.readBuf 3) = some [0, 0, 1, 1, 0, 1, 0, 0, 1] := by decide

/-- UNPKW of 300 at width 4 loses the rest (rule R110). -/
theorem test_unpkw :
    after (.unpkw 3 4 6) ((base.writeReg 4 300).writeReg 6 4) (·.readBuf 3) = some [0, 0, 1, 1] := by decide

/-- UNPKW of more than 32 bits (rule R110). -/
theorem test_unpkw_range :
    after (.unpkw 3 4 6) (base.writeReg 6 33) faultOf = some (.faulted, 8, 33, 32) := by decide

/-- DEFL with a compressor given (rule R122). -/
theorem test_defl_with :
    (match deflWith storedDeflate 1 0 (base.setBuf 0 [0x68, 0x69]) with
      | .next t => some (t.readBuf 1)
      | .fault _ | .refused _ => none) = some [0x01, 0x02, 0x00, 0xFD, 0xFF, 0x68, 0x69] := by decide +kernel

/-- INFL of a stored block and of a fixed one (rules R123, R127, R133). -/
theorem test_infl :
    after (.infl 2 1) (base.setBuf 1 [0x01, 0x02, 0x00, 0xFD, 0xFF, 0x68, 0x69]) (·.readBuf 2) = some [0x68, 0x69] ∧
    after (.infl 2 1) (base.setBuf 1 [0x4B, 0x04, 0x02, 0x00]) (·.readBuf 2) = some [0x61, 0x61, 0x61, 0x61] := by
  decide +kernel

/-- INFL of a distance before the start of the output (rule R133). -/
theorem test_infl_error :
    after (.infl 2 1) (base.setBuf 1 [0x03, 0x02, 0x00]) faultOf = some (.faulted, 10, 3, 0) := by decide +kernel

/-- CADOPT without a request does not consult the compressor; the request may be the flag's register (rule R124). -/
theorem test_cadopt :
    after (.cadopt 2 0 3 3) ((base.setBuf 0 [1, 2]).writeReg 3 0xFFFFFFFE) (fun t => (t.readBuf 2, t.readReg 3)) =
      some ([1, 2], 0) := by decide

/-- CADOPT with a compressor that shortens 64 bytes of 0x41 to 6 (rule R124). -/
theorem test_cadopt_with :
    (match cadoptWith (fun _ => [0x73, 0x74, 0xA4, 0x0C, 0x00, 0x00]) 2 0 3 2
        ((base.setBuf 0 (List.replicate 64 0x41)).writeReg 2 1) with
      | .next t => some (t.readBuf 2, t.readReg 3)
      | .fault _ | .refused _ => none) = some ([0x73, 0x74, 0xA4, 0x0C, 0x00, 0x00], 1) := by decide

/-- PERM of a 3 by 4 plane under "abc" (rule R174). -/
theorem test_perm :
    after (.perm 3) (({ base with ph := 3, pw := 4 } : State).setBuf 3 [0x61, 0x62, 0x63]) (·.coords) =
      some [⟨0, 3⟩, ⟨1, 2⟩, ⟨1, 3⟩, ⟨2, 3⟩, ⟨2, 2⟩, ⟨2, 0⟩, ⟨0, 0⟩, ⟨1, 0⟩, ⟨0, 2⟩, ⟨0, 1⟩, ⟨1, 1⟩, ⟨2, 1⟩] := by
  decide +kernel

/-- PERML of a 2 by 2 plane without a password, three coordinates (rules R161, R177). -/
theorem test_perml :
    after (.perml 3 1) (({ base with ph := 2, pw := 2 } : State).writeReg 1 3) (·.coords) =
      some [⟨0, 0⟩, ⟨0, 1⟩, ⟨1, 0⟩] := by decide

/-- SEED of "abc" and of the empty buffer (rule R176). -/
theorem test_seed :
    after (.seed 1 3) (base.setBuf 3 [0x61, 0x62, 0x63]) (·.readReg 1) = some 0xF20015AD ∧
    after (.seed 1 3) base (·.readReg 1) = some 0x7852B855 := by decide +kernel

/-- OPA of four pixels at depth 2, the last correction discarded (rule R192). -/
theorem test_opa :
    after (.opa 1) ({ withPlane (base.writeReg 1 2) 1 4 [103, 97, 4, 3] with
      rf := Memory.writeAll [] 0 [100, 100, 1, 0] } : State) (fun t => t.pl.readAll 5) = some [99, 101, 0, 3, 0] := by
  decide

/-- OPA: the depth is checked before the plane (rule R192). -/
theorem test_opa_order :
    after (.opa 1) ({ base with ph := 100, pw := 100 } : State) faultOf = some (.faulted, 1, 0, 0) ∧
    after (.opa 1) (({ base with ph := 100, pw := 100 } : State).writeReg 1 8) faultOf =
      some (.faulted, 8, 10000, 64) := by decide

/-- HENC of "hi", filename "a", depth 2: frame (c) of rule R209. -/
theorem test_henc :
    after (.henc 1 0 2 1 2) (((base.setBuf 0 [0x68, 0x69]).setBuf 2 [0x61]).writeReg 1 2) (·.readBuf 1) =
      some [0, 1, 0, 0, 0, 0, 1, 1, 0, 0, 1, 0, 0, 0, 0, 0, 0, 0, 1, 0, 0, 0, 0, 1, 1, 0, 0, 0, 0, 1, 1, 0, 1, 0, 1, 0, 1, 0,
        1, 0, 1, 0, 0, 1, 1, 0, 0, 1, 0, 0, 1, 0, 0, 0, 1, 1, 0, 1, 1] := by decide +kernel

/-- HDEC of frame (b) of rule R209: empty payload and filename, depth 8, flag 1. -/
theorem test_hdec :
    after (.hdec 2 1 8)
      (base.setBuf 1 (List.replicate 5 0 ++ [1, 1, 1] ++ List.replicate 8 0 ++ [1] ++ List.replicate 32 0))
      (fun t => (t.readBuf 2, [t.readReg 8, t.readReg 9, t.readReg 10, t.readReg 11, t.readReg 12])) =
      some ([], [0, 8, 1, 0, 49]) := by decide

/-- HDEC of 4 bits, and of none (rule R209 (i)). -/
theorem test_hdec_truncated :
    after (.hdec 2 1 8) (base.setBuf 1 [0, 1, 0, 0]) faultOf = some (.faulted, 12, 5, 4) ∧
    after (.hdec 2 1 8) base faultOf = some (.faulted, 12, 5, 0) := by decide

/-- CRC of "123456789" (rule R204). -/
theorem test_crc :
    after (.crc 3 0) (base.setBuf 0 [0x31, 0x32, 0x33, 0x34, 0x35, 0x36, 0x37, 0x38, 0x39]) (·.readReg 3) =
      some 0xCBF43926 := by decide +kernel

/-- VLSB: 8 passes, 9 faults (rule R231). -/
theorem test_vlsb :
    after (.vlsb 1) (base.writeReg 1 8) (·.cp) = some 1 ∧
    after (.vlsb 1) (base.writeReg 1 9) faultOf = some (.faulted, 1, 9, 0) := by decide

/-- VFMT looks at bit 0 alone (rule R232). -/
theorem test_vfmt :
    after (.vfmt 2) (base.writeReg 2 0xFFFFFFFE) (·.cp) = some 1 ∧
    after (.vfmt 2) (base.writeReg 2 1) faultOf = some (.faulted, 2, 0, 0) := by decide

/-- VCAP: 57 needed of 56 faults, of 57 passes (rule R233). -/
theorem test_vcap :
    after (.vcap 3 4) (({ base with ph := 7, pw := 8 } : State).writeReg 3 51 |>.writeReg 4 6) faultOf =
      some (.faulted, 3, 57, 56) ∧
    after (.vcap 3 4) (({ base with ph := 3, pw := 19 } : State).writeReg 3 51 |>.writeReg 4 6) (·.cp) = some 1 := by
  decide

/-- VCAP: the sum is exact (rule R233). -/
theorem test_vcap_exact :
    after (.vcap 3 4) (base.writeReg 3 0xFFFFFFFF |>.writeReg 4 1) faultOf = some (.faulted, 3, 0x100000000, 0) := by
  decide

/-- VCRC of "hi!" (rule R234). -/
theorem test_vcrc :
    after (.vcrc 2 11) ((base.setBuf 2 [0x68, 0x69, 0x21]).writeReg 11 0x41D3833A) (·.cp) = some 1 ∧
    after (.vcrc 2 11) (base.writeReg 11 5) faultOf = some (.faulted, 5, 5, 0) := by decide +kernel

/-- SNAP of three pixels (rule R241). -/
theorem test_snap :
    after .snap (withPlane base 1 3 [7, 8, 9]) (fun t => (t.rf.readAll 4, t.pl.readAll 4)) =
      some ([7, 8, 9, 0], [7, 8, 9, 0]) := by decide

/-- The state of the examples of rules R243 and R245. -/
def scatState : State :=
  ({ withPlane base 2 3 [10, 11, 12, 13, 14, 15] with
    coords := [⟨0, 0⟩, ⟨0, 1⟩, ⟨0, 2⟩, ⟨1, 0⟩, ⟨1, 1⟩, ⟨1, 2⟩] } : State).setBuf 0 [1, 0, 1] |>.writeReg 1 1

/-- SCAT at offset 2 (rule R243). -/
theorem test_scat :
    after (.scat 0 1 2) (scatState.writeReg 2 2) (fun t => t.pl.readAll 6) = some [10, 11, 13, 12, 15, 15] := by decide

/-- SCAT: a window past the end, and a coordinate outside the plane at index 3 (rule R243). -/
theorem test_scat_faults :
    after (.scat 0 1 2) (scatState.writeReg 2 4) faultOf = some (.faulted, 8, 7, 6) ∧
    after (.scat 0 1 2) ({ scatState.writeReg 2 2 with ph := 1 } : State) faultOf =
      some (.faulted, 8, 3, 0x10000) := by decide

/-- GATH on the plane SCAT left (rule R245). -/
theorem test_gath :
    after (.gath 1 3 4 5) (((withPlane scatState 2 3 [10, 11, 13, 12, 15, 15]).writeReg 3 2).writeReg 4 1 |>.writeReg 5 3)
      (·.readBuf 1) = some [3, 1, 0] := by decide

/-- EMBED of the empty secret at depth 1: 49 zero header bits, frame (f) of rule R209, on 49 pixels of value 255. -/
theorem test_embed :
    after (.embed 0 1 3 1 2) (withPlane (base.writeReg 1 1) 7 7 (List.replicate 49 255))
      (fun t => (t.pl.readAll 50, t.rf.readAll 50)) =
      some (List.replicate 49 254 ++ [0], List.replicate 49 255 ++ [0]) := by decide +kernel

/-- EMBED one slot short: the worked fault of rule R324. -/
theorem test_embed_capacity :
    after (.embed 0 1 3 1 2)
      ((({ base with ph := 7, pw := 8 } : State).setBuf 0 [0x68, 0x69, 0x21]).setBuf 3 [0x61, 0x62, 0x63] |>.writeReg 1 4)
      faultOf = some (.faulted, 3, 57, 56) := by decide +kernel

/-- EXTRACT from 49 zero pixels: the frame (f) of rule R209 and an empty payload. -/
theorem test_extract :
    after (.extract 2 1 3 8) ({ base with ph := 7, pw := 7 } : State)
      (fun t => (t.readBuf 2, t.readBuf 1, [t.readReg 8, t.readReg 9, t.readReg 10, t.readReg 11, t.readReg 12])) =
      some ([], [], [0, 1, 0, 0, 49]) := by decide +kernel

/-- EXTRACT from a plane without pixels (rule R250). -/
theorem test_extract_no_pixels : after (.extract 2 1 3 8) base faultOf = some (.faulted, 12, 5, 0) := by decide

/-! ### The step, reset and the host -/

/-- The interface's word is fetched and run as the first command after reset: LI x4, 300. -/
theorem test_first_step_after_reset :
    (match step (State.reset.withFetchWord 32 0x0240012C) with
      | .next t => some (t.readReg 4, t.cp, t.runState)
      | .fault _ | .refused _ => none) = some (300, 1, .running) := by decide

/-- The table's numbering of a word (host interface). -/
theorem test_decode_table_word :
    decodeTableWord 32 0x0240012C = some (.li 4 300) ∧ decodeTableWord 32 0 = none := by decide

/-- CLEAR and START in one write of a faulted unit; a write of the read-only `ECODE` (rules R23, R24). -/
theorem test_host_writes :
    faultOf ((base.faultEntry 3 57 56).hostAct (.writeReg 0 3)) = (.running, 0, 0, 0) ∧
    faultOf ((base.faultEntry 3 57 56).hostAct (.writeReg 3 0)) = (.faulted, 3, 57, 56) := by decide

/-- The digest of "abc" (rule R167). -/
theorem test_sha256_digest :
    sha256 [0x61, 0x62, 0x63] = 0xBA7816BF8F01CFEA414140DE5DAE2223B00361A396177A9CB410FF61F20015AD := by decide +kernel

/-- A message of 56 bytes needs two blocks (rule R167). -/
theorem test_sha256_two_blocks :
    sha256 (List.replicate 56 0x61) = 0xB35439A4AC6F0948B6D6F9E3C6AF0F5F590CE20F1BDE7090EF7970686EC6738A := by
  decide +kernel

/-- `Shuffle(0, 5)` and `Mix64(1)` (rules R170, R177). -/
theorem test_shuffle : shuffle 0 5 = [2, 3, 1, 4, 0] ∧ mix64 1 = 0x5692161D100B05E5 := by decide

/-- The corrections of rule R194 at the edges: discarded below 0 and above 255, and `diff = inner`. -/
theorem test_adjust_edges :
    adjust1 3 0 2 = 3 ∧ adjust1 252 255 2 = 252 ∧ adjust1 4 1 2 = 0 ∧ adjust1 251 254 2 = 255 ∧ adjust1 102 100 2 = 102 ∧
    adjust1 229 100 8 = 229 := by decide

/-! ### Witnesses: states and operands that meet the hypotheses of each statement, each clause at a boundary -/

theorem witness_DecodeEncodeRoundTrip :
    (Instr.extract 0 3 3 11).wellFormed = true ∧ (Instr.li 15 0xFFFF).wellFormed = true := by decide

theorem witness_LegalWordIsItsCommandsWord : decode 0x7403FB00 = .error .bufferField ∧
    decode 0x74033B00 = .ok (.extract 0 3 3 11) := by decide

theorem witness_DecoderAgreesWithOpcodeTable :
    decode 0x5121B000 = .ok (.hdec 2 1 11) ∧ (∃ r ∈ opcodeRows, r.fits 0x5121B000 = true) := by decide

/-- A running unit whose one word is HALT, at the last index. -/
def haltUnit : State := { unit 1 1 1 1 with cm := [(0, 0x01000000)] }

theorem witness_StepRunsTheDecodedCommand :
    haltUnit.runState = .running ∧ haltUnit.cp.toNat < haltUnit.caps.cmdCap ∧
    decode (haltUnit.cm.read haltUnit.cp.toNat) = .ok .halt := by decide

theorem witness_IllegalWordRaisesIllegalCommand :
    (unit 1 1 1 1).runState = .running ∧ (unit 1 1 1 1).cp.toNat < (unit 1 1 1 1).caps.cmdCap ∧
    decode ((unit 1 1 1 1).cm.read (unit 1 1 1 1).cp.toNat) = .error .unknownOpcode := by decide

theorem witness_FetchPastTheEndRaisesFetchFault :
    ({ haltUnit with cp := 1 } : State).runState = .running ∧
    ({ haltUnit with cp := 1 } : State).caps.cmdCap ≤ ({ haltUnit with cp := 1 } : State).cp.toNat := by decide

theorem witness_FaultingStepHasNoEffect :
    (unit 1 1 1 1).runState = .running ∧ step (unit 1 1 1 1) = .next ((unit 1 1 1 1).faultEntry 6 0 0) ∧
    ((unit 1 1 1 1).faultEntry 6 0 0).runState = .faulted := ⟨rfl, rfl, rfl⟩

theorem witness_EveryStepHasANextState : (State.resetWith haltUnit.caps).runState ≠ .running := by decide

theorem witness_CommandPointerMovesByOneOrStays :
    haltUnit.caps.Lawful ∧ haltUnit.runState = .running ∧ step haltUnit = .next { haltUnit with runState := .done } :=
  ⟨by decide, rfl, rfl⟩

theorem witness_NoCommandWritesProgramOrDimensions :
    exec (.li 0 1) haltUnit = .next (haltUnit.writeReg 0 1).advance := rfl

theorem witness_HostRegisterFile :
    haltUnit.start.clear.runState = .running ∧ (State.resetWith haltUnit.caps).runState ≠ .running ∧
    (0xFFFF : Word).toNat < 2 ^ 16 := by decide

theorem witness_HostIsIgnoredWhileRunning :
    haltUnit.runState = .running ∧ HostAction.writeReg 0 2 ≠ .reset ∧ (0x1F : Nat) ≠ 0x01 := by decide

/-- A stopped unit. -/
def idleUnit : State := State.resetWith { bufCap := 2, crdCap := 1, planeCap := 4, cmdCap := 2 }

theorem witness_HostReadsBackWhatItLoads :
    idleUnit.runState ≠ .running ∧ ([7, 8] : List Byte).length ≤ idleUnit.caps.bufCap ∧
    idleUnit.caps.bufCap < ([7, 8, 9] : List Byte).length ∧ ([0x10002] : List Word).length ≤ idleUnit.caps.crdCap ∧
    idleUnit.caps.crdCap < ([1, 2] : List Word).length ∧ (idleUnit.plane .pl).wf ∧ (idleUnit.plane .rf).wf ∧
    (0xFFFF : Word).toNat < 2 ^ 16 ∧ ([1, 2, 3, 4] : List Byte).length = (2 : Word).toNat * (2 : Word).toNat ∧
    ([1, 2, 3, 4] : List Byte).length ≤ idleUnit.caps.planeCap ∧
    ([1, 2, 3] : List Byte).length ≠ (2 : Word).toNat * (2 : Word).toNat ∧
    idleUnit.caps.planeCap < ([1, 2, 3, 4, 5] : List Byte).length ∧ 3 < idleUnit.caps.planeCap ∧
    idleUnit.caps.planeCap ≤ 4 ∧ idleUnit.cm.wf ∧ 1 + ([0x01000000] : List Word).length ≤ idleUnit.caps.cmdCap ∧
    idleUnit.caps.cmdCap < 2 + ([0x01000000] : List Word).length := by decide

/-- Loads of `RF` and of commands read back; a wide dimension leaves the elements loaded (rules R50, R62). -/
theorem test_host_loads :
    (idleUnit.hostAct (.loadPlane .rf 1 2 [7, 8])).hostReadPlane .rf = some [7, 8] ∧
    (idleUnit.hostAct (.loadCommands 1 [0x01000000])).hostReadCommands 0 2 = some [0, 0x01000000] ∧
    (idleUnit.hostAct (.loadPlane .pl 0x10000 0 [])).pl = [] := by decide

theorem witness_ResetGivesEveryStateItsValue :
    haltUnit.hostAct .reset = State.resetWith haltUnit.caps := rfl

theorem witness_ResetMeetsTheInvariant :
    (Capacities.mk 1 1 1 1).Lawful ∧ (Capacities.mk (2 ^ 32 - 1) (2 ^ 32 - 1) (2 ^ 32 - 1) (2 ^ 16)).Lawful := by decide

theorem witness_StepKeepsTheInvariant :
    haltUnit.Inv ∧ step haltUnit = .next { haltUnit with runState := .done } := ⟨by decide, rfl⟩

theorem witness_HostActionKeepsTheInvariant : haltUnit.Inv ∧ idleUnit.Inv := ⟨by decide, by decide⟩

theorem witness_EveryRunEnds :
    haltUnit.caps.Lawful ∧ haltUnit.runState = .running ∧ haltUnit.caps.cmdCap - haltUnit.cp.toNat + 1 ≤ 2 := by decide

theorem witness_BlenSeedAndCrcWriteTheirRegister : (base.setBuf 0 [1]).blen 0 < 2 ^ 32 := by decide

/-- A running unit with "hi" in B0 and room for 6 elements in a buffer. -/
def hiUnit (bufCap : Nat) (x1 : Word) : State := ((unit bufCap 64 64 8).setBuf 0 [0x68, 0x69]).writeReg 1 x1

theorem witness_BytesToGroupsCommand :
    ((hiUnit 6 0).readReg 1).toNat < 1 ∧ 8 < ((hiUnit 6 9).readReg 1).toNat ∧
    (1 ≤ ((hiUnit 5 3).readReg 1).toNat ∧ ((hiUnit 5 3).readReg 1).toNat ≤ 8 ∧
      (hiUnit 5 3).caps.bufCap < ceilDiv (8 * (hiUnit 5 3).blen 0) ((hiUnit 5 3).readReg 1).toNat) ∧
    (1 ≤ ((hiUnit 6 3).readReg 1).toNat ∧ ((hiUnit 6 3).readReg 1).toNat ≤ 8 ∧
      ceilDiv (8 * (hiUnit 6 3).blen 0) ((hiUnit 6 3).readReg 1).toNat ≤ (hiUnit 6 3).caps.bufCap) := by decide

theorem witness_GroupsToBytesCommand :
    ((hiUnit 2 0).readReg 1).toNat < 1 ∧ 8 < ((hiUnit 2 9).readReg 1).toNat ∧
    (1 ≤ ((hiUnit 2 8).readReg 1).toNat ∧ ((hiUnit 2 8).readReg 1).toNat ≤ 8 ∧
      (hiUnit 2 8).blen 0 ≤ (hiUnit 2 8).caps.bufCap) := by decide

theorem witness_PackCommand :
    32 < (base.setBuf 3 (List.replicate 33 1)).blen 3 ∧ (base.setBuf 3 (List.replicate 32 1)).blen 3 ≤ 32 := by decide

theorem witness_UnpackCommands :
    ((hiUnit 3 7).readReg 1).toNat < 2 ^ 3 ∧ (2 ^ (3 - 1) ≤ ((hiUnit 3 7).readReg 1).toNat) ∧
    (hiUnit 2 7).caps.bufCap < 3 ∧ 3 ≤ (hiUnit 3 7).caps.bufCap ∧
    32 < ((hiUnit 3 33).readReg 1).toNat ∧
    (((hiUnit 31 32).readReg 1).toNat ≤ 32 ∧ (hiUnit 31 32).caps.bufCap < ((hiUnit 31 32).readReg 1).toNat) ∧
    (((hiUnit 32 32).readReg 1).toNat ≤ 32 ∧ ((hiUnit 32 32).readReg 1).toNat ≤ (hiUnit 32 32).caps.bufCap) := by decide

theorem witness_BitCodecRoundTrips :
    (1 ≤ 8 ∧ 8 ≤ 8) ∧ 32 ≤ 32 ∧ (List.replicate 32 (1 : Byte)).length ≤ 32 := by decide

theorem witness_DeflateCommand :
    (∃ s : State, (Config.deflateFn (s.readBuf 0)).length ≤ s.caps.bufCap) ∧
    (hiUnit 6 0).caps.bufCap < (storedDeflate ((hiUnit 6 0).readBuf 0)).length := by
  refine ⟨⟨unit (Config.deflateFn []).length 0 0 0, Nat.le_refl _⟩, by decide +kernel⟩

/-- A running unit with a stored stream of "hi" in B0. -/
def streamUnit (bufCap : Nat) : State := (unit bufCap 0 0 1).setBuf 0 [0x01, 0x02, 0x00, 0xFD, 0xFF, 0x68, 0x69]

theorem witness_InflateCommand :
    inflate ((unit 1 0 0 1).readBuf 0) = none ∧ inflate ((streamUnit 1).readBuf 0) = some [0x68, 0x69] ∧
    (streamUnit 1).caps.bufCap < ([0x68, 0x69] : List Byte).length ∧
    inflate ((streamUnit 2).readBuf 0) = some [0x68, 0x69] ∧
    ([0x68, 0x69] : List Byte).length ≤ (streamUnit 2).caps.bufCap := by decide +kernel

theorem witness_AdoptCommand :
    (hiUnit 2 1).blen 0 ≤ (hiUnit 2 1).caps.bufCap ∧ LawfulCompressor storedDeflate ∧
    ([0x68, 0x69] : List Byte).length ≤ 2 := ⟨by decide, storedDeflate_lawful, by decide⟩

theorem witness_InflateBoundsAndStoredBlocks :
    inflate [0xCB, 0xC8, 0x04, 0x00] = some [0x68, 0x69] ∧ (List.replicate 65535 (0 : Byte)).length < 2 ^ 16 :=
  ⟨by decide +kernel, by simp only [List.length_replicate]; decide⟩

/-- A running unit with a 2 by 3 plane, 6 pixels, and the number 5 in x1. -/
def sixPixels (crdCap planeCap : Nat) : State := ({ unit 8 crdCap planeCap 1 with ph := 2, pw := 3 } : State).writeReg 1 5

theorem witness_PermuteCommands :
    (sixPixels 6 5).caps.planeCap < 2 * 3 ∧ (2 * 3 ≤ (sixPixels 5 6).caps.planeCap ∧ (sixPixels 5 6).caps.crdCap < 2 * 3) ∧
    (2 * 3 ≤ (sixPixels 6 6).caps.planeCap ∧ 2 * 3 ≤ (sixPixels 6 6).caps.crdCap) ∧
    (sixPixels 4 6).caps.crdCap < min ((sixPixels 4 6).readReg 1).toNat (2 * 3) ∧
    min ((sixPixels 5 6).readReg 1).toNat (2 * 3) ≤ (sixPixels 5 6).caps.crdCap ∧
    (sixPixels 5 6).ph.toNat * (sixPixels 5 6).pw.toNat = 2 * 3 := by decide

theorem witness_PermutationListsEveryPixelOnce : 65535 < 2 ^ 16 ∧ (0 : Nat) < 2 * 3 := by decide

/-- A running unit with a plane of three pixels and the given depth in x1. -/
def threePixels (planeCap : Nat) (x1 : Word) : State := withPlane ((unit 4 4 planeCap 1).writeReg 1 x1) 1 3 [7, 8, 9]

theorem witness_OpaCommand :
    ((threePixels 3 0).readReg 1).toNat < 1 ∧ 8 < ((threePixels 3 9).readReg 1).toNat ∧
    (1 ≤ ((threePixels 2 8).readReg 1).toNat ∧ ((threePixels 2 8).readReg 1).toNat ≤ 8 ∧
      (threePixels 2 8).caps.planeCap < (threePixels 2 8).ph.toNat * (threePixels 2 8).pw.toNat) ∧
    (1 ≤ ((threePixels 3 8).readReg 1).toNat ∧ ((threePixels 3 8).readReg 1).toNat ≤ 8 ∧
      (threePixels 3 8).ph.toNat * (threePixels 3 8).pw.toNat ≤ (threePixels 3 8).caps.planeCap ∧
      (threePixels 3 8).pl.wf) := by decide

theorem witness_OpaLaws :
    adjust1 103 100 2 ≠ 103 ∧ adjust1 102 100 2 = 102 ∧ 1 ≤ 2 ∧ 2 ≤ 8 ∧ adjust1 3 0 2 = 3 ∧ adjust1 252 255 2 = 252 := by
  decide

/-- A running unit with "hi" in B0, a filename in B2 and a depth in x1. -/
def headerUnit (bufCap nameLength : Nat) (x1 : Word) : State := (hiUnit bufCap x1).setBuf 2 (List.replicate nameLength 0x61)

theorem witness_HeaderEncodeCommand :
    ((headerUnit 9 1 0).readReg 1).toNat < 1 ∧ 8 < ((headerUnit 9 1 9).readReg 1).toNat ∧
    2 ^ 31 - 1 < ((base.setBuf 0 (List.replicate (2 ^ 31) 0)).writeReg 1 8).blen 0 ∧
    (1 ≤ (((headerUnit 9 256 8)).readReg 1).toNat ∧ (((headerUnit 9 256 8)).readReg 1).toNat ≤ 8 ∧
      (headerUnit 9 256 8).blen 0 ≤ 2 ^ 31 - 1 ∧ 255 < (headerUnit 9 256 8).blen 2) ∧
    ((headerUnit 58 1 2).blen 0 ≤ 2 ^ 31 - 1 ∧ (headerUnit 58 1 2).blen 2 ≤ 255 ∧ (headerUnit 58 1 2).caps.bufCap <
      (headerEncode ((headerUnit 58 1 2).readBuf 0) ((headerUnit 58 1 2).readBuf 2) 2 false).length) ∧
    ((headerUnit 59 1 2).blen 0 ≤ 2 ^ 31 - 1 ∧ (headerUnit 59 1 2).blen 2 ≤ 255 ∧
      (headerEncode ((headerUnit 59 1 2).readBuf 0) ((headerUnit 59 1 2).readBuf 2) 2 false).length ≤
        (headerUnit 59 1 2).caps.bufCap) := by
  refine ⟨by decide, by decide, ?_, by decide +kernel, by decide +kernel, by decide +kernel⟩
  have h (l : List Byte) : ((base.setBuf 0 l).writeReg 1 8).blen 0 = l.length := rfl
  rw [h, List.length_replicate]
  decide

/-- A frame with the one-byte filename 0 and an empty payload, one bit an element. -/
def oneByteName : List Byte := List.replicate 8 0 ++ [1] ++ List.replicate 48 0

theorem witness_HeaderDecodeCommand :
    headerDecode (((unit 1 0 0 1).readBuf 1).map fun e => e.getLsbD 0) = .error ⟨5, 0⟩ ∧
    headerDecode ((((unit 1 0 0 1).setBuf 1 oneByteName).readBuf 1).map fun e => e.getLsbD 0) =
      .ok ⟨0, 1, [0], false, 0, 57⟩ ∧
    (unit 0 0 0 1).caps.bufCap < ([0] : List Byte).length ∧ ([0] : List Byte).length ≤ (unit 1 0 0 1).caps.bufCap := by
  decide

theorem witness_HeaderFieldsStandAtTheirPlaces :
    ([] : List Byte).length ≤ 2 ^ 31 - 1 ∧ (List.replicate 255 (0 : Byte)).length ≤ 255 ∧ 1 ≤ 8 ∧ 8 ≤ 8 := by
  decide +kernel

theorem witness_HeaderDecodeReadsItsFields :
    headerDecode (List.replicate 49 false) = .ok ⟨0, 1, [], false, 0, 49⟩ ∧
    headerDecode (List.replicate 48 false) = .error ⟨49, 48⟩ ∧
    headerDecode (List.replicate 4 false) = .error ⟨5, 4⟩ ∧
    headerDecode (List.replicate 8 false ++ [false, true] ++ List.replicate 13 false) = .error ⟨24, 23⟩ ∧
    headerDecode (List.replicate 8 false ++ [false, true] ++ List.replicate 14 false) = .error ⟨32, 24⟩ ∧
    (List.replicate 2120 true).length = 2120 := by decide +kernel

theorem witness_HeaderRoundTrip :
    (List.replicate (2 ^ 31 - 1) (0 : Byte)).length ≤ 2 ^ 31 - 1 ∧ (List.replicate 255 (0 : Byte)).length ≤ 255 ∧
    1 ≤ 1 ∧ 1 ≤ 8 := ⟨by simp only [List.length_replicate, Nat.le_refl], by decide +kernel, by decide, by decide⟩

theorem witness_CrcDetectsSingleBitChange :
    ([0x68] : List Byte).length = ([0xE8] : List Byte).length ∧ 7 < 8 * ([0x68] : List Byte).length ∧
    ∀ q, q < 8 * ([0x68] : List Byte).length → (bitAt [0x68] q ≠ bitAt [0xE8] q ↔ q = 7) := by decide

theorem witness_ValidationChecksPassOrFault :
    (1 ≤ ((hiUnit 2 1).readReg 1).toNat ∧ ((hiUnit 2 8).readReg 1).toNat ≤ 8) ∧ ((hiUnit 2 0).readReg 1).toNat < 1 ∧
    8 < ((hiUnit 2 9).readReg 1).toNat ∧ ((hiUnit 2 2).readReg 1).getLsbD 0 = false ∧
    ((hiUnit 2 3).readReg 1).getLsbD 0 = true ∧
    ((sixPixels 1 6).readReg 1).toNat + ((sixPixels 1 6).readReg 2).toNat ≤ 2 * 3 ∧
    2 * 3 < ((sixPixels 1 6).readReg 1).toNat + ((sixPixels 1 6).readReg 1).toNat ∧
    crc32 ((hiUnit 2 0xD8932AAC).readBuf 0) = (hiUnit 2 0xD8932AAC).readReg 1 ∧
    crc32 ((hiUnit 2 0).readBuf 0) ≠ (hiUnit 2 0).readReg 1 := by decide +kernel

theorem witness_SnapCommand :
    (threePixels 2 0).caps.planeCap < (threePixels 2 0).ph.toNat * (threePixels 2 0).pw.toNat ∧
    (threePixels 3 0).ph.toNat * (threePixels 3 0).pw.toNat ≤ (threePixels 3 0).caps.planeCap ∧
    (threePixels 3 0).rf.wf := by decide

/-- Three pixels, `C` holding pixels 0 and 2 and a coordinate outside, one element in B0, offset in x2, count in x3. -/
def windowUnit (bufCap planeCap : Nat) (depth off : Word) : State :=
  ({ (threePixels planeCap depth).setBuf 0 [1] with
    coords := [⟨0, 0⟩, ⟨0, 2⟩, ⟨1, 0⟩]
    caps := { bufCap := bufCap, crdCap := 4, planeCap := planeCap, cmdCap := 1 } } : State).writeReg 2 off |>.writeReg 3 1

theorem witness_ScatterCommand :
    ((windowUnit 4 3 0 0).readReg 1).toNat < 1 ∧ 8 < ((windowUnit 4 3 9 0).readReg 1).toNat ∧
    ((windowUnit 4 2 8 0).caps.planeCap < 3) ∧
    (3 ≤ (windowUnit 4 3 8 3).caps.planeCap ∧
      (windowUnit 4 3 8 3).clen < ((windowUnit 4 3 8 3).readReg 2).toNat + (windowUnit 4 3 8 3).blen 0) ∧
    (((windowUnit 4 3 8 2).readReg 2).toNat + (windowUnit 4 3 8 2).blen 0 ≤ (windowUnit 4 3 8 2).clen ∧
      ¬(((windowUnit 4 3 8 2).coords.getD 2 ⟨0, 0⟩).row.toNat < (windowUnit 4 3 8 2).ph.toNat)) ∧
    (((windowUnit 4 3 8 1).readReg 2).toNat + (windowUnit 4 3 8 1).blen 0 ≤ (windowUnit 4 3 8 1).clen ∧
      (∀ i, i < (windowUnit 4 3 8 1).blen 0 →
        ((windowUnit 4 3 8 1).coords.getD (1 + i) ⟨0, 0⟩).row.toNat < (windowUnit 4 3 8 1).ph.toNat ∧
        ((windowUnit 4 3 8 1).coords.getD (1 + i) ⟨0, 0⟩).col.toNat < (windowUnit 4 3 8 1).pw.toNat) ∧
      (windowUnit 4 3 8 1).pl.wf) := by decide

theorem witness_GatherCommand :
    ((windowUnit 4 3 0 0).readReg 1).toNat < 1 ∧ 8 < ((windowUnit 4 3 9 0).readReg 1).toNat ∧
    ((windowUnit 4 2 8 0).caps.planeCap < 3) ∧
    ((windowUnit 4 3 8 3).clen < ((windowUnit 4 3 8 3).readReg 2).toNat + ((windowUnit 4 3 8 3).readReg 3).toNat) ∧
    (((windowUnit 4 3 8 2).readReg 2).toNat + ((windowUnit 4 3 8 2).readReg 3).toNat ≤ (windowUnit 4 3 8 2).clen ∧
      ¬(((windowUnit 4 3 8 2).coords.getD 2 ⟨0, 0⟩).row.toNat < (windowUnit 4 3 8 2).ph.toNat)) ∧
    (((windowUnit 0 3 8 1).readReg 2).toNat + ((windowUnit 0 3 8 1).readReg 3).toNat ≤ (windowUnit 0 3 8 1).clen ∧
      ((windowUnit 0 3 8 1).coords.getD 1 ⟨0, 0⟩).col.toNat < (windowUnit 0 3 8 1).pw.toNat ∧
      (windowUnit 0 3 8 1).caps.bufCap < ((windowUnit 0 3 8 1).readReg 3).toNat) ∧
    ((windowUnit 1 3 8 1).readReg 3).toNat ≤ (windowUnit 1 3 8 1).caps.bufCap := by decide

/-- A running unit with a plane of `h` by 7 pixels, an empty secret, a filename of the given length, and depth and flags. -/
def embedUnit (h : Half) (planeCap nameLength : Nat) (depth flags : Word) : State :=
  ({ unit 300 1 planeCap 1 with ph := h, pw := 7 } : State).setBuf 1 (List.replicate nameLength 0x61) |>.writeReg 1 depth
    |>.writeReg 2 flags

theorem witness_EmbedCommand :
    ((embedUnit 7 49 0 0 0).readReg 1).toNat < 1 ∧ 8 < ((embedUnit 7 49 0 9 0).readReg 1).toNat ∧
    ((embedUnit 7 49 0 8 2).readReg 2).getLsbD 1 = true ∧
    (((embedUnit 7 48 0 8 0).readReg 2).getLsbD 1 = false ∧ (embedUnit 7 48 0 8 0).caps.planeCap < 7 * 7) ∧
    (2 ^ 31 - 1 < (adopt Config.deflateFn (List.replicate (2 ^ 31) 0) (((embedUnit 7 49 0 8 0).readReg 2).getLsbD 0)).1.length) ∧
    ((adopt Config.deflateFn ((embedUnit 7 49 256 8 0).readBuf 0) (((embedUnit 7 49 256 8 0).readReg 2).getLsbD 0)).1.length ≤
      2 ^ 31 - 1 ∧ 255 < (embedUnit 7 49 256 8 0).blen 1) ∧
    ((embedUnit 7 49 1 8 0).blen 1 ≤ 255 ∧
      7 * 7 < (headerEncode (adopt Config.deflateFn ((embedUnit 7 49 1 8 0).readBuf 0) false).1
        ((embedUnit 7 49 1 8 0).readBuf 1) 8 false).length) ∧
    ((embedUnit 7 49 0 8 0).blen 1 ≤ 255 ∧
      (headerEncode (adopt Config.deflateFn ((embedUnit 7 49 0 8 0).readBuf 0) false).1
        ((embedUnit 7 49 0 8 0).readBuf 1) 8 false).length +
      (bytesToGroups (adopt Config.deflateFn ((embedUnit 7 49 0 8 0).readBuf 0) false).1 8).length ≤ 7 * 7 ∧
      7 * 7 ≤ (embedUnit 7 49 0 8 0).caps.planeCap ∧ (embedUnit 7 49 0 8 0).pl.wf ∧ (embedUnit 7 49 0 8 0).rf.wf) := by
  refine ⟨by decide, by decide, by decide, by decide, ?_, by decide +kernel, by decide +kernel, by decide +kernel⟩
  have h : ((embedUnit 7 49 0 8 0).readReg 2).getLsbD 0 = false := by decide
  simp only [h, adopt, Bool.false_eq_true, false_and, if_false, List.length_replicate]
  decide

/-- EXTRACT from 49 zero pixels, and from 57 whose frame announces one filename byte. -/
theorem witness_ExtractCommand :
    (embedUnit 7 48 0 0 0).caps.planeCap < 7 * 7 ∧
    extractPlane ((embedUnit 0 0 0 0 0).pl.readAll 0) 0 7 [] = .error (.headerTruncated 5 0) ∧
    extractPlane ((embedUnit 7 49 0 0 0).pl.readAll 49) 7 7 [] = .ok ⟨[], [], 0, 1, false, 0, 49⟩ ∧
    ([] : List Byte).length ≤ (embedUnit 7 49 0 0 0).caps.bufCap ∧
    extractPlane oneByteName 3 19 [] = .ok ⟨[], [0], 0, 1, false, 0, 57⟩ ∧
    ([] : List Byte).length ≤ 0 ∧ 0 < ([0] : List Byte).length := by decide +kernel

/-- A row of pixels whose frame, at depth 1, announces a payload of one byte under no name: its compression flag, the bits of
its checksum and the pixels after the frame are given. -/
def announcePlane (flag : Byte) (crc rest : List Byte) : List Byte :=
  [1, 0, 0, 0, 0, 1] ++ List.replicate 11 0 ++ [flag] ++ crc ++ rest

/-- The row of 58 pixels that carries the byte 0 with its checksum. -/
def oneBytePlane : List Byte := announcePlane 0 ((unpackWidth 0xD202EF8D 32).map elemOfBit) (List.replicate 8 0)

/-- The fourth clause's state: data that does not fit. -/
theorem witness_ExtractCommand_data_overflow :
    extractPlane oneBytePlane 1 58 [] = .ok ⟨[0], [], 1, 1, false, 0xD202EF8D, 50⟩ ∧ 0 < ([0] : List Byte).length := by
  decide +kernel

/-- Each failure in turn, the overrun on both sides of its boundary, and the record. -/
theorem witness_ExtractPlaneFailsInOrder :
    extractPlane (List.replicate 48 0) 1 48 [] = .error (.headerTruncated 49 48) ∧
    extractPlane (announcePlane 0 (List.replicate 32 0) (List.replicate 7 0)) 1 57 [] =
      .error (.integrityFailure 0 (2 ^ 32)) ∧
    extractPlane (announcePlane 0 (List.replicate 32 0) (List.replicate 8 0)) 1 58 [] =
      .error (.integrityFailure 0 0xD202EF8D) ∧
    extractPlane (announcePlane 1 ((unpackWidth 0xD202EF8D 32).map elemOfBit) (List.replicate 8 0)) 1 58 [] =
      .error (.inflateError 1) ∧
    extractPlane oneBytePlane 1 58 [] = .ok ⟨[0], [], 1, 1, false, 0xD202EF8D, 50⟩ := by decide +kernel

theorem witness_EmbedExtractRoundTrip :
    LawfulCompressor storedDeflate ∧ (7 : Nat) < 2 ^ 16 ∧ (List.replicate 49 (255 : Byte)).length = 7 * 7 ∧
    ([] : List Byte).length ≤ 255 ∧
    embedPlane storedDeflate (List.replicate 49 255) 7 7 [] [] [] 1 true = .ok (List.replicate 49 254) :=
  ⟨storedDeflate_lawful, by decide, by decide, by decide, by decide +kernel⟩

theorem witness_FlippedPayloadBitIsCaught :
    (58 : Nat) < 2 ^ 16 ∧ (List.replicate 58 (0 : Byte)).length = 1 * 58 ∧
    embedPlane storedDeflate (List.replicate 58 0) 1 58 [0] [] [] 1 true = .ok oneBytePlane ∧ 0 < 1 ∧
    7 * 1 + 0 < 8 * (adopt storedDeflate [0] true).1.length := by decide +kernel

theorem witness_EmbedMovesPixelsLittle :
    (58 : Nat) < 2 ^ 16 ∧ (List.replicate 58 (0 : Byte)).length = 1 * 58 ∧
    embedPlane storedDeflate (List.replicate 58 0) 1 58 [0] [] [] 1 true = .ok oneBytePlane ∧ 50 < 1 * 58 ∧
    (∀ c ∈ permute 1 58 [] 57, c.index 58 ≠ 57) := by decide +kernel

/-- A running unit with one secret byte, a plane of 9 by 7 pixels, the depth 2 and no compression. -/
def leafSource : State :=
  ({ unit 300 64 63 1 with ph := 9, pw := 7, pl := [(0, 100), (50, 100), (51, 103), (52, 97), (53, 100)] } : State).setBuf 0 [0x1B]
    |>.writeReg 1 2

/-- The leaf program's start: the header bits in B1, the four groups in B2, and `C`, for EMBED of B0 under an empty name and
an empty password. -/
def leafUnit : State :=
  ({ leafSource with coords := permute 9 7 [] 54 } : State).setBuf 1 ((headerEncode [0x1B] [] 2 false).map elemOfBit)
    |>.setBuf 2 [3, 2, 1, 0] |>.writeReg 3 1 |>.writeReg 4 50

theorem witness_LeafCommandsEqualEmbed :
    leafSource.Inv ∧ leafSource.runState = .running ∧
    (after (.embed 0 3 3 1 2) leafSource (·.runState) = some .running) ∧
    adopt Config.deflateFn (leafSource.readBuf 0) ((leafSource.readReg 2).getLsbD 0) = ([0x1B], false) ∧
    leafUnit = { leafSource with x := leafUnit.x, bufs := leafUnit.bufs, coords := leafUnit.coords } ∧
    leafUnit.readBuf 1 = (headerEncode [0x1B] (leafSource.readBuf 3) (leafSource.readReg 1).toNat false).map
      (fun b => if b then 1 else 0) ∧
    leafUnit.readBuf 2 = bytesToGroups [0x1B] (leafSource.readReg 1).toNat ∧
    leafUnit.coords = permute leafSource.ph.toNat leafSource.pw.toNat (leafSource.readBuf 3)
      (leafUnit.blen 1 + leafUnit.blen 2) ∧
    leafUnit.readReg 3 = 1 ∧ leafUnit.readReg 5 = 0 ∧ leafUnit.readReg 1 = leafSource.readReg 1 ∧
    (leafUnit.readReg 4).toNat = leafUnit.blen 1 := by
  refine ⟨by decide +kernel, by decide, by decide +kernel, by decide, by decide +kernel, by decide +kernel, by decide +kernel,
    by decide +kernel, by decide, by decide, by decide, by decide +kernel⟩

theorem witness_RegisterCommandsAndChecksKeepTheRest :
    (∃ t, exec (.li 1 7) base = .next t ∧ t.runState = .running) ∧
    (∃ t, exec (.vlsb 1) (base.writeReg 1 8) = .next t ∧ t.runState = .running) ∧
    (∃ t, exec .halt base = .next t ∧ t.runState = .done) := ⟨⟨_, rfl, rfl⟩, ⟨_, rfl, rfl⟩, ⟨_, rfl, rfl⟩⟩

theorem witness_BufferCommandsKeepTheRest :
    ∃ t, exec (.b2g 1 0 1) (hiUnit 6 3) = .next t ∧ t.runState = .running := ⟨_, rfl, rfl⟩

theorem witness_MixedCommandsKeepTheRest :
    (∃ t, exec (.cadopt 1 0 2 3) (hiUnit 6 3) = .next t ∧ t.runState = .running) ∧
    (∃ t, exec (.hdec 2 1 8) (base.setBuf 1 oneByteName) = .next t ∧ t.runState = .running) ∧
    (∃ t, exec (.extract 2 1 3 8) (embedUnit 7 49 0 0 0) = .next t ∧ t.runState = .running) ∧
    (∃ t, exec (.perm 0) (sixPixels 6 6) = .next t ∧ t.runState = .running) := by
  refine ⟨⟨_, rfl, by decide⟩, ⟨_, rfl, by decide⟩, ⟨_, rfl, by decide +kernel⟩, ⟨_, rfl, by decide⟩⟩

theorem witness_PlaneCommandsKeepTheRest :
    (threePixels 3 8).pl.wf ∧ (threePixels 3 8).rf.wf ∧ (embedUnit 7 49 0 8 0).pl.wf ∧ (windowUnit 4 3 8 1).rf.wf ∧
    (∃ t, exec .snap (threePixels 3 8) = .next t ∧ t.runState = .running) ∧
    (∃ t, exec (.opa 1) (threePixels 3 8) = .next t ∧ t.runState = .running) ∧
    (∃ t, exec (.embed 0 1 0 1 2) (embedUnit 7 49 0 8 0) = .next t ∧ t.runState = .running) ∧
    (∃ t, exec (.scat 0 1 2) (windowUnit 4 3 8 1) = .next t ∧ t.runState = .running) := by
  refine ⟨by decide, by decide, by decide, by decide, ⟨_, rfl, by decide⟩, ⟨_, rfl, by decide⟩, ⟨_, rfl, by decide +kernel⟩,
    ⟨_, rfl, by decide⟩⟩

end Sys2Proof.Tests
end

section
/-! Proofs, `00_scope.md`: reading back registers and buffers, the reset state, and the frames of the commands that write one
register, one buffer, or nothing. -/

namespace Sys2Proof.Machine

/-! ### Five result registers -/

/-- A register is the one a base names exactly when its number is the base's number plus the offset (rule R72). -/
theorem eq_baseReg_iff (q : Reg) (b : Base5) (k : Fin 5) : q = baseReg b k ↔ q.val = b.val + k.val := Fin.ext_iff

/-- Settles O13: `q` is one of the five registers the base names, or none of them. -/
theorem registersAndBuffersReadWhatWasWritten : Obligations.RegistersAndBuffersReadWhatWasWritten := by
  refine ⟨State.readReg_writeReg, State.readBuf_setBuf, fun s b v0 v1 v2 v3 v4 q => ?_⟩
  by_cases hq : ∃ k, q = baseReg b k
  · obtain ⟨k, rfl⟩ := hq
    refine (s.readReg_writeRegs5 b ![v0, v1, v2, v3, v4] k).trans ?_
    fin_cases k <;> simp [baseReg]
  · have hne : ∀ k : Fin 5, q.val ≠ b.val + k.val := fun k h => hq ⟨k, (eq_baseReg_iff q b k).2 h⟩
    obtain ⟨h0, h1, h2, h3, h4⟩ : q.val ≠ b.val ∧ q.val ≠ b.val + 1 ∧ q.val ≠ b.val + 2 ∧ q.val ≠ b.val + 3 ∧
        q.val ≠ b.val + 4 := ⟨hne 0, hne 1, hne 2, hne 3, hne 4⟩
    rw [if_neg h0, if_neg h1, if_neg h2, if_neg h3, if_neg h4]
    exact s.readReg_writeRegs5_ne b v0 v1 v2 v3 v4 q fun k h => hq ⟨k, h⟩

/-! ### The reset state (rules R5, R38) -/

/-- The OPEN capacities lie in the ranges of rule R5: their types carry the bounds. -/
theorem capacities_lawful : Config.capacities.Lawful := by
  have hbuf := Config.bufCapPred.isLt
  have hcrd := Config.crdCapPred.isLt
  have hplane := Config.planeCapPred.isLt
  have hcmd := Config.cmdCapPred.isLt
  simp only [Capacities.Lawful, Config.capacities]
  omega

@[simp] theorem State.resetWith_readBuf (c : Capacities) (b : Buf) : (State.resetWith c).readBuf b = [] := by
  simp [State.readBuf, State.resetWith]

@[simp] theorem State.resetWith_blen (c : Capacities) (b : Buf) : (State.resetWith c).blen b = 0 := by
  simp [State.blen]

theorem State.resetWith_spacesFit (c : Capacities) : (State.resetWith c).SpacesFit := by
  refine ⟨fun b => ?_, Nat.zero_le _, ?_, ?_, ?_⟩
  · simp
  · exact ⟨Memory.wf_nil, Memory.below_nil _⟩
  · exact ⟨Memory.wf_nil, Memory.below_nil _⟩
  · exact ⟨Memory.wf_nil, Memory.below_nil _⟩

theorem State.resetWith_inv {c : Capacities} (hc : c.Lawful) : (State.resetWith c).Inv :=
  ⟨hc, State.resetWith_spacesFit c, nofun, fun _ => ⟨rfl, rfl, rfl, rfl⟩⟩

/-- Settles O20: the reset state of any lawful capacities meets `Inv`, and the OPEN ones are lawful. -/
theorem resetMeetsTheInvariant : Obligations.ResetMeetsTheInvariant :=
  ⟨State.resetWith_inv capacities_lawful, fun _ => State.resetWith_inv⟩

/-! ### What a command's effect may complete with -/

/-- If the effect of a command raises no fault, the state it leaves, before `cp` moves, meets `P`. -/
def CompletesIn (P : State → Prop) (e : Except Fault State) : Prop := ∀ u, e = .ok u → P u

theorem CompletesIn.ok {P : State → Prop} {u : State} (h : P u) : CompletesIn P (.ok u) := by
  rintro _ ⟨⟩
  exact h

theorem CompletesIn.error {P : State → Prop} (f : Fault) : CompletesIn P (.error f) := nofun

/-- Whatever is checked or computed first, only the rest of the sequence completes it. -/
theorem CompletesIn.bind {α : Type} {P : State → Prop} {x : Except Fault α} {k : α → Except Fault State}
    (h : ∀ a, x = .ok a → CompletesIn P (k a)) : CompletesIn P (x >>= k) := by
  intro u hu
  obtain ⟨a, hx, ha⟩ := except_bind_eq_ok.1 hu
  exact h a hx u ha

/-- A command whose effect completes only in `P` enters a fault, or ends in such a state with `cp + 1` (rules R270,
R304). -/
theorem CompletesIn.finish_cases {P : State → Prop} {e : Except Fault State} (h : CompletesIn P e) {s t : State}
    (ht : s.finish e = .next t) : (∃ f, t = s.takeFault f) ∨ ∃ u, P u ∧ t = u.advance := by
  obtain ⟨u, hu, rfl⟩ | ⟨f, -, rfl⟩ := State.finish_eq_next.1 ht
  · exact .inr ⟨u, h u hu, rfl⟩
  · exact .inl ⟨f, rfl⟩

/-- `u` is `s` with a sequence that fits in buffer `b` and nothing else changed. -/
def State.SetsOnlyBuf (s : State) (b : Buf) (u : State) : Prop :=
  ∃ l : List Byte, l.length ≤ s.caps.bufCap ∧ u = s.setBuf b l

/-- `u` is `s` with a value in register `r` and nothing else changed. -/
def State.SetsOnlyReg (s : State) (r : Reg) (u : State) : Prop := ∃ v, u = s.writeReg r v

theorem State.completesIn_writeBuf (s : State) (b : Buf) (l : List Byte) :
    CompletesIn (s.SetsOnlyBuf b) (s.writeBuf b l) := fun _ hu => ⟨l, State.writeBuf_eq_ok.1 hu⟩

theorem State.completesIn_writeReg (s : State) (r : Reg) (v : Word) :
    CompletesIn (s.SetsOnlyReg r) (.ok (s.writeReg r v)) := .ok ⟨v, rfl⟩

/-! ### Which commands write one buffer, one register or nothing -/

/-- The commands whose one destination is the element buffer given. -/
inductive WritesOneBuf : Instr → Buf → Prop
  | b2g (bd bs : Buf) (xg : Reg) : WritesOneBuf (.b2g bd bs xg) bd
  | g2b (bd bs : Buf) (xg : Reg) : WritesOneBuf (.g2b bd bs xg) bd
  | unpk (bd : Buf) (xs : Reg) : WritesOneBuf (.unpk bd xs) bd
  | unpkw (bd : Buf) (xs xw : Reg) : WritesOneBuf (.unpkw bd xs xw) bd
  | defl (bd bs : Buf) : WritesOneBuf (.defl bd bs) bd
  | infl (bd bs : Buf) : WritesOneBuf (.infl bd bs) bd
  | henc (bd bs bf : Buf) (xl xc : Reg) : WritesOneBuf (.henc bd bs bf xl xc) bd
  | gath (bd : Buf) (xk xo xn : Reg) : WritesOneBuf (.gath bd xk xo xn) bd

/-- The commands whose one destination is the register given. -/
inductive WritesOneReg : Instr → Reg → Prop
  | li (xd : Reg) (imm : Half) : WritesOneReg (.li xd imm) xd
  | lui (xd : Reg) (imm : Half) : WritesOneReg (.lui xd imm) xd
  | blen (xd : Reg) (bs : Buf) : WritesOneReg (.blen xd bs) xd
  | pack (xd : Reg) (bs : Buf) : WritesOneReg (.pack xd bs) xd
  | seed (xd : Reg) (bp : Buf) : WritesOneReg (.seed xd bp) xd
  | crc (xd : Reg) (bs : Buf) : WritesOneReg (.crc xd bs) xd

/-- The checks of the validation unit, which have no destination (rule R230). -/
inductive IsCheck : Instr → Prop
  | vlsb (xs : Reg) : IsCheck (.vlsb xs)
  | vfmt (xs : Reg) : IsCheck (.vfmt xs)
  | vcap (xh xp : Reg) : IsCheck (.vcap xh xp)
  | vcrc (bs : Buf) (xs : Reg) : IsCheck (.vcrc bs xs)

/-- A command with one destination buffer ends, after its checks, in the write of that buffer. -/
theorem WritesOneBuf.exec_effect {i : Instr} {bd : Buf} (hi : WritesOneBuf i bd) (s : State) :
    ∃ e, exec i s = s.finish e ∧ CompletesIn (s.SetsOnlyBuf bd) e := by
  cases hi with
  | b2g | g2b | unpkw => exact ⟨_, rfl, .bind fun _ _ => s.completesIn_writeBuf bd _⟩
  | unpk | defl => exact ⟨_, rfl, s.completesIn_writeBuf bd _⟩
  | infl =>
    refine ⟨_, rfl, ?_⟩
    split
    · exact .error _
    · exact s.completesIn_writeBuf bd _
  | henc => exact ⟨_, rfl, .bind fun _ _ => .bind fun _ _ => .bind fun _ _ => s.completesIn_writeBuf bd _⟩
  | gath =>
    exact ⟨_, rfl, .bind fun _ _ => .bind fun _ _ => .bind fun _ _ => .bind fun _ _ => s.completesIn_writeBuf bd _⟩

/-- A command with one destination register ends in the write of that register; PACK alone checks something first. -/
theorem WritesOneReg.exec_effect {i : Instr} {xd : Reg} (hi : WritesOneReg i xd) (s : State) :
    ∃ e, exec i s = s.finish e ∧ CompletesIn (s.SetsOnlyReg xd) e := by
  cases hi with
  | li | lui | blen | seed | crc => exact ⟨_, rfl, s.completesIn_writeReg xd _⟩
  | pack => exact ⟨_, rfl, .bind fun _ _ => s.completesIn_writeReg xd _⟩

/-- A check that passes leaves the state it was given (rule R230). -/
theorem IsCheck.exec_effect {i : Instr} (hi : IsCheck i) (s : State) :
    ∃ e, exec i s = s.finish e ∧ CompletesIn (· = s) e := by
  cases hi with
  | vlsb | vfmt | vcap | vcrc => exact ⟨_, rfl, .bind fun _ _ => .ok rfl⟩

/-- A command with one destination buffer enters a fault, or stores a sequence that fits there and moves on. -/
theorem WritesOneBuf.exec_cases {i : Instr} {bd : Buf} (hi : WritesOneBuf i bd) {s t : State} (h : exec i s = .next t) :
    (∃ f, t = s.takeFault f) ∨ ∃ l : List Byte, l.length ≤ s.caps.bufCap ∧ t = (s.setBuf bd l).advance := by
  obtain ⟨e, he, hw⟩ := hi.exec_effect s
  obtain hf | ⟨_, ⟨l, hl, rfl⟩, rfl⟩ := hw.finish_cases (he ▸ h)
  · exact .inl hf
  · exact .inr ⟨l, hl, rfl⟩

/-- A command with one destination register enters a fault, or writes a value there and moves on. -/
theorem WritesOneReg.exec_cases {i : Instr} {xd : Reg} (hi : WritesOneReg i xd) {s t : State} (h : exec i s = .next t) :
    (∃ f, t = s.takeFault f) ∨ ∃ v, t = (s.writeReg xd v).advance := by
  obtain ⟨e, he, hw⟩ := hi.exec_effect s
  obtain hf | ⟨_, ⟨v, rfl⟩, rfl⟩ := hw.finish_cases (he ▸ h)
  · exact .inl hf
  · exact .inr ⟨v, rfl⟩

/-- A check enters its fault, or only moves on. -/
theorem IsCheck.exec_cases {i : Instr} (hi : IsCheck i) {s t : State} (h : exec i s = .next t) :
    (∃ f, t = s.takeFault f) ∨ t = s.advance := by
  obtain ⟨e, he, hw⟩ := hi.exec_effect s
  obtain hf | ⟨_, rfl, rfl⟩ := hw.finish_cases (he ▸ h)
  · exact .inl hf
  · exact .inr rfl

/-- HALT moves nothing but the run state (rule R271). -/
theorem exec_halt_eq_next {s t : State} : exec .halt s = .next t ↔ t = { s with runState := .done } := by
  simp [exec, execHalt, eq_comm]

/-! ### Frames (rules R9, R304) -/

theorem State.sameControl_refl (s : State) : s.SameControl s := by
  simp [State.SameControl]

/-- Moving `cp` on changes no control state, whatever the state before it. -/
theorem State.sameControl_advance {s u : State} (h : s.SameControl u) : s.SameControl u.advance := h

theorem State.sameControl_writeReg (s : State) (r : Reg) (v : Word) : s.SameControl (s.writeReg r v) := by
  simp [State.SameControl]

theorem State.sameControl_setBuf (s : State) (b : Buf) (l : List Byte) : s.SameControl (s.setBuf b l) := by
  simp [State.SameControl]

theorem State.frameOffPlane_advance (s : State) : s.FrameOffPlane s.advance (fun _ => False) (fun _ => False) :=
  ⟨rfl, State.sameControl_advance s.sameControl_refl, fun _ _ => rfl, fun _ _ => rfl, fun _ => rfl, fun _ => rfl⟩

theorem State.frameOffPlane_writeReg (s : State) (r : Reg) (v : Word) :
    s.FrameOffPlane (s.writeReg r v).advance (fun q => q = r) (fun _ => False) :=
  ⟨rfl, State.sameControl_advance (s.sameControl_writeReg r v), fun _ hq => s.readReg_writeReg_ne hq v, fun _ _ => rfl,
    fun _ => rfl, fun _ => rfl⟩

theorem State.frameOffPlane_setBuf (s : State) (b : Buf) (l : List Byte) :
    s.FrameOffPlane (s.setBuf b l).advance (fun _ => False) (fun c => c = b) :=
  ⟨rfl, State.sameControl_advance (s.sameControl_setBuf b l), fun _ _ => rfl, fun _ hc => s.readBuf_setBuf_ne hc l,
    fun _ => rfl, fun _ => rfl⟩

/-- Settles O56: each command's cases leave one state update, and each update has its frame. -/
theorem registerCommandsAndChecksKeepTheRest : Obligations.RegisterCommandsAndChecksKeepTheRest := by
  refine ⟨fun i xd s t hi h => ?registers, fun i s t hi h => ?checks, fun s t h => ?halt⟩
  case registers =>
    have hw : WritesOneReg i xd := by
      obtain ⟨_, rfl⟩ | ⟨_, rfl⟩ | ⟨_, rfl⟩ | ⟨_, rfl⟩ | ⟨_, rfl⟩ | ⟨_, rfl⟩ := hi <;> constructor
    obtain hf | ⟨v, rfl⟩ := hw.exec_cases h
    · exact .inl hf
    · exact .inr ⟨s.frameOffPlane_writeReg xd v, rfl⟩
  case checks =>
    have hc : IsCheck i := by
      obtain ⟨_, rfl⟩ | ⟨_, rfl⟩ | ⟨_, _, rfl⟩ | ⟨_, _, rfl⟩ := hi <;> constructor
    obtain hf | rfl := hc.exec_cases h
    · exact .inl hf
    · exact .inr ⟨s.frameOffPlane_advance, rfl⟩
  case halt =>
    obtain rfl := exec_halt_eq_next.1 h
    exact ⟨rfl, rfl⟩

/-- Settles O57: a command with one destination buffer only replaces that buffer, and that update has its frame. -/
theorem bufferCommandsKeepTheRest : Obligations.BufferCommandsKeepTheRest := by
  intro i bd s t hi h
  have hw : WritesOneBuf i bd := by
    obtain ⟨_, _, rfl⟩ | ⟨_, _, rfl⟩ | ⟨_, rfl⟩ | ⟨_, _, rfl⟩ | ⟨_, rfl⟩ | ⟨_, rfl⟩ | ⟨_, _, _, _, rfl⟩ |
      ⟨_, _, _, rfl⟩ := hi <;> constructor
  obtain hf | ⟨l, -, rfl⟩ := hw.exec_cases h
  · exact .inl hf
  · exact .inr ⟨s.frameOffPlane_setBuf bd l, rfl⟩

end Sys2Proof.Machine
end

section
/-! Proofs, `10_state.md`: the invariant under the unit's steps and the host's actions, what a step does to `cp` and what a
fault leaves, and the control registers as the host reads and writes them. -/

namespace Sys2Proof.Machine

/-! ### Sequences and coordinates that stay inside a plane -/

@[simp] theorem State.length_plPixels (s : State) : s.plPixels.length = s.pixels := by
  simp [State.plPixels]

@[simp] theorem State.length_rfPixels (s : State) : s.rfPixels.length = s.pixels := by
  simp [State.rfPixels]

@[simp] theorem length_adjust (M O : List Byte) (k : Nat) : (adjust M O k).length = min M.length O.length := by
  simp [adjust]

theorem length_substAll (w k : Nat) (cvs : List (Coord × Byte)) (Q : List Byte) :
    (substAll w k cvs Q).length = Q.length := by
  induction cvs generalizing Q with
  | nil => rfl
  | cons cv cvs ih => simp [substAll, ih]

theorem length_embedSlots (P : List Byte) (H W : Nat) (password : List Byte) (lsb : Nat) (hb : List Bool)
    (G : List Byte) : (embedSlots P H W password lsb hb G).length = P.length := by
  simp only [embedSlots]
  split <;> simp [length_substAll]

/-- A plane EMBED answers has the size of the plane it was given (rule R246). -/
theorem length_of_embedPlane_eq_ok {D : List Byte → List Byte} {P : List Byte} {H W : Nat}
    {secret filename password : List Byte} {lsb : Nat} {req : Bool} {Q : List Byte}
    (h : embedPlane D P H W secret filename password lsb req = .ok Q) : Q.length = P.length := by
  obtain ⟨_, -, h⟩ := except_bind_eq_ok.1 h
  obtain ⟨_, -, h⟩ := except_bind_eq_ok.1 h
  obtain rfl := Except.ok.inj h
  exact length_embedSlots ..

/-- A pixel inside a plane has an index below the number of pixels (rules R31, R35). -/
theorem Coord.index_lt {c : Coord} {h w : Nat} (hrow : c.row.toNat < h) (hcol : c.col.toNat < w) :
    c.index w < h * w := by
  have hrows : (c.row.toNat + 1) * w ≤ h * w := Nat.mul_le_mul_right w hrow
  rw [Nat.succ_mul] at hrows
  simp only [Coord.index]
  omega

/-! ### Writes of a space keep it in its capacity and in canonical form (rules R32 to R36, R50) -/

/-- Every write of SCAT to an element of the plane keeps the plane's memory fit. -/
theorem scatter_fits {w k cap : Nat} {cvs : List (Coord × Byte)} {m : Memory 8} (hm : m.wf ∧ m.below cap)
    (hin : ∀ cv ∈ cvs, cv.1.index w < cap) : (scatter w k cvs m).wf ∧ (scatter w k cvs m).below cap := by
  induction cvs generalizing m with
  | nil => exact hm
  | cons cv cvs ih =>
    obtain ⟨hwf, hbelow⟩ := hm
    obtain ⟨hhead, htail⟩ := List.forall_mem_cons.1 hin
    exact ih ⟨Memory.wf_write hwf _ _, Memory.below_write hbelow hhead _⟩ htail

theorem State.SpacesFit.plane {s : State} (h : s.SpacesFit) (p : PlaneId) :
    (s.plane p).wf ∧ (s.plane p).below s.caps.planeCap := by
  obtain ⟨-, -, hpl, hrf, -⟩ := h
  cases p with
  | pl => exact hpl
  | rf => exact hrf

/-- A sequence written from the start of a plane memory that has room for it. -/
theorem State.SpacesFit.plane_writeAll {s : State} (h : s.SpacesFit) (p : PlaneId) {l : List Byte}
    (hl : l.length ≤ s.caps.planeCap) :
    ((s.plane p).writeAll 0 l).wf ∧ ((s.plane p).writeAll 0 l).below s.caps.planeCap := by
  obtain ⟨hwf, hbelow⟩ := h.plane p
  exact ⟨Memory.wf_writeAll hwf 0 l, Memory.below_writeAll hbelow (by omega)⟩

theorem State.SpacesFit.commands {s : State} (h : s.SpacesFit) : s.cm.wf ∧ s.cm.below s.caps.cmdCap := by
  obtain ⟨-, -, -, -, hcm⟩ := h
  exact hcm

theorem State.SpacesFit.setBuf {s : State} (h : s.SpacesFit) (b : Buf) {l : List Byte} (hl : l.length ≤ s.caps.bufCap) :
    (s.setBuf b l).SpacesFit := by
  obtain ⟨hbufs, hrest⟩ := h
  refine ⟨fun c => ?_, hrest⟩
  rw [State.blen_setBuf]
  split
  · exact hl
  · exact hbufs c

theorem State.SpacesFit.setCoords {s : State} (h : s.SpacesFit) {l : List Coord} (hl : l.length ≤ s.caps.crdCap) :
    ({ s with coords := l } : State).SpacesFit := by
  obtain ⟨hbufs, -, hmems⟩ := h
  exact ⟨hbufs, hl, hmems⟩

theorem State.SpacesFit.setPlane {s : State} (h : s.SpacesFit) (p : PlaneId) {m : Memory 8}
    (hm : m.wf ∧ m.below s.caps.planeCap) : (s.setPlane p m).SpacesFit := by
  obtain ⟨hbufs, hcoords, hpl, hrf, hcm⟩ := h
  cases p with
  | pl => exact ⟨hbufs, hcoords, hm, hrf, hcm⟩
  | rf => exact ⟨hbufs, hcoords, hpl, hm, hcm⟩

theorem State.SpacesFit.setCm {s : State} (h : s.SpacesFit) {m : Memory 32} (hm : m.wf ∧ m.below s.caps.cmdCap) :
    ({ s with cm := m } : State).SpacesFit := by
  obtain ⟨hbufs, hcoords, hpl, hrf, -⟩ := h
  exact ⟨hbufs, hcoords, hpl, hrf, hm⟩

/-! ### What a command that raises no fault leaves, before `cp` moves -/

/-- The control state and `cp` stand, and spaces that fit still fit. -/
structure State.EffectFrame (s u : State) : Prop where
  control : s.SameControl u
  cp : u.cp = s.cp
  fits : s.SpacesFit → u.SpacesFit

theorem State.EffectFrame.refl (s : State) : s.EffectFrame s := ⟨s.sameControl_refl, rfl, id⟩

theorem State.EffectFrame.trans {s t u : State} (hst : s.EffectFrame t) (htu : t.EffectFrame u) : s.EffectFrame u where
  control := by
    have h1 := hst.control
    have h2 := htu.control
    simp only [State.SameControl] at h1 h2 ⊢
    simp only [h2, h1, and_self]
  cp := htu.cp.trans hst.cp
  fits := htu.fits ∘ hst.fits

theorem State.effectFrame_writeReg (s : State) (r : Reg) (v : Word) : s.EffectFrame (s.writeReg r v) :=
  ⟨s.sameControl_writeReg r v, rfl, id⟩

theorem State.effectFrame_writeRegs5 (s : State) (b : Base5) (v0 v1 v2 v3 v4 : Word) :
    s.EffectFrame (s.writeRegs5 b v0 v1 v2 v3 v4) :=
  ⟨by simp [State.SameControl], rfl, id⟩

theorem State.effectFrame_setBuf {s : State} (b : Buf) {l : List Byte} (hl : l.length ≤ s.caps.bufCap) :
    s.EffectFrame (s.setBuf b l) :=
  ⟨s.sameControl_setBuf b l, rfl, fun h => h.setBuf b hl⟩

theorem State.effectFrame_of_writeBuf {s t : State} {b : Buf} {l : List Byte} (h : s.writeBuf b l = .ok t) :
    s.EffectFrame t := by
  obtain ⟨hl, rfl⟩ := State.writeBuf_eq_ok.1 h
  exact State.effectFrame_setBuf b hl

theorem State.effectFrame_of_writeCoords {s t : State} {l : List Coord} (h : s.writeCoords l = .ok t) :
    s.EffectFrame t := by
  obtain ⟨hl, rfl⟩ := State.writeCoords_eq_ok.1 h
  exact ⟨s.sameControl_refl, rfl, fun h => h.setCoords hl⟩

theorem State.effectFrame_setPlane {s : State} (p : PlaneId) {m : Memory 8}
    (hm : s.SpacesFit → m.wf ∧ m.below s.caps.planeCap) : s.EffectFrame (s.setPlane p m) := by
  cases p with
  | pl | rf => exact ⟨s.sameControl_refl, rfl, fun h => h.setPlane _ (hm h)⟩

/-- A command that checked the plane's size may write one value to each of its pixels (rules R31, R313). -/
theorem State.effectFrame_loadPlane {s : State} {ok : Unit} (p : PlaneId) {l : List Byte}
    (hplane : s.checkPlane = .ok ok) (hl : l.length = s.pixels) :
    s.EffectFrame (s.setPlane p ((s.plane p).writeAll 0 l)) :=
  State.effectFrame_setPlane p fun hfit => hfit.plane_writeAll p (hl ▸ State.checkPlane_eq_ok.1 hplane)

/-- Coordinates that passed SCAT's checks index elements of the plane memory (rule R243). -/
theorem State.index_lt_planeCap {s : State} {ok ok' : Unit} {i : Nat} {cs : List Coord}
    (hplane : s.checkPlane = .ok ok) (hinside : s.checkInside i cs = .ok ok') {c : Coord} (hc : c ∈ cs) :
    c.index s.pw.toNat < s.caps.planeCap := by
  obtain ⟨hrow, hcol⟩ := State.checkInside_eq_ok.1 hinside c hc
  exact (Coord.index_lt hrow hcol).trans_le (State.checkPlane_eq_ok.1 hplane)

/-! ### Every command but HALT has an effect with that frame -/

theorem CompletesIn.mono {P Q : State → Prop} {e : Except Fault State} (h : CompletesIn P e) (hPQ : ∀ u, P u → Q u) :
    CompletesIn Q e := fun u hu => hPQ u (h u hu)

/-- `i` ends through `State.finish` with an effect that completes only in `s.EffectFrame`. -/
def HasEffectFrame (i : Instr) (s : State) : Prop :=
  ∃ e, exec i s = s.finish e ∧ CompletesIn s.EffectFrame e

theorem WritesOneBuf.hasEffectFrame {i : Instr} {bd : Buf} (hi : WritesOneBuf i bd) (s : State) :
    HasEffectFrame i s := by
  obtain ⟨e, he, hw⟩ := hi.exec_effect s
  refine ⟨e, he, hw.mono ?_⟩
  rintro _ ⟨l, hl, rfl⟩
  exact State.effectFrame_setBuf bd hl

theorem WritesOneReg.hasEffectFrame {i : Instr} {xd : Reg} (hi : WritesOneReg i xd) (s : State) :
    HasEffectFrame i s := by
  obtain ⟨e, he, hw⟩ := hi.exec_effect s
  refine ⟨e, he, hw.mono ?_⟩
  rintro _ ⟨v, rfl⟩
  exact s.effectFrame_writeReg xd v

theorem IsCheck.hasEffectFrame {i : Instr} (hi : IsCheck i) (s : State) : HasEffectFrame i s := by
  obtain ⟨e, he, hw⟩ := hi.exec_effect s
  refine ⟨e, he, hw.mono ?_⟩
  rintro _ rfl
  exact .refl _

theorem cadopt_hasEffectFrame (bd bs : Buf) (xf xq : Reg) (s : State) :
    HasEffectFrame (.cadopt bd bs xf xq) s :=
  ⟨_, rfl, .bind fun _ ht => .ok ((State.effectFrame_of_writeBuf ht).trans (State.effectFrame_writeReg _ _ _))⟩

theorem perm_hasEffectFrame (bp : Buf) (s : State) : HasEffectFrame (.perm bp) s :=
  ⟨_, rfl, .bind fun _ _ _ ht => State.effectFrame_of_writeCoords ht⟩

theorem perml_hasEffectFrame (bp : Buf) (xl : Reg) (s : State) : HasEffectFrame (.perml bp xl) s :=
  ⟨_, rfl, .bind fun _ _ _ ht => State.effectFrame_of_writeCoords ht⟩

theorem opa_hasEffectFrame (xk : Reg) (s : State) : HasEffectFrame (.opa xk) s :=
  ⟨_, rfl, .bind fun _ _ => .bind fun _ hplane => .ok (State.effectFrame_loadPlane .pl hplane (by simp))⟩

theorem hdec_hasEffectFrame (bf bs : Buf) (xd : Base5) (s : State) : HasEffectFrame (.hdec bf bs xd) s := by
  refine ⟨_, rfl, ?_⟩
  split
  · exact .error _
  · exact .bind fun _ ht =>
      .ok ((State.effectFrame_of_writeBuf ht).trans (State.effectFrame_writeRegs5 _ _ _ _ _ _ _))

theorem snap_hasEffectFrame (s : State) : HasEffectFrame .snap s :=
  ⟨_, rfl, .bind fun _ hplane => .ok (State.effectFrame_loadPlane .rf hplane (by simp))⟩

theorem scat_hasEffectFrame (bs : Buf) (xk xo : Reg) (s : State) : HasEffectFrame (.scat bs xk xo) s :=
  ⟨_, rfl, .bind fun _ _ => .bind fun _ hplane => .bind fun _ _ => .bind fun _ hinside =>
    .ok (State.effectFrame_setPlane .pl fun hfit => scatter_fits (hfit.plane .pl) fun _ hcv =>
      State.index_lt_planeCap hplane hinside (List.of_mem_zip hcv).1)⟩

/-- EMBED copies the plane to `RF` and stores a plane of the same size in `PL`. -/
theorem embed_hasEffectFrame (bs bf bp : Buf) (xl xf : Reg) (s : State) :
    HasEffectFrame (.embed bs bf bp xl xf) s := by
  refine ⟨_, rfl, .bind fun _ _ => .bind fun _ _ => .bind fun _ hplane => .bind fun _ _ => .bind fun _ _ =>
    .bind fun Q hQ => .ok ?_⟩
  have hrf : s.EffectFrame (s.setPlane .rf (s.rf.writeAll 0 s.plPixels)) :=
    State.effectFrame_loadPlane .rf hplane (by simp)
  have hlen : Q.length = s.pixels := by
    rw [length_of_embedPlane_eq_ok hQ, State.length_plPixels]
  exact hrf.trans (State.effectFrame_loadPlane (s := s.setPlane .rf _) .pl hplane hlen)

theorem extract_hasEffectFrame (bd bf bp : Buf) (xd : Base5) (s : State) :
    HasEffectFrame (.extract bd bf bp xd) s :=
  ⟨_, rfl, .bind fun _ _ => .bind fun _ _ => .bind fun _ hd => .bind fun _ hf => .ok
    (((State.effectFrame_of_writeBuf hd).trans (State.effectFrame_of_writeBuf hf)).trans
      (State.effectFrame_writeRegs5 _ _ _ _ _ _ _))⟩

theorem hasEffectFrame_of_ne_halt {i : Instr} (hi : i ≠ .halt) (s : State) : HasEffectFrame i s := by
  cases i with
  | halt => exact absurd rfl hi
  | b2g | g2b | unpk | unpkw | defl | infl | henc | gath =>
    exact WritesOneBuf.hasEffectFrame (by constructor) s
  | li | lui | blen | pack | seed | crc => exact WritesOneReg.hasEffectFrame (by constructor) s
  | vlsb | vfmt | vcap | vcrc => exact IsCheck.hasEffectFrame (by constructor) s
  | cadopt => exact cadopt_hasEffectFrame ..
  | perm => exact perm_hasEffectFrame ..
  | perml => exact perml_hasEffectFrame ..
  | opa => exact opa_hasEffectFrame ..
  | hdec => exact hdec_hasEffectFrame ..
  | snap => exact snap_hasEffectFrame s
  | scat => exact scat_hasEffectFrame ..
  | embed => exact embed_hasEffectFrame ..
  | extract => exact extract_hasEffectFrame ..

/-- All a command can do: enter a fault, end the run, or apply an effect and move `cp` on (rules R270, R271, R304). -/
theorem exec_cases {i : Instr} {s t : State} (h : exec i s = .next t) :
    (∃ f, t = s.takeFault f) ∨ (i = .halt ∧ t = { s with runState := .done }) ∨
      ∃ u, s.EffectFrame u ∧ t = u.advance := by
  by_cases hi : i = .halt
  · subst hi
    exact .inr (.inl ⟨rfl, exec_halt_eq_next.1 h⟩)
  · obtain ⟨e, he, hw⟩ := hasEffectFrame_of_ne_halt hi s
    obtain hf | hu := hw.finish_cases (he ▸ h)
    · exact .inl hf
    · exact .inr (.inr hu)

/-- Settles O12: a fault, HALT and every effect leave the program, the dimensions and the capacities. -/
theorem noCommandWritesProgramOrDimensions : Obligations.NoCommandWritesProgramOrDimensions := by
  intro i s t h
  obtain ⟨f, rfl⟩ | ⟨-, rfl⟩ | ⟨u, hu, rfl⟩ := exec_cases h
  · exact ⟨rfl, rfl, rfl, rfl⟩
  · exact ⟨rfl, rfl, rfl, rfl⟩
  · obtain ⟨-, -, -, -, -, hph, hpw, hcm, hcaps⟩ := hu.control
    exact ⟨hcm, hph, hpw, hcaps⟩

/-! ### Fetch and step (rules R22, R270, R355) -/

theorem fetch_eq_ok {s : State} {i : Instr} :
    fetch s = .ok i ↔ s.cp.toNat < s.caps.cmdCap ∧ decode (s.cm.read s.cp.toNat) = .ok i := by
  unfold fetch
  split
  · split <;> simp_all
  · simp_all

/-- An illegal word fetched raises `IllegalCommand` (rules R270, R311). -/
theorem fetch_of_illegal {s : State} {e : Illegal} (hcp : s.cp.toNat < s.caps.cmdCap)
    (he : decode (s.cm.read s.cp.toNat) = .error e) :
    fetch s = .error (.illegalCommand (s.cm.read s.cp.toNat).toNat) := by
  simp [fetch, hcp, he]

theorem step_of_ne_running {s : State} (h : s.runState ≠ .running) : step s = .next s := by
  unfold step
  cases hs : s.runState with
  | running => exact absurd hs h
  | idle | done | faulted => rfl

theorem step_of_fetch_ok {s : State} {i : Instr} (hs : s.runState = .running) (hi : fetch s = .ok i) :
    step s = exec i s := by
  simp [step, hs, hi]

theorem step_of_fetch_error {s : State} {f : Fault} (hs : s.runState = .running) (hf : fetch s = .error f) :
    step s = .next (s.takeFault f) := by
  simp [step, hs, hf]

/-- All a running unit's step can do: enter a fault, end the run at a HALT it fetched, or apply a fetched command's effect
and move `cp` on. -/
theorem step_cases {s t : State} (hs : s.runState = .running) (h : step s = .next t) :
    (∃ f, t = s.takeFault f) ∨ (fetch s = .ok .halt ∧ t = { s with runState := .done }) ∨
      ∃ u, s.cp.toNat < s.caps.cmdCap ∧ s.EffectFrame u ∧ t = u.advance := by
  cases hf : fetch s with
  | error f =>
    rw [step_of_fetch_error hs hf] at h
    exact .inl ⟨f, (Host.Outcome.next.inj h).symm⟩
  | ok i =>
    rw [step_of_fetch_ok hs hf] at h
    obtain hfault | ⟨rfl, ht⟩ | ⟨u, hu, ht⟩ := exec_cases h
    · exact .inl hfault
    · exact .inr (.inl ⟨rfl, ht⟩)
    · exact .inr (.inr ⟨u, (fetch_eq_ok.1 hf).1, hu, ht⟩)

/-! ### Faults (rules R27, R300, R305) -/

theorem Fault.code_bounds (f : Fault) : 1 ≤ f.code.toNat ∧ f.code.toNat ≤ 12 := by
  cases f <;> simp [Fault.code]

/-- The fault registers after a fault's entry hold its numbers as they are read back. -/
theorem State.takeFault_eq_faultEntry (s : State) (f : Fault) :
    s.takeFault f = s.faultEntry (s.takeFault f).ecode.toNat (s.takeFault f).einfo0.toNat (s.takeFault f).einfo1.toNat := by
  simp only [State.faultEntry, BitVec.ofNat_toNat, BitVec.setWidth_eq]
  rfl

/-- Settles O9: of the three ends of a step only a fault's entry leaves the unit faulted. -/
theorem faultingStepHasNoEffect : Obligations.FaultingStepHasNoEffect := by
  intro s t hs h ht
  obtain ⟨f, rfl⟩ | ⟨-, rfl⟩ | ⟨u, -, hu, rfl⟩ := step_cases hs h
  · exact ⟨s.takeFault_eq_faultEntry f, f.code_bounds⟩
  · cases ht
  · obtain ⟨hrun, -⟩ := hu.control
    rw [State.advance_runState, hrun, hs] at ht
    cases ht

/-- A command index below `CMD_CAP` can be moved on without wrapping (rules R5, R21). -/
theorem toNat_cp_succ {c : Capacities} (hc : c.Lawful) {cp : Word} (hcp : cp.toNat < c.cmdCap) :
    (cp + 1).toNat = cp.toNat + 1 := by
  obtain ⟨-, -, -, -, hcmd⟩ := hc
  have hnowrap : cp.toNat + (1 : Word).toNat < 2 ^ 32 := by
    change cp.toNat + 1 < 2 ^ 32
    omega
  exact BitVec.toNat_add_of_lt hnowrap

/-- Settles O11: the three ends of a step, each with the `cp` it leaves. -/
theorem commandPointerMovesByOneOrStays : Obligations.CommandPointerMovesByOneOrStays := by
  intro s t hc hs h
  obtain ⟨f, rfl⟩ | ⟨hhalt, rfl⟩ | ⟨u, hcp, hu, rfl⟩ := step_cases hs h
  · exact .inr (.inr ⟨rfl, rfl⟩)
  · exact .inr (.inl ⟨rfl, rfl, (fetch_eq_ok.1 hhalt).2⟩)
  · obtain ⟨hrun, -⟩ := hu.control
    refine .inl ⟨hrun.trans hs, ?_⟩
    rw [State.advance_cp, hu.cp, toNat_cp_succ hc hcp]

/-! ### The invariant under a step (rules R27, R32, R34, R50, R57) -/

theorem State.Inv.takeFault {s : State} (h : s.Inv) (f : Fault) : (s.takeFault f).Inv := by
  obtain ⟨hc, hfit, -⟩ := h
  exact ⟨hc, hfit, fun _ => f.code_bounds, fun hne => absurd rfl hne⟩

/-- A change between two run states other than `FAULTED` leaves the fault registers 0. -/
theorem State.Inv.setRunState {s : State} (h : s.Inv) (hs : s.runState ≠ .faulted) {r : RunState} (hr : r ≠ .faulted) :
    ({ s with runState := r } : State).Inv := by
  obtain ⟨hc, hfit, -, hzero⟩ := h
  exact ⟨hc, hfit, fun hf => absurd hf hr, fun _ => hzero hs⟩

theorem State.SameControl.faultRegsAgree {s u : State} (h : s.SameControl u) (hs : s.FaultRegsAgree) :
    u.FaultRegsAgree := by
  obtain ⟨hrun, hecode, heinfo0, heinfo1, hepc, -⟩ := h
  simpa only [State.FaultRegsAgree, hrun, hecode, heinfo0, heinfo1, hepc] using hs

theorem State.EffectFrame.inv_advance {s u : State} (hu : s.EffectFrame u) (h : s.Inv) : u.advance.Inv := by
  obtain ⟨hc, hfit, hregs⟩ := h
  have hcaps : u.caps = s.caps := by
    obtain ⟨-, -, -, -, -, -, -, -, hcaps⟩ := hu.control
    exact hcaps
  exact ⟨hcaps ▸ hc, hu.fits hfit, hu.control.faultRegsAgree hregs⟩

/-- Settles O21: a stopped unit stands, and each of the three ends of a running unit's step keeps the invariant. -/
theorem stepKeepsTheInvariant : Obligations.StepKeepsTheInvariant := by
  intro s t hinv h
  by_cases hs : s.runState = .running
  · obtain ⟨f, rfl⟩ | ⟨-, rfl⟩ | ⟨u, -, hu, rfl⟩ := step_cases hs h
    · exact hinv.takeFault f
    · exact hinv.setRunState (by simp [hs]) nofun
    · exact hu.inv_advance hinv
  · rw [step_of_ne_running hs] at h
    obtain rfl := Host.Outcome.next.inj h
    exact hinv

/-! ### The invariant under a host action (rules R24, R62, R63) -/

/-- CLEAR zeroes the fault registers of a faulted unit as it leaves that run state (rule R24). -/
theorem State.Inv.clear {s : State} (h : s.Inv) : s.clear.Inv := by
  have ⟨hc, hfit, _⟩ := h
  unfold State.clear
  split
  case h_1 | h_2 => exact ⟨hc, hfit, nofun, fun _ => ⟨rfl, rfl, rfl, rfl⟩⟩
  case h_3 | h_4 => exact h

theorem State.Inv.start {s : State} (h : s.Inv) : s.start.Inv := by
  unfold State.start
  split
  case h_1 hs | h_2 hs => exact h.setRunState (by simp [hs]) nofun
  case h_3 | h_4 => exact h

theorem State.Inv.writeCtrl {s : State} (h : s.Inv) (v : Word) : (s.writeCtrl v).Inv := by
  have hclear : (if v.getLsbD 1 then s.clear else s).Inv := by
    split
    · exact h.clear
    · exact h
  simp only [State.writeCtrl]
  split
  · exact hclear.start
  · exact hclear

theorem State.Inv.setPlane {s : State} (h : s.Inv) (p : PlaneId) {m : Memory 8}
    (hm : m.wf ∧ m.below s.caps.planeCap) : (s.setPlane p m).Inv := by
  obtain ⟨hc, hfit, hregs⟩ := h
  have hfit' := hfit.setPlane p hm
  cases p with
  | pl | rf => exact ⟨hc, hfit', hregs⟩

/-- A register the host writes is `CTRL`, or one the invariant does not speak of. -/
theorem State.Inv.hostWriteReg {s : State} (h : s.Inv) (n : Nat) (v : Word) : (s.hostWriteReg n v).Inv := by
  unfold State.hostWriteReg
  split
  · exact h
  · split
    case h_1 => exact h.writeCtrl v
    all_goals exact h

theorem State.Inv.hostActStopped {s : State} (h : s.Inv) (a : HostAction) : (s.hostActStopped a).Inv := by
  have ⟨hc, hfit, hregs⟩ := h
  cases a with
  | writeReg n v => exact h.hostWriteReg n v
  | loadBuffer i l =>
    simp only [State.hostActStopped]
    split
    next hl => exact ⟨hc, hfit.setBuf i hl, hregs⟩
    next => exact h
  | loadCoords l =>
    simp only [State.hostActStopped]
    split
    next hl => exact ⟨hc, hfit.setCoords (by simpa using hl), hregs⟩
    next => exact h
  | loadPlane p hh hw l =>
    simp only [State.hostActStopped]
    split
    next hl =>
      obtain ⟨-, hcap⟩ := hl
      have hdims : ({ s with ph := dimensionOf s.ph hh, pw := dimensionOf s.pw hw } : State).Inv := h
      exact hdims.setPlane p (hfit.plane_writeAll p hcap)
    next => exact h
  | writePlaneElem p i v =>
    simp only [State.hostActStopped]
    split
    next hi =>
      obtain ⟨hwf, hbelow⟩ := hfit.plane p
      exact h.setPlane p ⟨Memory.wf_write hwf i v, Memory.below_write hbelow hi v⟩
    next => exact h
  | loadCommands base words =>
    simp only [State.hostActStopped]
    split
    next hl =>
      obtain ⟨hwf, hbelow⟩ := hfit.commands
      exact ⟨hc, hfit.setCm ⟨Memory.wf_writeAll hwf base words, Memory.below_writeAll hbelow hl⟩, hregs⟩
    next => exact h
  | reset => exact State.resetWith_inv hc

/-- Settles O22: an action while the unit runs is dropped, and every other one keeps the invariant. -/
theorem hostActionKeepsTheInvariant : Obligations.HostActionKeepsTheInvariant := by
  intro s a h
  unfold State.hostAct
  split
  · exact h
  · exact h.hostActStopped a

/-! ### The register file of the host port (rules R23 to R32) -/

/-- While the unit runs a write of a register is dropped (rule R63). -/
theorem State.hostAct_writeReg_of_running {s : State} (h : s.runState = .running) (n : Nat) (v : Word) :
    s.hostAct (.writeReg n v) = s := by
  simp [State.hostAct, h]

theorem State.hostAct_writeReg_of_ne_running {s : State} (h : s.runState ≠ .running) (n : Nat) (v : Word) :
    s.hostAct (.writeReg n v) = s.hostWriteReg n v := by
  simp [State.hostAct, State.hostActStopped, h]

theorem State.hostWriteReg_ctrl (s : State) (v : Word) : s.hostWriteReg 0x00 v = s.writeCtrl v := rfl

theorem State.clear_of_idle {s : State} (h : s.runState = .idle) : s.clear = s := by
  simp [State.clear, h]

theorem State.clear_of_ended {s : State} (h : s.runState = .done ∨ s.runState = .faulted) :
    s.clear = { s with runState := .idle, ecode := 0, einfo0 := 0, einfo1 := 0, epc := 0 } := by
  obtain h | h := h <;> simp [State.clear, h]

theorem State.start_of_idle_or_done {s : State} (h : s.runState = .idle ∨ s.runState = .done) :
    s.start = { s with runState := .running } := by
  obtain h | h := h <;> simp [State.start, h]

theorem State.start_of_faulted {s : State} (h : s.runState = .faulted) : s.start = s := by
  simp [State.start, h]

/-- Settles O14: CLEAR and START each do what the run state they find says, and a cleared unit is `IDLE` when START comes. -/
theorem controlWriteClearsThenStarts : Obligations.ControlWriteClearsThenStarts := by
  intro s v
  by_cases hs : s.runState = .running
  · simp [State.hostAct_writeReg_of_running hs, hs]
  · rw [State.hostAct_writeReg_of_ne_running hs]
    simp only [State.hostWriteReg_ctrl, State.writeCtrl]
    generalize v.getLsbD 1 = clearBit, v.getLsbD 0 = startBit
    cases hrun : s.runState with
    | running => exact absurd hrun hs
    | idle =>
      have hclear := State.clear_of_idle hrun
      have hstart := State.start_of_idle_or_done (.inl hrun)
      cases clearBit <;> cases startBit <;> simp [hclear, hstart]
    | done =>
      have hclear := State.clear_of_ended (.inl hrun)
      have hstart := State.start_of_idle_or_done (.inr hrun)
      cases clearBit <;> cases startBit <;> simp [hclear, hstart, State.start_of_idle_or_done]
    | faulted =>
      have hclear := State.clear_of_ended (.inr hrun)
      have hstart := State.start_of_faulted hrun
      cases clearBit <;> cases startBit <;> simp [hclear, hstart, State.start_of_idle_or_done]

theorem State.hostReadReg_of_control {s : State} (h : s.runState ≠ .running) {n : Nat} (hn : ¬(0x10 ≤ n ∧ n < 0x20)) :
    s.hostReadReg n = s.controlReg n := by
  simp only [State.hostReadReg, h, false_and, if_false, dif_neg hn]

theorem State.hostReadReg_general {s : State} (h : s.runState ≠ .running) (r : Reg) :
    s.hostReadReg (0x10 + r) = (s.readReg r).setWidth 64 := by
  have hr : 0x10 ≤ 0x10 + r.val ∧ 0x10 + r.val < 0x20 := by omega
  simp only [State.hostReadReg, h, false_and, if_false, dif_pos hr, Nat.add_sub_cancel_left]

theorem State.hostWriteReg_general (s : State) (r : Reg) (v : Word) : s.hostWriteReg (0x10 + r) v = s.writeReg r v := by
  have hr : 0x10 ≤ 0x10 + r.val ∧ 0x10 + r.val < 0x20 := by omega
  simp only [State.hostWriteReg, dif_pos hr, Nat.add_sub_cancel_left]

theorem dimensionOf_of_lt {old : Half} {v : Word} (h : v.toNat < 2 ^ 16) : dimensionOf old v = v.setWidth 16 := if_pos h

/-- A number that is none of the writable registers' (rule R23). -/
theorem State.hostWriteReg_of_readOnly (s : State) {n : Nat} (v : Word)
    (hn : n = 0x01 ∨ (0x03 ≤ n ∧ n ≤ 0x07) ∨ (0x0A ≤ n ∧ n ≤ 0x0F) ∨ 0x20 ≤ n) : s.hostWriteReg n v = s := by
  unfold State.hostWriteReg
  rw [dif_neg (by omega)]
  split
  case h_5 => rfl
  all_goals omega

theorem State.controlReg_of_reserved (s : State) {n : Nat} (hn : 0x0F ≤ n) : s.controlReg n = 0 := by
  unfold State.controlReg
  split
  case h_15 => rfl
  all_goals omega

/-- Settles O15: a number from 0x10 to 0x1F is a general register, any other one is read and written by its own case. -/
theorem hostRegisterFile : Obligations.HostRegisterFile := by
  intro s hs
  have hread (n : Nat) (hn : ¬(0x10 ≤ n ∧ n < 0x20)) : s.hostReadReg n = s.controlReg n :=
    State.hostReadReg_of_control hs hn
  have hwrite := State.hostAct_writeReg_of_ne_running hs
  have hstatus : s.hostReadReg 0x01 = BitVec.ofNat 64 s.runState.code := hread 1 (by decide)
  have hblen (b : Buf) : s.hostReadReg (0x0A + b) = BitVec.ofNat 64 (s.blen b) := by
    refine (hread _ (by omega)).trans ?_
    fin_cases b <;> rfl
  have hreserved (n : Nat) (hn : 0x20 ≤ n) : s.hostReadReg n = 0 :=
    (hread n (by omega)).trans (s.controlReg_of_reserved (by omega))
  refine ⟨⟨hread 0 (by decide), ?status, hread 2 (by decide), hread 3 (by decide), hread 4 (by decide),
    hread 5 (by decide), hread 6 (by decide), hread 7 (by decide), hread 8 (by decide), hread 9 (by decide), hblen,
    hread 14 (by decide), hread 15 (by decide), State.hostReadReg_general hs, hreserved⟩, fun v => ⟨hwrite 2 v, ?dimensions,
    fun r => (hwrite _ v).trans (s.hostWriteReg_general r v),
    fun n hn => (hwrite n v).trans (s.hostWriteReg_of_readOnly v hn)⟩⟩
  case status =>
    refine hstatus.trans ?_
    cases s.runState with
    | idle | running | done | faulted => rfl
  case dimensions =>
    intro hv
    have hph : s.hostAct (.writeReg 0x08 v) = { s with ph := dimensionOf s.ph v } := hwrite 8 v
    have hpw : s.hostAct (.writeReg 0x09 v) = { s with pw := dimensionOf s.pw v } := hwrite 9 v
    rw [hph, hpw, dimensionOf_of_lt hv, dimensionOf_of_lt hv]
    exact ⟨rfl, rfl⟩

/-- Settles O19: START finds the unit `IDLE`, and the zero word its first step fetches is no command's. -/
theorem startStraightAfterResetFaults : Obligations.StartStraightAfterResetFaults := by
  refine ⟨{ State.reset with runState := .running }, controlWriteClearsThenStarts State.reset 1, rfl, rfl, ?_⟩
  have hcp : (0 : Word).toNat < Config.capacities.cmdCap := Nat.succ_pos _
  have hword : decode 0 = .error .unknownOpcode := by decide
  have hfetch : fetch { State.reset with runState := .running } = .error (.illegalCommand 0) := fetch_of_illegal hcp hword
  exact step_of_fetch_error rfl hfetch

end Sys2Proof.Machine
end

section
/-! Proofs, `20_memory.md`: what the host loads into a stopped unit's memory spaces and reads back, and what a running unit
lets it do. -/

namespace Sys2Proof.Machine

/-! ### When a host action takes effect (rules R62, R63) -/

theorem State.hostAct_of_running {s : State} {a : HostAction} (h : s.runState = .running) (ha : a ≠ .reset) :
    s.hostAct a = s := if_pos ⟨h, ha⟩

theorem State.hostAct_of_ne_running {s : State} (h : s.runState ≠ .running) (a : HostAction) :
    s.hostAct a = s.hostActStopped a := if_neg fun hrun => h hrun.1

/-! ### Host reads of a running unit (rules R25, R63) -/

theorem State.hostReadReg_status_of_running {s : State} (h : s.runState = .running) : s.hostReadReg 0x01 = 1 := by
  have hcontrol : s.hostReadReg 0x01 = s.controlReg 0x01 :=
    (if_neg fun hother => hother.2 rfl).trans (dif_neg (by decide))
  simp [hcontrol, State.controlReg, h, RunState.code]

theorem State.hostReadReg_of_running {s : State} (h : s.runState = .running) {n : Nat} (hn : n ≠ 0x01) :
    s.hostReadReg n = 0 := if_pos ⟨h, hn⟩

/-- Settles O16: each action and each read of the host port looks at the run state before anything else. -/
theorem hostIsIgnoredWhileRunning : Obligations.HostIsIgnoredWhileRunning := fun _ _ _ hs =>
  ⟨State.hostAct_of_running hs, State.hostReadReg_status_of_running hs, State.hostReadReg_of_running hs,
    fun _ => if_pos hs, if_pos hs, fun _ => ⟨if_pos (.inl hs), fun _ => if_pos (.inl hs)⟩, fun _ _ => if_pos (.inl hs)⟩

/-! ### Reading back what was written to a memory space (rules R9, R50) -/

section
variable {w : Nat} {m : Memory w}

/-- The elements from index `i` on, after a sequence was written there, are that sequence. -/
theorem Memory.map_read_writeAll (h : m.wf) (i : Nat) (vs : List (BitVec w)) :
    (List.range vs.length).map (fun j => (m.writeAll i vs).read (i + j)) = vs := by
  refine List.ext_getElem (by simp) fun j _ hj => ?_
  simp [Memory.read_writeAll h, hj]

theorem Memory.readAll_writeAll (h : m.wf) (vs : List (BitVec w)) : (m.writeAll 0 vs).readAll vs.length = vs := by
  simpa only [Memory.readAll, Nat.zero_add] using Memory.map_read_writeAll h 0 vs

theorem Memory.read_writeAll_outside (h : m.wf) {i j : Nat} {vs : List (BitVec w)} (hj : j < i ∨ i + vs.length ≤ j) :
    (m.writeAll i vs).read j = m.read j := by
  rw [Memory.read_writeAll h, if_neg (by omega)]

end

/-! ### Coordinates as host elements (rule R34) -/

@[simp] theorem Coord.pack_unpack (v : Word) : (Coord.unpack v).pack = v :=
  (BitVec.extractLsb'_append_extractLsb'_eq_extractLsb' rfl).trans BitVec.extractLsb'_eq_self

/-! ### One plane of a state -/

@[simp] theorem State.plane_setPlane (s : State) (p : PlaneId) (m : Memory 8) : (s.setPlane p m).plane p = m := by
  cases p with
  | pl | rf => rfl

@[simp] theorem State.setPlane_runState (s : State) (p : PlaneId) (m : Memory 8) :
    (s.setPlane p m).runState = s.runState := by
  cases p with
  | pl | rf => rfl

@[simp] theorem State.setPlane_caps (s : State) (p : PlaneId) (m : Memory 8) : (s.setPlane p m).caps = s.caps := by
  cases p with
  | pl | rf => rfl

@[simp] theorem State.setPlane_pixels (s : State) (p : PlaneId) (m : Memory 8) : (s.setPlane p m).pixels = s.pixels := by
  cases p with
  | pl | rf => rfl

/-- Two dimensions of 16 bits, as `PH` and `PW` hold them, count the pixels of the host's numbers (rule R31). -/
theorem State.pixels_of_dimensions (s : State) {h w : Word} (hh : h.toNat < 2 ^ 16) (hw : w.toNat < 2 ^ 16) :
    ({ s with ph := h.setWidth 16, pw := w.setWidth 16 } : State).pixels = h.toNat * w.toNat := by
  simp only [State.pixels, BitVec.toNat_setWidth, Nat.mod_eq_of_lt hh, Nat.mod_eq_of_lt hw]

/-! ### Loads and writes of a stopped unit (rule R62) -/

section
variable {s : State} (hs : s.runState ≠ .running)
include hs

theorem State.hostAct_loadBuffer (b : Buf) (l : List Byte) :
    s.hostAct (.loadBuffer b l) = if l.length ≤ s.caps.bufCap then s.setBuf b l else s :=
  State.hostAct_of_ne_running hs _

theorem State.hostAct_loadCoords (l : List Word) :
    s.hostAct (.loadCoords l) = if l.length ≤ s.caps.crdCap then { s with coords := l.map Coord.unpack } else s :=
  State.hostAct_of_ne_running hs _

/-- A plane load with dimensions of 16 bits, of the right length and within the memory. -/
theorem State.hostAct_loadPlane_of_fits (p : PlaneId) {h w : Word} {l : List Byte} (hh : h.toNat < 2 ^ 16)
    (hw : w.toNat < 2 ^ 16) (hlen : l.length = h.toNat * w.toNat) (hcap : l.length ≤ s.caps.planeCap) :
    s.hostAct (.loadPlane p h w l) = ({ s with ph := h.setWidth 16, pw := w.setWidth 16 } : State).setPlane p
      ((s.plane p).writeAll 0 l) := by
  rw [State.hostAct_of_ne_running hs, ← dimensionOf_of_lt (old := s.ph) hh, ← dimensionOf_of_lt (old := s.pw) hw]
  exact if_pos ⟨hlen, hcap⟩

theorem State.hostAct_loadPlane_of_not_fits (p : PlaneId) {h w : Word} {l : List Byte}
    (hl : l.length ≠ h.toNat * w.toNat ∨ s.caps.planeCap < l.length) : s.hostAct (.loadPlane p h w l) = s :=
  (State.hostAct_of_ne_running hs _).trans (if_neg (by omega))

theorem State.hostAct_writePlaneElem (p : PlaneId) (i : Nat) (v : Byte) :
    s.hostAct (.writePlaneElem p i v) = if i < s.caps.planeCap then s.setPlane p ((s.plane p).write i v) else s :=
  State.hostAct_of_ne_running hs _

theorem State.hostAct_loadCommands (base : Nat) (ws : List Word) :
    s.hostAct (.loadCommands base ws) =
      if base + ws.length ≤ s.caps.cmdCap then { s with cm := s.cm.writeAll base ws } else s :=
  State.hostAct_of_ne_running hs _

/-! ### Host reads of a stopped unit (rules R50, R62) -/

theorem State.hostReadBuffer_of_ne_running (b : Buf) : s.hostReadBuffer b = some (s.readBuf b) := if_neg hs

theorem State.hostReadCoords_of_ne_running : s.hostReadCoords = some (s.coords.map Coord.pack) := if_neg hs

theorem State.hostReadPlane_of_fits (p : PlaneId) (h : s.pixels ≤ s.caps.planeCap) :
    s.hostReadPlane p = some ((s.plane p).readAll s.pixels) := if_neg (not_or.2 ⟨hs, h.not_gt⟩)

theorem State.hostReadPlaneElem_of_lt (p : PlaneId) {i : Nat} (h : i < s.caps.planeCap) :
    s.hostReadPlaneElem p i = some ((s.plane p).read i) := if_neg (not_or.2 ⟨hs, h.not_ge⟩)

theorem State.hostReadCommands_of_fits {base n : Nat} (h : base + n ≤ s.caps.cmdCap) :
    s.hostReadCommands base n = some ((List.range n).map fun j => s.cm.read (base + j)) :=
  if_neg (not_or.2 ⟨hs, h.not_gt⟩)

end

/-- Settles O17: what an action that fits leaves in its space is what the laws of that space read back; one that does not
fit is dropped. -/
theorem hostReadsBackWhatItLoads : Obligations.HostReadsBackWhatItLoads := by
  refine ⟨fun s b l hs => ?buffer, fun s l hs => ?coords, fun s p h w l hs => ?plane, fun s p i v hs => ?element,
    fun s base ws hs => ?commands⟩
  case buffer =>
    rw [State.hostAct_loadBuffer hs]
    refine ⟨fun hfit => ?_, fun hover => if_neg hover.not_ge⟩
    rw [if_pos hfit]
    refine ⟨rfl, ?_⟩
    rw [State.hostReadBuffer_of_ne_running (by simpa using hs), State.readBuf_setBuf_self]
  case coords =>
    rw [State.hostAct_loadCoords hs]
    refine ⟨fun hfit => ⟨_, if_pos hfit, ?_, rfl⟩, fun hover => if_neg hover.not_ge⟩
    rw [State.hostReadCoords_of_ne_running (by simpa using hs)]
    simp [Function.comp_def]
  case plane =>
    refine ⟨fun hwf hh hw hlen hcap => ⟨_, State.hostAct_loadPlane_of_fits hs p hh hw hlen hcap, ?_, fun i hi => ?_, ?_⟩,
      State.hostAct_loadPlane_of_not_fits hs p⟩
    · have hpixels := (s.pixels_of_dimensions hh hw).trans hlen.symm
      rw [State.hostReadPlane_of_fits (by simpa using hs) p (by simpa [hpixels] using hcap)]
      simp [hpixels, Memory.readAll_writeAll hwf]
    · simpa using Memory.read_writeAll_outside hwf (.inr (by simpa using hi))
    · rw [State.plane_setPlane]
  case element =>
    rw [State.hostAct_writePlaneElem hs]
    refine ⟨fun hwf hi => ⟨_, if_pos hi, ?_, fun j hj => ?_, ?_⟩, fun hover => if_neg hover.not_gt⟩
    · rw [State.hostReadPlaneElem_of_lt (by simpa using hs) p (by simpa using hi)]
      simp [Memory.read_write hwf]
    · simp [Memory.read_write hwf, hj]
    · rw [State.plane_setPlane]
  case commands =>
    rw [State.hostAct_loadCommands hs]
    refine ⟨fun hwf hfit => ⟨_, if_pos hfit, ?_, fun i hi => Memory.read_writeAll_outside hwf hi, rfl⟩,
      fun hover => if_neg hover.not_ge⟩
    rw [State.hostReadCommands_of_fits (by simpa using hs) (by simpa using hfit), Memory.map_read_writeAll hwf]

end Sys2Proof.Machine
end

section
/-! Proofs, `30_encoding.md`: the decoder, the encoder and the opcode table agree field by field, and a running unit's step
follows the decoder. -/

namespace Sys2Proof

/-! ### A word and its fields (rules R71, R74, R82) -/

theorem fieldsOf_lt (w : Word) : (fieldsOf w).op < 256 ∧ (fieldsOf w).a < 16 ∧ (fieldsOf w).b < 16 ∧
    (fieldsOf w).c < 16 ∧ (fieldsOf w).d < 16 ∧ (fieldsOf w).e < 16 ∧ (fieldsOf w).f < 16 := by
  simp only [fieldsOf, bitsAt]
  omega

/-- The seven fields hold all 32 bits of the word. -/
theorem toNat_eq_fields (w : Word) :
    w.toNat = (fieldsOf w).op * 2 ^ 24 + (fieldsOf w).a * 2 ^ 20 + (fieldsOf w).b * 2 ^ 16 + (fieldsOf w).c * 2 ^ 12 +
      (fieldsOf w).d * 2 ^ 8 + (fieldsOf w).e * 2 ^ 4 + (fieldsOf w).f := by
  have := w.isLt
  simp only [fieldsOf, bitsAt]
  omega

/-- So do the opcode, `a`, `b` and the immediate. -/
theorem toNat_eq_immOf (w : Word) :
    w.toNat = (fieldsOf w).op * 2 ^ 24 + (fieldsOf w).a * 2 ^ 20 + (fieldsOf w).b * 2 ^ 16 + (immOf w).toNat := by
  have := w.isLt
  simp only [fieldsOf, bitsAt, immOf, BitVec.toNat_ofNat]
  omega

theorem fieldsOf_injective : Function.Injective fieldsOf := fun v w h =>
  BitVec.eq_of_toNat_eq (by rw [toNat_eq_fields v, toNat_eq_fields w, h])

theorem wordR_eq_iff {op a b c d e : Nat} {w : Word} (ho : op < 256) (ha : a < 16) (hb : b < 16) (hc : c < 16)
    (hd : d < 16) (he : e < 16) :
    wordR op a b c d e = w ↔
      (fieldsOf w).op = op ∧ (fieldsOf w).a = a ∧ (fieldsOf w).b = b ∧ (fieldsOf w).c = c ∧ (fieldsOf w).d = d ∧
        (fieldsOf w).e = e ∧ (fieldsOf w).f = 0 :=
  calc wordR op a b c d e = w
    _ ↔ fieldsOf w = fieldsOf (wordR op a b c d e) := by rw [fieldsOf_injective.eq_iff, eq_comm]
    _ ↔ _ := by rw [fieldsOf_wordR ho ha hb hc hd he]; exact Iff.of_eq (Fields.mk.injEq ..)

theorem wordI_eq_iff {op rd : Nat} {imm : Half} {w : Word} (ho : op < 256) (hr : rd < 16) :
    wordI op rd imm = w ↔
      (fieldsOf w).op = op ∧ (fieldsOf w).a = rd ∧ (fieldsOf w).b = 0 ∧ immOf w = imm := by
  constructor
  · rintro rfl
    obtain ⟨hop, ha, hb⟩ := fieldsOf_wordI (imm := imm) ho hr
    exact ⟨hop, ha, hb, immOf_wordI ho hr⟩
  · rintro ⟨rfl, rfl, hb, rfl⟩
    apply BitVec.eq_of_toNat_eq
    rw [toNat_wordI ho hr, toNat_eq_immOf w, hb, Nat.zero_mul, Nat.add_zero]

/-- A format N word leaves every field under the opcode 0. -/
theorem bitsAt_low_eq_zero {w : Word} : bitsAt w 0 24 = 0 ↔
    (fieldsOf w).a = 0 ∧ (fieldsOf w).b = 0 ∧ (fieldsOf w).c = 0 ∧ (fieldsOf w).d = 0 ∧ (fieldsOf w).e = 0 ∧
      (fieldsOf w).f = 0 := by
  simp only [fieldsOf, bitsAt]
  omega

theorem regField_eq_iff {v : Nat} {r : Reg} (hv : v < 16) : regField v = r ↔ v = r.val := by
  simp only [Fin.ext_iff, regField, Nat.mod_eq_of_lt hv]

theorem opcode_encode (i : Instr) : (fieldsOf (encode i)).op = i.opcode := by
  cases i with
  | li xd imm | lui xd imm => exact (fieldsOf_wordI (by simp [Instr.opcode]) xd.isLt).left
  | _ => simp (disch := omega) only [encode, Instr.opcode, fieldsOf_wordR]

/-! ### What the decoder's checks let through (rule R80) -/

@[simp] theorem unusedZero_bind_eq_ok {vs : List Nat} {k : Unit → Except Illegal Instr} {i : Instr} :
    (unusedZero vs >>= k) = .ok i ↔ (∀ v ∈ vs, v = 0) ∧ k () = .ok i := by
  rw [← unusedZero_eq_ok (u := ())]
  cases unusedZero vs <;> simp [bind, Except.bind]

@[simp] theorem bufField_bind_eq_ok {v : Nat} {k : Buf → Except Illegal Instr} {i : Instr} :
    (bufField v >>= k) = .ok i ↔ ∃ b : Buf, v = b.val ∧ k b = .ok i := by
  simp only [← bufField_eq_ok]
  cases bufField v <;> simp [bind, Except.bind]

@[simp] theorem baseField_bind_eq_ok {v : Nat} {k : Base5 → Except Illegal Instr} {i : Instr} :
    (baseField v >>= k) = .ok i ↔ ∃ b : Base5, v = b.val ∧ k b = .ok i := by
  simp only [← baseField_eq_ok]
  cases baseField v <;> simp [bind, Except.bind]

@[simp] theorem pure_eq_ok {i j : Instr} : (pure i : Except Illegal Instr) = .ok j ↔ i = j := by
  simp [pure, Except.pure]

@[simp] theorem ite_error_eq_ok {c : Prop} [Decidable c] {e : Illegal} {i j : Instr} :
    (if c then .error e else .ok i : Except Illegal Instr) = .ok j ↔ ¬c ∧ i = j := by
  split <;> simp [*]

/-! ### The decoder inverts the encoder (rules R74, R82) -/

/-- Every arm of the decoder answers a command of the arm's own opcode. -/
theorem decode_opcode {w : Word} {i : Instr} (h : decode w = .ok i) : (fieldsOf w).op = i.opcode := by
  simp only [decode] at h
  split at h <;>
    simp only [unusedZero_bind_eq_ok, bufField_bind_eq_ok, baseField_bind_eq_ok, pure_eq_ok, ite_error_eq_ok,
      reduceCtorEq] at h <;>
    grind [Instr.opcode]

/-- Under a command's opcode the decoder's checks and the fields it reads say together that the word is the command's. -/
theorem decode_eq_ok_iff_of_opcode {w : Word} {i : Instr} (hop : (fieldsOf w).op = i.opcode) :
    decode w = .ok i ↔ i.wellFormed = true ∧ encode i = w := by
  obtain ⟨-, ha, hb, hc, hd, he, -⟩ := fieldsOf_lt w
  cases i <;> simp only [Instr.opcode] at hop
  case halt | snap =>
    simp [-bind_pure_comp, decode, hop, encode, Instr.opcode, Instr.wellFormed, wordR_eq_iff, bitsAt_low_eq_zero]
  case li | lui =>
    simp [-bind_pure_comp, decode, hop, encode, Instr.opcode, Instr.wellFormed, wordI_eq_iff, regField_eq_iff ha,
      and_left_comm]
  all_goals
    simp (disch := omega) [-bind_pure_comp, decode, hop, encode, Instr.opcode, Instr.wellFormed, wordR_eq_iff,
      regField_eq_iff, and_assoc, and_comm, and_left_comm]

/-- All the decoder answers: a word decodes to a command exactly when the command is well formed and the word is its
own. -/
theorem decode_eq_ok_iff {w : Word} {i : Instr} : decode w = .ok i ↔ i.wellFormed = true ∧ encode i = w := by
  refine ⟨fun h => (decode_eq_ok_iff_of_opcode (decode_opcode h)).1 h, fun h => ?_⟩
  obtain ⟨hwf, rfl⟩ := h
  exact (decode_eq_ok_iff_of_opcode (opcode_encode i)).2 ⟨hwf, rfl⟩

/-- Settles O1: the decoder answers a well-formed command for its own word. -/
theorem decodeEncodeRoundTrip : Obligations.DecodeEncodeRoundTrip :=
  fun _ hi => decode_eq_ok_iff.2 ⟨hi, rfl⟩

/-- Settles O2: the decoder answers nothing else. -/
theorem legalWordIsItsCommandsWord : Obligations.LegalWordIsItsCommandsWord :=
  fun _ _ => decode_eq_ok_iff.1

/-- Settles O4, by running the decoder on each word. -/
theorem wordsOfTheRulesDecode : Obligations.WordsOfTheRulesDecode := by
  unfold Obligations.WordsOfTheRulesDecode
  decide

/-! ### A row's mask, field by field (rules R72, R74) -/

theorem bitsAt_and (v w : Word) (lo len : Nat) : bitsAt (v &&& w) lo len = bitsAt v lo len &&& bitsAt w lo len := by
  simp only [bitsAt, BitVec.toNat_and, ← Nat.shiftRight_eq_div_pow, Nat.shiftRight_and_distrib, Nat.and_mod_two_pow]

theorem OpcodeRow.fits_iff {r : OpcodeRow} {w : Word} : r.fits w = true ↔
    (fieldsOf w).op &&& (fieldsOf r.mask).op = (fieldsOf r.bits).op ∧
    (fieldsOf w).a &&& (fieldsOf r.mask).a = (fieldsOf r.bits).a ∧
    (fieldsOf w).b &&& (fieldsOf r.mask).b = (fieldsOf r.bits).b ∧
    (fieldsOf w).c &&& (fieldsOf r.mask).c = (fieldsOf r.bits).c ∧
    (fieldsOf w).d &&& (fieldsOf r.mask).d = (fieldsOf r.bits).d ∧
    (fieldsOf w).e &&& (fieldsOf r.mask).e = (fieldsOf r.bits).e ∧
    (fieldsOf w).f &&& (fieldsOf r.mask).f = (fieldsOf r.bits).f := by
  rw [← Fields.mk.injEq, OpcodeRow.fits, beq_iff_eq, ← fieldsOf_injective.eq_iff]
  simp only [fieldsOf, bitsAt_and]

/-- A field masked by `0xF` is unused. -/
theorem and_unusedMask_eq_zero {v : Nat} (h : v < 16) : v &&& 15 = 0 ↔ v = 0 := by
  rw [Nat.and_two_pow_sub_one_eq_mod v 4, Nat.mod_eq_of_lt h]

/-- A field masked by `0xC` names a buffer. -/
theorem and_bufMask_eq_zero {v : Nat} (h : v < 16) : v &&& 12 = 0 ↔ v < 4 := by
  revert v
  decide

/-- Every row fixes the whole opcode. -/
theorem OpcodeRow.opcode_of_fits {r : OpcodeRow} (hr : r ∈ opcodeRows) {w : Word} (h : r.fits w = true) :
    (fieldsOf w).op = (fieldsOf r.bits).op := by
  have hmask : ∀ r ∈ opcodeRows, (fieldsOf r.mask).op = 255 := by decide
  obtain ⟨hop, -⟩ := OpcodeRow.fits_iff.1 h
  obtain ⟨hlt, -⟩ := fieldsOf_lt w
  rwa [hmask r hr, Nat.and_two_pow_sub_one_eq_mod _ 8, Nat.mod_eq_of_lt hlt] at hop

theorem exists_row_of_instr (i : Instr) :
    ∃ r ∈ opcodeRows, r.mnemonic = i.mnemonic ∧ (fieldsOf r.bits).op = i.opcode := by
  cases i <;> simp only [Instr.mnemonic, Instr.opcode] <;> decide

/-! ### The decoder against the rows (rules R74, R80) -/

/-- A word of the row that also meets items 4 and 5 of rule R80, which no mask can say. -/
def OpcodeRow.Accepts (r : OpcodeRow) (w : Word) : Prop :=
  r.fits w = true ∧ (r.mnemonic = "HDEC" → (fieldsOf w).c < 12) ∧
    (r.mnemonic = "EXTRACT" → (fieldsOf w).d < 12 ∧ (fieldsOf w).a ≠ (fieldsOf w).b)

theorem exists_fin_eq_val_and {n v : Nat} {P : Fin n → Prop} :
    (∃ b : Fin n, v = b.val ∧ P b) ↔ ∃ h : v < n, P ⟨v, h⟩ :=
  ⟨fun ⟨b, hb, hP⟩ => by subst hb; exact ⟨b.isLt, hP⟩, fun ⟨h, hP⟩ => ⟨⟨v, h⟩, rfl, hP⟩⟩

/-- Under a row's opcode the decoder's checks are the row's mask and items 4 and 5: a masked field is one the command does
not use, a half-masked one a buffer, an unmasked one a register, a base or part of an immediate. -/
theorem exists_decode_iff_accepts {r : OpcodeRow} (hr : r ∈ opcodeRows) {w : Word}
    (hop : (fieldsOf w).op = (fieldsOf r.bits).op) : (∃ i, decode w = .ok i) ↔ r.Accepts w := by
  obtain ⟨-, ha, hb, hc, hd, he, hf⟩ := fieldsOf_lt w
  have hlow := bitsAt_low_eq_zero (w := w)
  rw [OpcodeRow.Accepts, OpcodeRow.fits_iff]
  simp only [decode]
  generalize fieldsOf w = F at *
  generalize bitsAt w 0 24 = low at *
  fin_cases hr
  all_goals
    simp [-bind_pure_comp, hop, hlow, fieldsOf, bitsAt, and_unusedMask_eq_zero, and_bufMask_eq_zero, ha, hb, hc, hd, he,
      hf, exists_fin_eq_val_and, and_assoc, and_comm, and_left_comm]

/-- A word that decodes is accepted by the row of its command's mnemonic. -/
theorem exists_row_accepts {w : Word} {i : Instr} (h : decode w = .ok i) :
    ∃ r ∈ opcodeRows, r.mnemonic = i.mnemonic ∧ r.Accepts w := by
  obtain ⟨r, hr, hname, hop⟩ := exists_row_of_instr i
  exact ⟨r, hr, hname, (exists_decode_iff_accepts hr ((decode_opcode h).trans hop.symm)).1 ⟨i, h⟩⟩

/-- Settles O3: the row of a command's mnemonic carries its opcode, and under a row's opcode the decoder's checks are the
row's. -/
theorem decoderAgreesWithOpcodeTable : Obligations.DecoderAgreesWithOpcodeTable := by
  refine ⟨fun w i h => ?_, fun w => ⟨fun ⟨i, h⟩ => ?_, fun ⟨r, hr, hfits, hitems⟩ => ?_⟩⟩
  · obtain ⟨r, hr, hname, hfits, -⟩ := exists_row_accepts h
    exact ⟨r, hr, hname, hfits⟩
  · obtain ⟨r, hr, -, haccepts⟩ := exists_row_accepts h
    exact ⟨r, hr, haccepts⟩
  · exact (exists_decode_iff_accepts hr (OpcodeRow.opcode_of_fits hr hfits)).2 ⟨hfits, hitems⟩

end Sys2Proof

namespace Sys2Proof.Machine

/-! ### The step (rules R70, R270, R311) -/

/-- Settles O5: the fetch answers the decoded command, and the step is its meaning. -/
theorem stepRunsTheDecodedCommand : Obligations.StepRunsTheDecodedCommand :=
  fun _ _ hs hcp hi => step_of_fetch_ok hs (fetch_eq_ok.2 ⟨hcp, hi⟩)

/-- Settles O6: the fetch raises `IllegalCommand`, whose numbers are 6, the word and 0. -/
theorem illegalWordRaisesIllegalCommand : Obligations.IllegalWordRaisesIllegalCommand :=
  fun _ _ hs hcp he => step_of_fetch_error hs (fetch_of_illegal hcp he)

end Sys2Proof.Machine
end

section
/-! Proofs, `40_bitcodec.md`: the bits of regrouped sequences, the round trips of the bit codec and its five commands. -/

namespace Sys2Proof.Machine

/-! ### Bits of bytes and of groups (rules R100 to R102) -/

@[simp] theorem groupBitAt_nil (g p : Nat) : groupBitAt [] g p = false := by
  simp [groupBitAt]

theorem groupBitAt_cons_of_lt (v : Byte) (G : List Byte) {g p : Nat} (hp : p < g) :
    groupBitAt (v :: G) g p = v.getLsbD p := by
  simp [groupBitAt, Nat.div_eq_of_lt hp, Nat.mod_eq_of_lt hp]

theorem groupBitAt_cons_add (v : Byte) (G : List Byte) {g : Nat} (hg : 0 < g) (p : Nat) :
    groupBitAt (v :: G) g (p + g) = groupBitAt G g p := by
  simp [groupBitAt, Nat.add_div_right p hg]

theorem groupBitAt_mul_add (G : List Byte) {g j : Nat} (hj : j < g) (i : Nat) :
    groupBitAt G g (i * g + j) = (G.getD i 0).getLsbD j := by
  rw [groupBitAt, Nat.mul_comm, Nat.mul_add_div (by omega), Nat.div_eq_of_lt hj, Nat.add_zero, Nat.mul_add_mod,
    Nat.mod_eq_of_lt hj]

theorem groupBitAt_of_length_le (G : List Byte) {g p : Nat} (hg : 0 < g) (hp : G.length * g ≤ p) :
    groupBitAt G g p = false := by
  rw [groupBitAt, List.getD_eq_default _ _ ((Nat.le_div_iff_mul_le hg).2 hp)]
  simp

/-- The groups written out at width `g`, one after the other: bit `p` is that of rule R102, and at width 8 that of rule
R100. -/
theorem getD_flatMap_bitsOf (G : List Byte) {g : Nat} (hg : 0 < g) (p : Nat) :
    (G.flatMap fun v => bitsOf v.toNat g).getD p false = groupBitAt G g p := by
  induction G generalizing p with
  | nil => simp
  | cons v G ih =>
    rw [List.flatMap_cons]
    by_cases hp : p < g
    · rw [List.getD_append _ _ _ _ (by simpa), List.getD_eq_getElem _ _ (by simpa), getElem_bitsOf,
        groupBitAt_cons_of_lt v G hp]
      rfl
    · obtain ⟨q, rfl⟩ := Nat.exists_eq_add_of_le' (Nat.le_of_not_lt hp)
      rw [List.getD_append_right _ _ _ _ (by simp), length_bitsOf, Nat.add_sub_cancel, ih,
        groupBitAt_cons_add v G hg]

theorem getD_bytesToBits (S : List Byte) (p : Nat) : (bytesToBits S).getD p false = bitAt S p :=
  getD_flatMap_bitsOf S (by decide) p

/-- Bit `j` of the value of chunk `i` is bit `i * g + j` of the sequence cut. -/
theorem getLsbD_getD_map_chunks (g : Nat) {m i j : Nat} (bits : List Bool) (hi : i < m) (hj : j < 8) :
    (((chunks g m bits).map fun c => BitVec.ofNat 8 (val c)).getD i 0).getLsbD j =
      (decide (j < g) && bits.getD (i * g + j) false) := by
  rw [List.getD_eq_getElem _ _ (by simpa), List.getElem_map, BitVec.getLsbD_ofNat, testBit_val, getElem_chunks]
  by_cases hg : j < g
  · simp [hj, hg]
  · simp [hg]

/-- The law of rule R106: the bits of a group at and above the width are 0. -/
theorem getLsbD_bytesToGroups (S : List Byte) (g : Nat) {i j : Nat} (hi : i < ceilDiv (8 * S.length) g) (hj : j < 8) :
    ((bytesToGroups S g).getD i 0).getLsbD j = (decide (j < g) && bitAt S (i * g + j)) := by
  rw [bytesToGroups, getLsbD_getD_map_chunks g _ hi hj, getD_padTo, getD_bytesToBits]

/-- Regrouping changes no bit: position by position the groups hold the bits of the bytes. -/
theorem groupBitAt_bytesToGroups (S : List Byte) {g : Nat} (h1 : 1 ≤ g) (h8 : g ≤ 8) (p : Nat) :
    groupBitAt (bytesToGroups S g) g p = bitAt S p := by
  have hlt : p % g < g := Nat.mod_lt p h1
  by_cases hi : p / g < ceilDiv (8 * S.length) g
  · rw [groupBitAt, getLsbD_bytesToGroups S g hi (by omega), decide_eq_true hlt, Bool.true_and, Nat.div_add_mod']
  · have hp : ceilDiv (8 * S.length) g * g ≤ p := (Nat.le_div_iff_mul_le h1).1 (Nat.le_of_not_lt hi)
    have hend : S.length * 8 ≤ p := by
      have := le_ceilDiv_mul (8 * S.length) h1
      omega
    rw [groupBitAt_of_length_le _ h1 (by simpa using hp)]
    exact (groupBitAt_of_length_le S (by decide) hend).symm

/-- The law of rule R107, past the end too: position by position the bytes hold the bits of the groups. -/
theorem bitAt_groupsToBytes (G : List Byte) {g : Nat} (hg : 1 ≤ g) (p : Nat) :
    bitAt (groupsToBytes G g) p = groupBitAt G g p := by
  have hlt : p % 8 < 8 := Nat.mod_lt p (by decide)
  by_cases hi : p / 8 < ceilDiv (G.length * g) 8
  · rw [bitAt, groupsToBytes, getLsbD_getD_map_chunks 8 _ hi hlt, decide_eq_true hlt, Bool.true_and, Nat.div_add_mod',
      getD_padTo, getD_flatMap_bitsOf G hg]
  · have hp : ceilDiv (G.length * g) 8 * 8 ≤ p := by omega
    have hend : G.length * g ≤ p := (le_ceilDiv_mul _ (by decide)).trans hp
    rw [groupBitAt_of_length_le G hg hend]
    exact groupBitAt_of_length_le _ (by decide) (by simpa using hp)

/-- Groups of at most 8 bits never need more bytes than there are groups (rule R107). -/
theorem ceilDiv_mul_eight_le (n : Nat) {g : Nat} (hg : g ≤ 8) : ceilDiv (n * g) 8 ≤ n := by
  have := ceilDiv_mul_lt (n * g) (b := 8) (by decide)
  have := Nat.mul_le_mul_left n hg
  omega

/-! ### Regrouping and back (rule R105, item 3) -/

/-- Byte sequences of one length with the same bits are equal. -/
theorem eq_of_bitAt_eq {S T : List Byte} (hlen : S.length = T.length) (h : ∀ p, bitAt S p = bitAt T p) : S = T := by
  refine List.ext_getElem hlen fun i hS hT => BitVec.eq_of_getLsbD_eq fun j hj => ?_
  have hbit : groupBitAt S 8 (i * 8 + j) = groupBitAt T 8 (i * 8 + j) := h (i * 8 + j)
  rwa [groupBitAt_mul_add S hj, groupBitAt_mul_add T hj, List.getD_eq_getElem _ _ hS, List.getD_eq_getElem _ _ hT]
    at hbit

/-- Zero bytes at the end add no bit that reads 1. -/
theorem bitAt_append_replicate_zero (S : List Byte) (k p : Nat) : bitAt (S ++ List.replicate k 0) p = bitAt S p := by
  simp only [bitAt, List.getD_eq_getElem?_getD, List.getElem?_append, List.getElem?_replicate]
  by_cases hS : p / 8 < S.length
  · rw [if_pos hS]
  · rw [if_neg hS, List.getElem?_eq_none (Nat.le_of_not_lt hS)]
    split <;> rfl

theorem ceilDiv_mul_of_dvd {a b : Nat} (hb : 0 < b) (h : b ∣ a) : ceilDiv a b * b = a := by
  have hlo := le_ceilDiv_mul a hb
  have hhi := ceilDiv_mul_lt a hb
  have hsub : ceilDiv a b * b - a = 0 :=
    Nat.eq_zero_of_dvd_of_lt (Nat.dvd_sub (Nat.dvd_mul_left b _) h) (by omega)
  omega

/-- Padding the bits to whole groups takes part of one byte more, exactly when the width does not divide them. -/
theorem ceilDiv_ceilDiv_mul (L : Nat) {g : Nat} (h1 : 1 ≤ g) (h8 : g ≤ 8) :
    ceilDiv (ceilDiv (8 * L) g * g) 8 = L + if 8 * L % g = 0 then 0 else 1 := by
  have hlo := le_ceilDiv_mul (8 * L) h1
  have hhi := ceilDiv_mul_lt (8 * L) h1
  split
  case isTrue hdvd =>
    rw [ceilDiv_mul_of_dvd h1 (Nat.dvd_of_mod_eq_zero hdvd), ceilDiv]
    omega
  case isFalse hdvd =>
    have hne : ceilDiv (8 * L) g * g ≠ 8 * L := fun h => hdvd (by rw [← h, Nat.mul_mod_left])
    rw [ceilDiv]
    omega

/-- Regrouping and grouping back gives the bytes and the zero byte of the padding (rule R105, item 3). -/
theorem groupsToBytes_bytesToGroups (S : List Byte) {g : Nat} (h1 : 1 ≤ g) (h8 : g ≤ 8) :
    groupsToBytes (bytesToGroups S g) g = S ++ List.replicate (if 8 * S.length % g = 0 then 0 else 1) 0 := by
  refine eq_of_bitAt_eq ?_ fun p => ?_
  · simp [ceilDiv_ceilDiv_mul S.length h1 h8]
  · rw [bitAt_groupsToBytes _ h1, groupBitAt_bytesToGroups S h1 h8, bitAt_append_replicate_zero]

/-! ### Packing and unpacking (rules R103, R104, R105 items 1 and 2) -/

@[simp] theorem bitOfElem_elemOfBit (b : Bool) : bitOfElem (elemOfBit b) = b := by
  cases b <;> rfl

@[simp] theorem packBits_map_elemOfBit (bits : List Bool) : packBits (bits.map elemOfBit) = val bits := by
  simp [packBits, Function.comp_def]

/-- `bitlen(v)` bits hold `v`. -/
theorem lt_two_pow_bitlen (v : Nat) : v < 2 ^ bitlen v := by
  unfold bitlen
  split
  case isTrue hv => simp [hv]
  case isFalse hv => exact Nat.lt_log2_self

/-- One bit fewer does not, unless there are none. -/
theorem bitlen_eq_zero_or_two_pow_le (v : Nat) : bitlen v = 0 ∨ 2 ^ (bitlen v - 1) ≤ v := by
  unfold bitlen
  split
  case isTrue hv => exact .inl rfl
  case isFalse hv => exact .inr (Nat.log2_self_le hv)

/-- Bit `j` of a packed sequence is bit 0 of element `j`, and 0 past the end. -/
theorem testBit_packBits (T : List Byte) (j : Nat) : (packBits T).testBit j = (T.getD j 0).getLsbD 0 := by
  rw [packBits, testBit_val]
  exact List.getD_map T (0 : Byte) bitOfElem

/-- Element `j` of an unpacked value is its bit `j`, as 0 or 1. -/
theorem getD_map_elemOfBit_bitsOf (v : Nat) {w j : Nat} (hj : j < w) :
    ((bitsOf v w).map elemOfBit).getD j 0 = if v.testBit j then 1 else 0 := by
  rw [List.getD_eq_getElem _ _ (by simpa), List.getElem_map, getElem_bitsOf, elemOfBit]

/-- Settles O31: both sides of a regrouping have the same bits and the same length, and packing is `Val` where unpacking is
`BitsOf`. -/
theorem bitCodecRoundTrips : Obligations.BitCodecRoundTrips := by
  refine ⟨fun S g h1 h8 => groupsToBytes_bytesToGroups S h1 h8, fun v w _ => ⟨?minimal, ?width⟩, fun T _ => ?unpack⟩
  case minimal =>
    rw [packBits_map_elemOfBit, unpackMin, val_bitsOf, Nat.mod_eq_of_lt (lt_two_pow_bitlen _)]
  case width =>
    rw [packBits_map_elemOfBit, unpackWidth, val_bitsOf]
  case unpack =>
    simpa [unpackWidth, packBits] using bitsOf_val (T.map bitOfElem)

/-! ### How a command of the bit codec ends (rules R300, R305) -/

theorem State.finish_require_of_true (s : State) {c : Prop} [Decidable c] (h : c) (f : Fault)
    (k : Unit → Except Fault State) : s.finish (require c f >>= k) = s.finish (k ()) := by
  rw [require_of_true h, except_ok_bind]

theorem State.finish_require_of_false (s : State) {c : Prop} [Decidable c] (h : ¬c) (f : Fault)
    (k : Unit → Except Fault State) : s.finish (require c f >>= k) = .next (s.takeFault f) := by
  rw [require_of_false h, except_error_bind, State.finish_error]

/-- A width outside `[1, 8]` raises `InvalidParameter`, whatever would come next (rule R306). -/
theorem State.finish_checkDepth_of_invalid (s : State) {g : Nat} (hg : g < 1 ∨ 8 < g) (k : Unit → Except Fault State) :
    s.finish (checkDepth g >>= k) = .next (s.faultEntry 1 g 0) :=
  s.finish_require_of_false (by omega) _ k

theorem State.finish_checkDepth_of_valid (s : State) {g : Nat} (h1 : 1 ≤ g) (h8 : g ≤ 8)
    (k : Unit → Except Fault State) : s.finish (checkDepth g >>= k) = s.finish (k ()) :=
  s.finish_require_of_true ⟨h1, h8⟩ _ k

theorem State.finish_writeBuf_of_le (s : State) (b : Buf) {l : List Byte} (h : l.length ≤ s.caps.bufCap) :
    s.finish (s.writeBuf b l) = .next (s.setBuf b l).advance := by
  rw [State.writeBuf_eq_ok.2 ⟨h, rfl⟩, State.finish_ok]

/-- A result longer than the buffer raises `BufferOverflow` with its length (rule R314). -/
theorem State.finish_writeBuf_of_lt (s : State) (b : Buf) {l : List Byte} {n : Nat} (hl : l.length = n)
    (h : s.caps.bufCap < n) : s.finish (s.writeBuf b l) = .next (s.faultEntry 9 n s.caps.bufCap) := by
  subst hl
  rw [State.writeBuf_eq_error.2 ⟨h, rfl⟩, State.finish_error]
  rfl

/-! ### The commands (rules R106 to R110) -/

/-- Settles O27: the width's check, then the write of `BytesToGroups`, whose bits are the source's. -/
theorem bytesToGroupsCommand : Obligations.BytesToGroupsCommand := by
  intro bd bs xg s
  refine ⟨_, _, rfl, rfl, ?word, fun hg => s.finish_checkDepth_of_invalid hg _, fun h1 h8 hm => ?overflow,
    fun h1 h8 hm => ⟨bytesToGroups (s.readBuf bs) (s.readReg xg).toNat, length_bytesToGroups .., ?bits, ?completes⟩⟩
  case word => simp (disch := omega) [encode, Instr.opcode, toNat_wordR]
  case overflow =>
    exact (s.finish_checkDepth_of_valid h1 h8 _).trans (s.finish_writeBuf_of_lt bd (length_bytesToGroups ..) hm)
  case bits => exact fun i j hi hj => getLsbD_bytesToGroups _ _ hi hj
  case completes =>
    exact (s.finish_checkDepth_of_valid h1 h8 _).trans
      (s.finish_writeBuf_of_le bd ((length_bytesToGroups ..).trans_le hm))

/-- Settles O28: the width's check, then the write of `GroupsToBytes`, which is no longer than its source. -/
theorem groupsToBytesCommand : Obligations.GroupsToBytesCommand := by
  intro bd bs xg s
  refine ⟨_, _, rfl, rfl, ?word, fun hg => s.finish_checkDepth_of_invalid hg _, fun h1 h8 hfit =>
    ⟨groupsToBytes (s.readBuf bs) (s.readReg xg).toNat, length_groupsToBytes .., ?bits, ?completes⟩⟩
  case word => simp (disch := omega) [encode, Instr.opcode, toNat_wordR]
  case bits => exact fun p _ => bitAt_groupsToBytes _ h1 p
  case completes =>
    have hlen : (groupsToBytes (s.readBuf bs) (s.readReg xg).toNat).length ≤ s.caps.bufCap := by
      rw [length_groupsToBytes]
      exact (ceilDiv_mul_eight_le _ h8).trans hfit
    exact (s.finish_checkDepth_of_valid h1 h8 _).trans (s.finish_writeBuf_of_le bd hlen)

/-- Settles O29: at most 32 elements lose no bit in the register. -/
theorem packCommand : Obligations.PackCommand := by
  intro xd bs s
  refine ⟨?word, fun hlong => s.finish_require_of_false (by omega) _ _, fun hfit =>
    ⟨BitVec.ofNat 32 (packBits (s.readBuf bs)), fun j => ?bits, s.finish_require_of_true hfit _ _⟩⟩
  case word => simp (disch := omega) [encode, Instr.opcode, toNat_wordR]
  case bits =>
    rw [BitVec.getLsbD_ofNat, testBit_packBits]
    by_cases hj : j < 32
    · simp [hj]
    · have hend : (s.readBuf bs).length ≤ j := hfit.trans (by omega)
      rw [decide_eq_false hj, List.getD_eq_default _ _ hend]
      rfl

/-- Settles O30: UNPK writes the `bitlen` bits of its value, UNPKW, once the width is checked, the bits asked for. -/
theorem unpackCommands : Obligations.UnpackCommands := by
  refine ⟨fun bd xs s => ?unpk, fun bd xs xw s => ?unpkw⟩
  case unpk =>
    have hlen : ((unpackMin (s.readReg xs).toNat).map elemOfBit).length = bitlen (s.readReg xs).toNat := by
      simp [unpackMin]
    refine ⟨bitlen (s.readReg xs).toNat, ⟨lt_two_pow_bitlen _, bitlen_eq_zero_or_two_pow_le _⟩, ?unpkWord,
      s.finish_writeBuf_of_lt bd hlen, fun hfit =>
      ⟨_, hlen, fun j hj => getD_map_elemOfBit_bitsOf _ hj, s.finish_writeBuf_of_le bd (hlen.trans_le hfit)⟩⟩
    case unpkWord => simp (disch := omega) [encode, Instr.opcode, toNat_wordR]
  case unpkw =>
    have hlen : ((unpackWidth (s.readReg xs).toNat (s.readReg xw).toNat).map elemOfBit).length =
        (s.readReg xw).toNat := by
      simp [unpackWidth]
    refine ⟨_, rfl, ?unpkwWord, fun hwide => s.finish_require_of_false (by omega) _ _, fun hw hlong =>
      (s.finish_require_of_true hw _ _).trans (s.finish_writeBuf_of_lt bd hlen hlong), fun hw hfit =>
      ⟨_, hlen, fun j hj => getD_map_elemOfBit_bitsOf _ hj,
        (s.finish_require_of_true hw _ _).trans (s.finish_writeBuf_of_le bd (hlen.trans_le hfit))⟩⟩
    case unpkwWord => simp (disch := omega) [encode, Instr.opcode, toNat_wordR]

end Sys2Proof.Machine
end

section
/-! Proofs, `41_compression.md`: what the readers of `Inflate` read and how much they make of it, the commands of the deflate
adapter, the frames of the commands with several destinations, and what is embedded in a plane and extracted from it. -/

namespace Sys2Proof.Machine

/-! ### Readers of a bit stream (rules R125, R134) -/

/-- Whatever `f` answers it reads from the front of its input: it leaves all but the first `n` bits, `Q` holds of the value
and of `n`, and whole bytes appended to the input change nothing and are left too. Whole bytes, because a stored block skips
to a byte boundary counted from the end (log entry 12). -/
def ReadsPrefix {α : Type} (f : List Bool → Option (α × List Bool)) (Q : α → Nat → Prop) : Prop :=
  ∀ bs a rest, f bs = some (a, rest) → (∃ n, bs.length = rest.length + n ∧ Q a n) ∧
    ∀ ws : List Bool, 8 ∣ ws.length → f (bs ++ ws) = some (a, rest ++ ws)

section
variable {α β : Type} {f g : List Bool → Option (α × List Bool)} {Q R : α → Nat → Prop}

theorem ReadsPrefix.none : ReadsPrefix (fun _ => Option.none) Q := nofun

theorem ReadsPrefix.some {a : α} (h : Q a 0) : ReadsPrefix (fun bs => Option.some (a, bs)) Q := by
  rintro bs _ _ ⟨⟩
  exact ⟨⟨0, rfl, h⟩, fun _ _ => rfl⟩

theorem ReadsPrefix.mono (hf : ReadsPrefix f Q) (h : ∀ a n, Q a n → R a n) : ReadsPrefix f R := by
  intro bs a rest ha
  obtain ⟨⟨n, hn, hQ⟩, happ⟩ := hf bs a rest ha
  exact ⟨⟨n, hn, h a n hQ⟩, happ⟩

theorem ReadsPrefix.congr (h : ∀ bs, f bs = g bs) (hg : ReadsPrefix g Q) : ReadsPrefix f Q := by
  rwa [funext h]

theorem ReadsPrefix.ite {c : Prop} [Decidable c] (hf : c → ReadsPrefix f Q) (hg : ¬c → ReadsPrefix g Q) :
    ReadsPrefix (fun bs => if c then f bs else g bs) Q := by
  split
  case isTrue h => exact hf h
  case isFalse h => exact hg h

/-- Two readers in turn: the second one's bits come after the first one's. -/
theorem ReadsPrefix.bind {k : α × List Bool → Option (β × List Bool)} {R : β → Nat → Prop} (hf : ReadsPrefix f Q)
    (hk : ∀ a m, Q a m → ReadsPrefix (fun bs => k (a, bs)) fun b n => R b (m + n)) :
    ReadsPrefix (fun bs => f bs >>= k) R := by
  intro bs b rest h
  obtain ⟨⟨a, mid⟩, ha, hb⟩ := Option.bind_eq_some_iff.1 h
  obtain ⟨⟨m, hm, hQ⟩, happ⟩ := hf bs a mid ha
  obtain ⟨⟨n, hn, hR⟩, happ'⟩ := hk a m hQ mid b rest hb
  refine ⟨⟨m + n, by omega, hR⟩, fun ws hws => Option.bind_eq_some_iff.2 ⟨(a, mid ++ ws), happ ws hws, happ' ws hws⟩⟩

theorem ReadsPrefix.map {k : α → β} {R : β → Nat → Prop} (hf : ReadsPrefix f Q) (h : ∀ a n, Q a n → R (k a) n) :
    ReadsPrefix (fun bs => (f bs).map fun r => (k r.1, r.2)) R := by
  intro bs b rest hb
  obtain ⟨⟨a, mid⟩, ha, hk⟩ := Option.map_eq_some_iff.1 hb
  obtain ⟨rfl, rfl⟩ := Prod.mk.inj hk
  obtain ⟨⟨n, hn, hQ⟩, happ⟩ := hf bs a mid ha
  exact ⟨⟨n, hn, h a n hQ⟩, fun ws hws => Option.map_eq_some_iff.2 ⟨_, happ ws hws, rfl⟩⟩

/-- Computing something without reading, which may fail, before a reader. -/
theorem ReadsPrefix.option_bind {γ : Type} {x : Option γ} {k : γ → List Bool → Option (α × List Bool)}
    (hk : ∀ c, ReadsPrefix (k c) Q) : ReadsPrefix (fun bs => x >>= fun c => k c bs) Q := by
  cases x with
  | none => exact .none
  | some c => exact hk c

end

/-- `NeedBits(n)` reads `n` bits, a number below `2^n` (rule R125). -/
theorem needBits_reads (k : Nat) : ReadsPrefix (needBits k) fun v n => v < 2 ^ k ∧ n = k := by
  intro bs v rest h
  rw [needBits_eq] at h
  split at h
  case isFalse => simp at h
  case isTrue hk =>
    obtain ⟨rfl, rfl⟩ := Prod.mk.inj (Option.some.inj h)
    refine ⟨⟨k, ?_, ?_, rfl⟩, fun ws _ => ?_⟩
    · rw [List.length_drop]
      omega
    · simpa [hk] using val_lt (bs.take k)
    · rw [needBits_eq, if_pos (by rw [List.length_append]; omega), List.take_append_of_le_length hk,
        List.drop_append_of_le_length hk]

/-- A symbol has an entry of the code, and is read with as many bits as the entry says (rule R129). -/
theorem decodeSymFrom_reads {T : List CodeEntry} {m : Nat} (hT : ∀ e ∈ T, m ≤ e.len) (k l v : Nat) :
    ReadsPrefix (decodeSymFrom T k l v) fun _ n => m < l + n ∧ 1 ≤ n := by
  induction k generalizing l v with
  | zero => exact .none
  | succ k ih =>
    intro bs s rest h
    cases bs with
    | nil => simp [decodeSymFrom] at h
    | cons b bs =>
      simp only [decodeSymFrom, List.cons_append] at h ⊢
      cases he : T.find? (fun e => e.len == l && e.code == 2 * v + b.toNat) with
      | some e =>
        simp only [he] at h ⊢
        obtain ⟨rfl, rfl⟩ := Prod.mk.inj (Option.some.inj h)
        have hm : m ≤ e.len := hT e (List.mem_of_find?_eq_some he)
        have hl : e.len = l ∧ e.code = 2 * v + b.toNat := by simpa using List.find?_some he
        exact ⟨⟨1, rfl, by omega, by omega⟩, fun _ _ => rfl⟩
      | none =>
        simp only [he] at h ⊢
        obtain ⟨⟨n, hn, hm, h1⟩, happ⟩ := ih (l + 1) _ bs s rest h
        exact ⟨⟨n + 1, by simp only [List.length_cons]; omega, by omega, by omega⟩, happ⟩

/-- A symbol is read with at least as many bits as the shortest code has, and with one at least. -/
theorem decodeSym_reads {T : List CodeEntry} {m : Nat} (hT : ∀ e ∈ T, m ≤ e.len) :
    ReadsPrefix (decodeSym T) fun _ n => m ≤ n ∧ 1 ≤ n :=
  (decodeSymFrom_reads hT 15 1 0).mono fun _ _ ⟨hm, h1⟩ => ⟨by omega, h1⟩

theorem len_mem_of_mem_assignCodes {next L : List Nat} {sym : Nat} {e : CodeEntry}
    (h : e ∈ assignCodes next sym L) : e.len ∈ L := by
  induction L generalizing next sym with
  | nil => simp [assignCodes] at h
  | cons l L ih =>
    simp only [assignCodes] at h
    split at h
    case isTrue => exact List.mem_cons_of_mem l (ih h)
    case isFalse =>
      obtain rfl | h := List.mem_cons.1 h
      · exact List.mem_cons_self
      · exact List.mem_cons_of_mem l (ih h)

theorem seven_le_len_of_mem_fixedLit {e : CodeEntry} (h : e ∈ canonicalCode fixedLitLengths) : 7 ≤ e.len := by
  have hmem := len_mem_of_mem_assignCodes h
  rw [fixedLitLengths] at hmem
  simp only [List.mem_append, List.mem_replicate] at hmem
  omega

/-! ### Every reader of `Inflate` reads from the front (rules R127, R129 to R134) -/

theorem takeBytes_succ (k : Nat) (bs : List Bool) (out : List Byte) :
    takeBytes (k + 1) bs out = needBits 8 bs >>= fun (v, bs) => takeBytes k bs (BitVec.ofNat 8 v :: out) := by
  simp only [takeBytes]
  cases needBits 8 bs <;> rfl

theorem takeBytes_reads (k : Nat) (out : List Byte) :
    ReadsPrefix (fun bs => takeBytes k bs out) fun o n => o.length = out.length + k ∧ n = 8 * k := by
  induction k generalizing out with
  | zero => exact .some ⟨rfl, rfl⟩
  | succ k ih =>
    refine .congr (takeBytes_succ k · out) (.bind (needBits_reads 8) fun v m ⟨_, hm⟩ =>
      (ih (BitVec.ofNat 8 v :: out)).mono fun o n ⟨ho, hn⟩ => ?_)
    rw [List.length_cons] at ho
    omega

/-- Bits to skip up to the next byte boundary: as many with whole bytes appended. -/
theorem dropToByte_reads : ReadsPrefix (fun bs => some ((), bs.drop (bs.length % 8))) fun _ _ => True := by
  rintro bs _ _ ⟨⟩
  have hle : bs.length % 8 ≤ bs.length := Nat.mod_le _ _
  refine ⟨⟨bs.length % 8, ?_, trivial⟩, fun ws hws => ?_⟩
  · rw [List.length_drop]
    omega
  · simp only [List.length_append, show (bs.length + ws.length) % 8 = bs.length % 8 by omega,
      List.drop_append_of_le_length hle]

theorem needBits_dropToByte_reads (k : Nat) :
    ReadsPrefix (fun bs => needBits k (bs.drop (bs.length % 8))) fun _ n => k ≤ n :=
  dropToByte_reads.bind (k := fun r => needBits k r.2) fun _ _ _ => (needBits_reads k).mono fun _ _ ⟨_, hn⟩ => by omega

/-- `n` bits read, `m` at least, that made no more than 258 bytes each of `out` into `o` (rule R134). -/
def Expands (m : Nat) (out o : List Byte) (n : Nat) : Prop := m ≤ n ∧ o.length ≤ out.length + 258 * n

theorem storedBlock_reads (out : List Byte) : ReadsPrefix (fun bs => storedBlock bs out) (Expands 7 out) := by
  refine .bind (needBits_dropToByte_reads 16) fun len m hm => .bind (needBits_reads 16) fun nlen _ _ =>
    .ite (fun _ => ?_) fun _ => .none
  refine (takeBytes_reads len out).mono fun o n ⟨ho, hn⟩ => ?_
  simp only [Expands]
  omega

@[simp] theorem length_copyBack (dist n : Nat) (out : List Byte) : (copyBack dist n out).length = out.length + n := by
  induction n generalizing out with
  | zero => rfl
  | succ n ih =>
    rw [copyBack, ih, List.length_cons]
    omega

/-- The longest copy is of 258 bytes (rule R133). -/
theorem lengthBase_add_le : ∀ i ≤ 28, lengthBase.getD i 0 + 2 ^ lengthExtra.getD i 0 ≤ 259 := by decide

theorem matchCopy_reads (dist : List CodeEntry) (s : Nat) (out : List Byte) :
    ReadsPrefix (fun bs => matchCopy dist s bs out) fun o _ => o.length ≤ out.length + 258 := by
  refine .ite (fun _ => .none) fun hs => .bind (needBits_reads _) fun lx _ ⟨hlx, _⟩ =>
    .bind (decodeSym_reads fun _ _ => Nat.zero_le _) fun d _ _ => .ite (fun _ => .none) fun _ =>
    .bind (needBits_reads _) fun dx _ _ => .ite (fun _ => .none) fun _ => .some ?_
  have := lengthBase_add_le (s - 257) (by omega)
  rw [length_copyBack]
  omega

theorem blockData_succ (lit dist : List CodeEntry) (fuel : Nat) (bs : List Bool) (out : List Byte) :
    blockData lit dist (fuel + 1) bs out = decodeSym lit bs >>= fun (s, bs) =>
      if s < 256 then blockData lit dist fuel bs (BitVec.ofNat 8 s :: out)
      else if s = 256 then some (out, bs)
      else matchCopy dist s bs out >>= fun (out, bs) => blockData lit dist fuel bs out := by
  simp only [blockData]
  cases decodeSym lit bs with
  | none => rfl
  | some r =>
    simp only [Option.bind_eq_bind, Option.bind_some]
    cases matchCopy dist r.1 r.2 out <;> rfl

theorem blockData_reads {lit dist : List CodeEntry} {m : Nat} (hlit : ∀ e ∈ lit, m ≤ e.len) (fuel : Nat)
    (out : List Byte) : ReadsPrefix (fun bs => blockData lit dist fuel bs out) (Expands m out) := by
  induction fuel generalizing out with
  | zero => exact .none
  | succ fuel ih =>
    refine .congr (blockData_succ lit dist fuel · out) (.bind (decodeSym_reads hlit) fun s l ⟨hl, h1⟩ =>
      .ite (fun _ => (ih _).mono fun o n ho => ?literal) fun _ => .ite (fun _ => .some ?endOfBlock) fun _ =>
      .bind (matchCopy_reads dist s out) fun o' n' ho' => (ih o').mono fun o n ho => ?copy)
    case literal =>
      simp only [Expands, List.length_cons] at ho ⊢
      omega
    case endOfBlock =>
      simp only [Expands]
      omega
    case copy =>
      simp only [Expands] at ho ⊢
      omega

/-- More turns than a block needs change nothing. -/
theorem blockData_mono {lit dist : List CodeEntry} {fuel fuel' : Nat} (hle : fuel ≤ fuel') {bs : List Bool}
    {out : List Byte} {r : List Byte × List Bool} (h : blockData lit dist fuel bs out = some r) :
    blockData lit dist fuel' bs out = some r := by
  induction fuel generalizing fuel' bs out with
  | zero => simp [blockData] at h
  | succ fuel ih =>
    obtain ⟨fuel', rfl⟩ := Nat.exists_eq_add_of_le' (Nat.le_trans (Nat.le_add_left 1 fuel) hle)
    rw [blockData_succ] at h ⊢
    obtain ⟨⟨s, mid⟩, hs, h⟩ := Option.bind_eq_some_iff.1 h
    refine Option.bind_eq_some_iff.2 ⟨(s, mid), hs, ?_⟩
    simp only at h ⊢
    split_ifs at h ⊢
    · exact ih (by omega) h
    · exact h
    · obtain ⟨q, hq, h⟩ := Option.bind_eq_some_iff.1 h
      exact Option.bind_eq_some_iff.2 ⟨q, hq, ih (by omega) h⟩

theorem readCodeLengths_cons (o : Nat) (os : List Nat) (bs : List Bool) (cl : List Nat) :
    readCodeLengths (o :: os) bs cl = needBits 3 bs >>= fun (v, bs) => readCodeLengths os bs (cl.set o v) := by
  simp only [readCodeLengths]
  cases needBits 3 bs <;> rfl

theorem readCodeLengths_reads (os cl : List Nat) : ReadsPrefix (fun bs => readCodeLengths os bs cl) fun _ _ => True := by
  induction os generalizing cl with
  | nil => exact .some trivial
  | cons o os ih =>
    exact .congr (readCodeLengths_cons o os · cl) (.bind (needBits_reads 3) fun v _ _ => ih (cl.set o v))

theorem lengthItem_reads (s : Nat) (lens : List Nat) : ReadsPrefix (lengthItem s lens) fun _ _ => True := by
  refine .ite (fun _ => .some trivial) fun _ => .ite (fun _ => ?_) fun _ => .ite
    (fun _ => .map (k := fun v => List.replicate (3 + v) 0) (needBits_reads 3) fun _ _ _ => trivial)
    fun _ => .map (k := fun v => List.replicate (11 + v) 0) (needBits_reads 7) fun _ _ _ => trivial
  cases lens.getLast? with
  | none => exact .none
  | some last => exact .map (k := fun v => List.replicate (3 + v) last) (needBits_reads 2) fun _ _ _ => trivial

theorem readLengths_zero (T : List CodeEntry) (total : Nat) (lens : List Nat) (bs : List Bool) :
    readLengths T total 0 lens bs = if total ≤ lens.length then some (lens, bs) else none := by
  rw [readLengths]

theorem readLengths_succ (T : List CodeEntry) (total fuel : Nat) (lens : List Nat) (bs : List Bool) :
    readLengths T total (fuel + 1) lens bs = if total ≤ lens.length then some (lens, bs) else
      decodeSym T bs >>= fun (s, bs) => lengthItem s lens bs >>= fun (more, bs) =>
        if total < lens.length + more.length then none else readLengths T total fuel (lens ++ more) bs := by
  rw [readLengths]
  cases decodeSym T bs with
  | none => rfl
  | some r =>
    simp only [Option.bind_eq_bind, Option.bind_some]
    cases lengthItem r.1 lens r.2 <;> rfl

theorem readLengths_reads (T : List CodeEntry) (total fuel : Nat) (lens : List Nat) :
    ReadsPrefix (readLengths T total fuel lens) fun _ _ => True := by
  induction fuel generalizing lens with
  | zero =>
    exact .congr (readLengths_zero T total lens) (.ite (fun _ => .some trivial) fun _ => .none)
  | succ fuel ih =>
    exact .congr (readLengths_succ T total fuel lens) (.ite (fun _ => .some trivial) fun _ =>
      .bind (decodeSym_reads fun _ _ => Nat.zero_le _) fun s _ _ => .bind (lengthItem_reads s lens) fun more _ _ =>
      .ite (fun _ => .none) fun _ => ih (lens ++ more))

theorem dynamicCodes_reads : ReadsPrefix dynamicCodes fun _ n => 7 ≤ n := by
  refine .bind (needBits_reads 5) fun hl m ⟨_, hm⟩ => .bind (needBits_reads 5) fun hd n ⟨_, hn⟩ =>
    .bind (needBits_reads 4) fun hc _ _ => .ite (fun _ => .none) fun _ =>
    .bind (readCodeLengths_reads _ _) fun cl _ _ => .option_bind fun T =>
    .bind (readLengths_reads _ _ _ _) fun lens _ _ => .ite (fun _ => .none) fun _ =>
    .option_bind fun lit => .option_bind fun dist => .some ?_
  omega

/-- A compressed block turns over at most once per bit left, and once more. -/
theorem blockData_length_reads {lit dist : List CodeEntry} {m : Nat} (hlit : ∀ e ∈ lit, m ≤ e.len) (out : List Byte) :
    ReadsPrefix (fun bs => blockData lit dist (bs.length + 1) bs out) (Expands m out) := by
  intro bs o rest h
  obtain ⟨hn, happ⟩ := blockData_reads hlit _ out bs o rest h
  exact ⟨hn, fun ws hws => blockData_mono (by simp) (happ ws hws)⟩

theorem inflateBlock_dynamic (bs : List Bool) (out : List Byte) :
    inflateBlock 2 bs out = dynamicCodes bs >>= fun (codes, bs) => blockData codes.1 codes.2 (bs.length + 1) bs out := by
  simp only [inflateBlock]
  cases dynamicCodes bs <;> rfl

/-- A block has a stored header of 32 bits, an end-of-block code of 7 bits, or the counts of a dynamic header. -/
theorem inflateBlock_reads (btype : Nat) (out : List Byte) :
    ReadsPrefix (fun bs => inflateBlock btype bs out) (Expands 7 out) := by
  match btype with
  | 0 => exact storedBlock_reads out
  | 1 => exact blockData_length_reads (fun _ => seven_le_len_of_mem_fixedLit) out
  | 2 =>
    refine .congr (inflateBlock_dynamic · out) (.bind dynamicCodes_reads fun codes m hm =>
      (blockData_length_reads (fun _ _ => Nat.zero_le _) out).mono fun o n ho => ?_)
    simp only [Expands] at ho ⊢
    omega
  | _ + 3 => exact .none

/-- One turn of the block loop: the final bit, the type and the block (rule R126). -/
def readBlock (out : List Byte) (bs : List Bool) : Option ((Nat × List Byte) × List Bool) :=
  needBits 1 bs >>= fun (bfinal, bs) => needBits 2 bs >>= fun (btype, bs) =>
    inflateBlock btype bs out >>= fun (o, bs) => some ((bfinal, o), bs)

theorem inflateBlocks_succ (fuel : Nat) (bs : List Bool) (out : List Byte) :
    inflateBlocks (fuel + 1) bs out = readBlock out bs >>= fun ((bfinal, o), bs) =>
      if bfinal = 1 then some o.reverse else inflateBlocks fuel bs o := by
  rw [inflateBlocks, readBlock]
  cases needBits 1 bs with
  | none => rfl
  | some r =>
    simp only [Option.bind_eq_bind, Option.bind_some]
    cases needBits 2 r.2 with
    | none => rfl
    | some q =>
      simp only [Option.bind_some]
      cases inflateBlock q.1 q.2 out <;> rfl

/-- The three bits before the block make no output, which leaves the bound on the output strict (rule R134). -/
theorem readBlock_reads (out : List Byte) :
    ReadsPrefix (readBlock out) fun r n => 10 ≤ n ∧ r.2.length < out.length + 258 * n := by
  refine .bind (needBits_reads 1) fun bfinal l ⟨_, hl⟩ => .bind (needBits_reads 2) fun btype m ⟨_, hm⟩ =>
    .bind (inflateBlock_reads btype out) fun o n ho => .some ?_
  simp only [Expands] at ho ⊢
  omega

theorem inflateBlocks_bounds {fuel : Nat} {bs : List Bool} {out S : List Byte}
    (h : inflateBlocks fuel bs out = some S) : 10 ≤ bs.length ∧ S.length < out.length + 258 * bs.length := by
  induction fuel generalizing bs out with
  | zero => simp [inflateBlocks] at h
  | succ fuel ih =>
    rw [inflateBlocks_succ] at h
    obtain ⟨⟨⟨bfinal, o⟩, rest⟩, hr, h⟩ := Option.bind_eq_some_iff.1 h
    obtain ⟨⟨n, hn, hmin, hlt⟩, -⟩ := readBlock_reads out bs _ rest hr
    dsimp only at h hlt
    split at h
    case isTrue =>
      obtain rfl := Option.some.inj h
      rw [List.length_reverse]
      omega
    case isFalse =>
      obtain ⟨-, hS⟩ := ih h
      omega

/-- Whole bytes after the final block, and more turns than the blocks need, change nothing (rule R126). -/
theorem inflateBlocks_append {fuel fuel' : Nat} {bs ws : List Bool} {out S : List Byte}
    (h : inflateBlocks fuel bs out = some S) (hle : fuel ≤ fuel') (hws : 8 ∣ ws.length) :
    inflateBlocks fuel' (bs ++ ws) out = some S := by
  induction fuel generalizing fuel' bs out with
  | zero => simp [inflateBlocks] at h
  | succ fuel ih =>
    obtain ⟨fuel', rfl⟩ := Nat.exists_eq_add_of_le' (Nat.le_trans (Nat.le_add_left 1 fuel) hle)
    rw [inflateBlocks_succ] at h ⊢
    obtain ⟨⟨⟨bfinal, o⟩, rest⟩, hr, h⟩ := Option.bind_eq_some_iff.1 h
    obtain ⟨-, happ⟩ := readBlock_reads out bs _ rest hr
    refine Option.bind_eq_some_iff.2 ⟨_, happ ws hws, ?_⟩
    dsimp only at h ⊢
    split
    case isTrue hfinal => rwa [if_pos hfinal] at h
    case isFalse hfinal => exact ih (by rwa [if_neg hfinal] at h) (by omega)

/-! ### The bounds of `Inflate` (rules R126, R127, R134, R136) -/

/-- A stream has at least 2 bytes (rule R136). -/
theorem two_le_length_of_inflate {Z S : List Byte} (h : inflate Z = some S) : 2 ≤ Z.length := by
  obtain ⟨hmin, -⟩ := inflateBlocks_bounds h
  rw [length_bytesToBits] at hmin
  omega

theorem length_lt_of_inflate {Z S : List Byte} (h : inflate Z = some S) : S.length < 258 * (8 * Z.length) := by
  obtain ⟨-, hlt⟩ := inflateBlocks_bounds h
  simpa using hlt

theorem inflate_append {Z S : List Byte} (h : inflate Z = some S) (U : List Byte) : inflate (Z ++ U) = some S := by
  rw [inflate, bytesToBits_append]
  exact inflateBlocks_append h (by simp) ⟨U.length, length_bytesToBits U⟩

/-- `NLEN` is the complement of `LEN`, byte by byte (rule R127). -/
theorem storedHeader_true {n : Nat} (h : n < 2 ^ 16) : storedHeader true n =
    [0x01, BitVec.ofNat 8 n, BitVec.ofNat 8 (n / 256), ~~~(BitVec.ofNat 8 n), ~~~(BitVec.ofNat 8 (n / 256))] := by
  have low : BitVec.ofNat 8 (65535 - n) = ~~~(BitVec.ofNat 8 n) := by
    apply BitVec.eq_of_toNat_eq
    simp only [BitVec.toNat_not, BitVec.toNat_ofNat]
    omega
  have high : BitVec.ofNat 8 ((65535 - n) / 256) = ~~~(BitVec.ofNat 8 (n / 256)) := by
    apply BitVec.eq_of_toNat_eq
    simp only [BitVec.toNat_not, BitVec.toNat_ofNat]
    omega
  rw [storedHeader, low, high]
  rfl

theorem inflate_stored_append {S : List Byte} (h : S.length < 2 ^ 16) (U : List Byte) :
    inflate (storedHeader true S.length ++ S ++ U) = some S := by
  rw [inflate, inflateBlocks_stored true S U h]
  simp

/-- Settles O35: every reader of the stream reads from its front, a turn of the block loop 10 bits at least, which make
fewer than 258 bytes each. -/
theorem inflateBoundsAndStoredBlocks : Obligations.InflateBoundsAndStoredBlocks := by
  refine ⟨fun Z S h => ⟨two_le_length_of_inflate h, length_lt_of_inflate h⟩, fun Z S U h => inflate_append h U,
    fun S U h => ?_⟩
  rw [← storedHeader_true h]
  exact inflate_stored_append h U

/-! ### The commands (rules R122 to R124) -/

/-- Settles O32: the command writes what the compressor answers, through the checked write of a buffer. -/
theorem deflateCommand : Obligations.DeflateCommand := by
  intro bd bs s
  refine ⟨?word, fun hfit => s.finish_writeBuf_of_le bd hfit, rfl, fun D hlong => s.finish_writeBuf_of_lt bd rfl hlong⟩
  case word => simp (disch := omega) [encode, Instr.opcode, toNat_wordR]

theorem exec_infl_of_none {s : State} {bd bs : Buf} (h : inflate (s.readBuf bs) = none) :
    exec (.infl bd bs) s = .next (s.faultEntry 10 (s.blen bs) 0) := by
  rw [exec, execInfl, h]
  rfl

theorem exec_infl_of_some {s : State} {bd bs : Buf} {S : List Byte} (h : inflate (s.readBuf bs) = some S) :
    exec (.infl bd bs) s = s.finish (s.writeBuf bd S) := by
  rw [exec, execInfl, h]

/-- Settles O33: without a stream the fault names the source's length, else the output is written. -/
theorem inflateCommand : Obligations.InflateCommand := by
  intro bd bs s
  refine ⟨?word, exec_infl_of_none, fun S hS => ⟨fun hlong => ?overflow, fun hfit => ?completes⟩⟩
  case word => simp (disch := omega) [encode, Instr.opcode, toNat_wordR]
  case overflow => exact (exec_infl_of_some hS).trans (s.finish_writeBuf_of_lt bd rfl hlong)
  case completes => exact (exec_infl_of_some hS).trans (s.finish_writeBuf_of_le bd hfit)

theorem adopt_of_shorter {D : List Byte → List Byte} {S : List Byte} {requested : Bool}
    (h : requested = true ∧ (D S).length < S.length) : adopt D S requested = (D S, true) := if_pos h

theorem adopt_of_not_shorter {D : List Byte → List Byte} {S : List Byte} {requested : Bool}
    (h : ¬(requested = true ∧ (D S).length < S.length)) : adopt D S requested = (S, false) := if_neg h

/-- The adopted sequence is never longer than the source (rule R124). -/
theorem length_adopt_le (D : List Byte → List Byte) (S : List Byte) (requested : Bool) :
    (adopt D S requested).1.length ≤ S.length := by
  by_cases h : requested = true ∧ (D S).length < S.length
  · rw [adopt_of_shorter h]
    exact h.2.le
  · rw [adopt_of_not_shorter h]

/-- On a source within its capacity CADOPT writes what it adopts. -/
theorem exec_cadopt_of_fits {s : State} {bs : Buf} (h : s.blen bs ≤ s.caps.bufCap) (bd : Buf) (xf xq : Reg) :
    exec (.cadopt bd bs xf xq) s = .next ((s.setBuf bd (adopt Config.deflateFn (s.readBuf bs) (s.flagBit xq)).1).writeReg xf
      (flagWord (adopt Config.deflateFn (s.readBuf bs) (s.flagBit xq)).2)).advance := by
  have hfit := (length_adopt_le Config.deflateFn (s.readBuf bs) (s.flagBit xq)).trans h
  simp only [exec, execCadopt, cadoptWith, State.writeBuf_eq_ok.2 ⟨hfit, rfl⟩, except_ok_bind]
  rfl

/-- Settles O34: the adopted form fits where its source does, and a stream of fewer than 2 bytes inflates to nothing. -/
theorem adoptCommand : Obligations.AdoptCommand := by
  refine ⟨fun bd bs xf xq s => ⟨?word, fun hfit => ?completes⟩, fun D S requested hD hS => ?never⟩
  case word => simp (disch := omega) [encode, Instr.opcode, toNat_wordR]
  case completes =>
    rw [exec_cadopt_of_fits hfit]
    split
    case isTrue h =>
      have hadopt : adopt Config.deflateFn (s.readBuf bs) (s.flagBit xq) = _ := adopt_of_shorter h
      rw [hadopt]
      rfl
    case isFalse h =>
      have hadopt : adopt Config.deflateFn (s.readBuf bs) (s.flagBit xq) = _ := adopt_of_not_shorter h
      rw [hadopt]
      rfl
  case never =>
    have hlen := two_le_length_of_inflate (hD S)
    exact adopt_of_not_shorter (by omega)

/-! ### Frames of the commands with several destinations (rules R124, R174, R175, R207, R250, R304) -/

/-- Before `cp` moves, `u` is `s` but for the registers and buffers named; its planes and its `C` are the same data. -/
structure State.WritesOnly (s : State) (regs : Reg → Prop) (bufs : Buf → Prop) (u : State) : Prop where
  effect : s.EffectFrame u
  sameRegs : s.SameRegs u regs
  sameBufs : s.SameBufs u bufs
  coords : u.coords = s.coords
  pl : u.pl = s.pl
  rf : u.rf = s.rf

section
variable {s t u : State} {regs : Reg → Prop} {bufs : Buf → Prop}

theorem State.WritesOnly.trans (hst : s.WritesOnly regs bufs t) (htu : t.WritesOnly regs bufs u) :
    s.WritesOnly regs bufs u where
  effect := hst.effect.trans htu.effect
  sameRegs r hr := (htu.sameRegs r hr).trans (hst.sameRegs r hr)
  sameBufs b hb := (htu.sameBufs b hb).trans (hst.sameBufs b hb)
  coords := htu.coords.trans hst.coords
  pl := htu.pl.trans hst.pl
  rf := htu.rf.trans hst.rf

theorem State.WritesOnly.frameOffPlane (h : s.WritesOnly regs bufs u) : s.FrameOffPlane u.advance regs bufs :=
  ⟨congrArg (· + 1) h.effect.cp, State.sameControl_advance h.effect.control, h.sameRegs, h.sameBufs,
    fun i => congrArg (Memory.read · i) h.pl, fun i => congrArg (Memory.read · i) h.rf⟩

theorem State.writesOnly_of_writeBuf {b : Buf} {l : List Byte} (h : s.writeBuf b l = .ok t) (hb : bufs b) :
    s.WritesOnly regs bufs t := by
  have heffect := State.effectFrame_of_writeBuf h
  obtain ⟨-, rfl⟩ := State.writeBuf_eq_ok.1 h
  exact ⟨heffect, fun _ _ => rfl, fun c hc => s.readBuf_setBuf_ne (fun e : c = b => hc (e ▸ hb)) l, rfl, rfl, rfl⟩

theorem State.writesOnly_writeReg {r : Reg} (hr : regs r) (v : Word) : s.WritesOnly regs bufs (s.writeReg r v) :=
  ⟨s.effectFrame_writeReg r v, fun q hq => s.readReg_writeReg_ne (fun e : q = r => hq (e ▸ hr)) v, fun _ _ => rfl, rfl,
    rfl, rfl⟩

theorem State.writesOnly_writeRegs5 {b : Base5} (hb : ∀ k, regs (baseReg b k)) (v0 v1 v2 v3 v4 : Word) :
    s.WritesOnly regs bufs (s.writeRegs5 b v0 v1 v2 v3 v4) :=
  ⟨s.effectFrame_writeRegs5 b v0 v1 v2 v3 v4, fun q hq => s.readReg_writeRegs5_ne b v0 v1 v2 v3 v4 q
    fun k e => hq (e ▸ hb k), fun _ _ => rfl, rfl, rfl, rfl⟩

/-- A command whose effect writes only what is named enters a fault, or has the frame. -/
theorem CompletesIn.frameOffPlane_cases {e : Except Fault State} (h : CompletesIn (s.WritesOnly regs bufs) e)
    (ht : s.finish e = .next t) :
    (∃ f, t = s.takeFault f) ∨ (s.FrameOffPlane t regs bufs ∧ t.coords = s.coords) := by
  obtain hf | ⟨u, hu, rfl⟩ := h.finish_cases ht
  · exact .inl hf
  · exact .inr ⟨hu.frameOffPlane, hu.coords⟩

/-- The effect of PERM and PERML after the plane's check: only `C` changes. -/
theorem State.frameOffPlane_of_writeCoords {l : List Coord} (h : s.writeCoords l = .ok u) :
    s.FrameOffPlane u.advance (fun _ => False) (fun _ => False) := by
  obtain ⟨-, rfl⟩ := State.writeCoords_eq_ok.1 h
  exact ⟨rfl, s.sameControl_refl, fun _ _ => rfl, fun _ _ => rfl, fun _ => rfl, fun _ => rfl⟩

theorem State.frameOffPlane_cases_of_coords {l : List Coord}
    (ht : s.finish (s.checkPlane >>= fun _ => s.writeCoords l) = .next t) :
    (∃ f, t = s.takeFault f) ∨ s.FrameOffPlane t (fun _ => False) (fun _ => False) := by
  have hw : CompletesIn (fun u => s.FrameOffPlane u.advance (fun _ => False) (fun _ => False))
      (s.checkPlane >>= fun _ => s.writeCoords l) := .bind fun _ _ _ => State.frameOffPlane_of_writeCoords
  obtain hf | ⟨u, hu, rfl⟩ := hw.finish_cases ht
  · exact .inl hf
  · exact .inr hu

end

/-- The registers a base names lie in its five (rule R72). -/
theorem baseReg_bounds (b : Base5) (k : Fin 5) : b.val ≤ (baseReg b k).val ∧ (baseReg b k).val ≤ b.val + 4 := by
  simp only [baseReg]
  omega

/-- Settles O58: each command ends in checked writes of the buffers it names, then in writes of its registers, or in a
checked write of `C`. -/
theorem mixedCommandsKeepTheRest : Obligations.MixedCommandsKeepTheRest := by
  refine ⟨fun bd bs xf xq s t h => ?cadopt, fun bf bs xd s t h => ?hdec, fun bd bf bp xd s t h => ?extract,
    fun bp xl s t h => ?perm⟩
  case cadopt =>
    refine CompletesIn.frameOffPlane_cases (.bind fun _ hd => .ok ?_) h
    exact .trans (State.writesOnly_of_writeBuf hd rfl) (State.writesOnly_writeReg (regs := (· = xf)) rfl _)
  case hdec =>
    refine CompletesIn.frameOffPlane_cases ?_ h
    split
    · exact .error _
    · exact .bind fun _ hf => .ok
        (.trans (State.writesOnly_of_writeBuf hf rfl) (State.writesOnly_writeRegs5 (baseReg_bounds xd) _ _ _ _ _))
  case extract =>
    refine CompletesIn.frameOffPlane_cases (.bind fun _ _ => .bind fun _ _ => .bind fun _ hd => .bind fun _ hf => .ok ?_) h
    exact .trans (.trans (State.writesOnly_of_writeBuf hd (.inl rfl)) (State.writesOnly_of_writeBuf hf (.inr rfl)))
      (State.writesOnly_writeRegs5 (baseReg_bounds xd) _ _ _ _ _)
  case perm =>
    obtain h | h := h
    · exact State.frameOffPlane_cases_of_coords h
    · exact State.frameOffPlane_cases_of_coords h

/-! ### The permutation lists every pixel once (rules R162, R172, R173) -/

theorem perm_exchange {a : List Nat} {i j : Nat} (hi : i < a.length) (hj : j < a.length) : (exchange a i j).Perm a := by
  rw [exchange, List.getD_eq_getElem _ _ hi, List.getD_eq_getElem _ _ hj]
  exact List.set_set_perm hi hj

theorem perm_shuffleFrom (seed : Word) (n i : Nat) (a : List Nat) (hi : i ≤ a.length - 1) :
    (shuffleFrom seed n i a).Perm a := by
  induction i generalizing a with
  | zero => exact .refl a
  | succ i ih =>
    have hj := Nat.mod_lt (draw seed (n - 1 - (i + 1))).toNat (show 0 < i + 2 by omega)
    have hswap := perm_exchange (show i + 1 < a.length by omega)
      (show (draw seed (n - 1 - (i + 1))).toNat % (i + 2) < a.length by omega)
    exact (ih _ (by rw [hswap.length_eq]; omega)).trans hswap

theorem perm_shuffle (seed : Word) (n : Nat) : (shuffle seed n).Perm (List.range n) :=
  perm_shuffleFrom seed n (n - 1) _ (by simp)

theorem perm_indexOrder (n : Nat) (password : List Byte) : (indexOrder n password).Perm (List.range n) := by
  unfold indexOrder
  split
  · exact .refl _
  · exact perm_shuffle _ n

theorem index_coordOf {H W i : Nat} (hH : H < 2 ^ 16) (hW : W < 2 ^ 16) (hi : i < H * W) : (coordOf W i).index W = i := by
  have hpos : 0 < W := Nat.pos_of_mul_pos_left (Nat.zero_lt_of_lt hi)
  have hrow : i / W < 2 ^ 16 := ((Nat.div_lt_iff_lt_mul hpos).2 hi).trans hH
  have hcol : i % W < 2 ^ 16 := (Nat.mod_lt i hpos).trans hW
  simp only [Coord.index, coordOf, BitVec.toNat_ofNat, Nat.mod_eq_of_lt hrow, Nat.mod_eq_of_lt hcol, Nat.div_add_mod']

@[simp] theorem length_permuteAll (H W : Nat) (password : List Byte) : (permuteAll H W password).length = H * W := by
  simp [permuteAll, permute, (perm_indexOrder (H * W) password).length_eq]

theorem permute_eq_take (H W : Nat) (password : List Byte) {len : Nat} (h : len ≤ H * W) :
    permute H W password len = (permuteAll H W password).take len := by
  rw [permuteAll, permute, permute, List.map_take, List.map_take, List.take_take, Nat.min_eq_left h]

/-- The pixels of the full permutation, as indices, are the index order. -/
theorem map_index_permuteAll {H W : Nat} (hH : H < 2 ^ 16) (hW : W < 2 ^ 16) (password : List Byte) :
    (permuteAll H W password).map (·.index W) = indexOrder (H * W) password := by
  have hperm := perm_indexOrder (H * W) password
  have hlen : (indexOrder (H * W) password).length = H * W := by simpa using hperm.length_eq
  rw [permuteAll, permute, List.map_map, List.take_of_length_le hlen.le]
  refine (List.map_congr_left fun i hi => ?_).trans (List.map_id _)
  exact index_coordOf hH hW (List.mem_range.1 (hperm.mem_iff.1 hi))

theorem nodup_map_index_permuteAll {H W : Nat} (hH : H < 2 ^ 16) (hW : W < 2 ^ 16) (password : List Byte) :
    ((permuteAll H W password).map (·.index W)).Nodup := by
  rw [map_index_permuteAll hH hW]
  exact (perm_indexOrder _ password).nodup_iff.2 List.nodup_range

theorem index_lt_of_mem_permuteAll {H W : Nat} (hH : H < 2 ^ 16) (hW : W < 2 ^ 16) {password : List Byte} {c : Coord}
    (hc : c ∈ permuteAll H W password) : c.index W < H * W := by
  have hmem := List.mem_map_of_mem (f := (·.index W)) hc
  rw [map_index_permuteAll hH hW] at hmem
  exact List.mem_range.1 ((perm_indexOrder _ password).mem_iff.1 hmem)

/-! ### The low bits of an element (rules R190, R240, R245) -/

theorem toNat_and_lowMask (v : Byte) {k : Nat} (hk : k ≤ 8) : (v &&& lowMask k).toNat = v.toNat % 2 ^ k := by
  have hpos := Nat.two_pow_pos k
  have hle : 2 ^ k ≤ 2 ^ 8 := Nat.pow_le_pow_right (by decide) hk
  rw [lowMask, BitVec.toNat_and, BitVec.toNat_ofNat, Nat.mod_eq_of_lt (by omega), Nat.and_two_pow_sub_one_eq_mod]

theorem and_lowMask_of_lt {v : Byte} {k : Nat} (hk : k ≤ 8) (hv : v.toNat < 2 ^ k) : v &&& lowMask k = v := by
  apply BitVec.eq_of_toNat_eq
  rw [toNat_and_lowMask v hk, Nat.mod_eq_of_lt hv]

/-- The low bits of a substituted element are those of the value (rule R240). -/
theorem subst_and_lowMask (p v : Byte) (k : Nat) : subst p v k &&& lowMask k = v &&& lowMask k := by
  ext i hi
  simp only [subst, BitVec.getElem_and, BitVec.getElem_or, BitVec.getElem_not]
  cases (lowMask k)[i] <;> simp

theorem dvd_opaCorrection (diff : Int) (k : Nat) : (2 ^ k : Int) ∣ opaCorrection diff k := by
  unfold opaCorrection
  dsimp only
  split_ifs <;> simp

/-- OPA moves an element by a multiple of `2^k`, so its `k` low bits stay (rule R190). -/
theorem toNat_adjust1_mod (m o : Byte) (k : Nat) : (adjust1 m o k).toNat % 2 ^ k = m.toNat % 2 ^ k := by
  unfold adjust1
  dsimp only
  split
  case isTrue => rfl
  case isFalse h =>
    obtain ⟨c, hc⟩ := dvd_opaCorrection ((m.toNat : Int) - o.toNat) k
    rw [hc] at h ⊢
    have hz : (((BitVec.ofInt 8 ((m.toNat : Int) + 2 ^ k * c)).toNat : Nat) : Int) = m.toNat + 2 ^ k * c := by
      rw [BitVec.toNat_ofInt, Int.toNat_of_nonneg (Int.emod_nonneg _ (by decide))]
      exact Int.emod_eq_of_lt (by omega) (by norm_num; omega)
    zify
    rw [hz, Int.add_mul_emod_self_left]

theorem adjust1_and_lowMask (m o : Byte) {j k : Nat} (hjk : j ≤ k) (hk : k ≤ 8) :
    adjust1 m o k &&& lowMask j = m &&& lowMask j := by
  apply BitVec.eq_of_toNat_eq
  rw [toNat_and_lowMask _ (hjk.trans hk), toNat_and_lowMask _ (hjk.trans hk),
    ← Nat.mod_mod_of_dvd _ (Nat.pow_dvd_pow 2 hjk), toNat_adjust1_mod, Nat.mod_mod_of_dvd _ (Nat.pow_dvd_pow 2 hjk)]

theorem elemOfBit_and_lowMask (b : Bool) : elemOfBit b &&& lowMask 1 = elemOfBit b := by
  cases b <;> decide

/-- A group holds a number of its width (rule R106). -/
theorem toNat_lt_of_mem_bytesToGroups {S : List Byte} {g : Nat} {v : Byte} (h : v ∈ bytesToGroups S g) :
    v.toNat < 2 ^ g := by
  obtain ⟨c, hc, rfl⟩ := List.mem_map.1 h
  obtain ⟨i, hi, rfl⟩ := List.mem_iff_getElem.1 hc
  rw [getElem_chunks]
  refine Nat.lt_of_le_of_lt (Nat.mod_le _ _) ((val_lt _).trans_le (Nat.pow_le_pow_right (by decide) ?_))
  exact List.length_take_le _ _

/-! ### Gathering what was substituted (rules R246, R249) -/

theorem gatherPlane_append (P : List Byte) (w k : Nat) (cs ds : List Coord) :
    gatherPlane P w k (cs ++ ds) = gatherPlane P w k cs ++ gatherPlane P w k ds := List.map_append

/-- A pixel no coordinate names stays. -/
theorem getD_substAll_of_ne {w k a : Nat} {cvs : List (Coord × Byte)} (h : ∀ cv ∈ cvs, cv.1.index w ≠ a) (Q : List Byte) :
    (substAll w k cvs Q).getD a 0 = Q.getD a 0 := by
  induction cvs generalizing Q with
  | nil => rfl
  | cons cv cvs ih =>
    obtain ⟨hne, htail⟩ := List.forall_mem_cons.1 h
    rw [substAll, ih htail, List.getD_eq_getElem?_getD, List.getElem?_set_ne hne, ← List.getD_eq_getElem?_getD]

/-- Values substituted at different pixels of the plane are gathered from it, in their order. -/
theorem gatherPlane_substAll {w k : Nat} {cvs : List (Coord × Byte)} {Q : List Byte}
    (hnodup : (cvs.map (·.1.index w)).Nodup) (hin : ∀ cv ∈ cvs, cv.1.index w < Q.length) :
    gatherPlane (substAll w k cvs Q) w k (cvs.map (·.1)) = cvs.map (·.2 &&& lowMask k) := by
  induction cvs generalizing Q with
  | nil => rfl
  | cons cv cvs ih =>
    obtain ⟨c, v⟩ := cv
    rw [List.map_cons, List.nodup_cons] at hnodup
    obtain ⟨hfresh, hnodup⟩ := hnodup
    obtain ⟨hc, hin⟩ := List.forall_mem_cons.1 hin
    have hstays : ∀ cv ∈ cvs, cv.1.index w ≠ c.index w := fun cv hcv e =>
      hfresh (List.mem_map.2 ⟨cv, hcv, e⟩)
    refine congrArg₂ List.cons ?head (ih hnodup (by simpa using hin))
    case head =>
      dsimp only
      rw [substAll, getD_substAll_of_ne hstays, List.getD_eq_getElem _ _ (by simpa using hc), List.getElem_set_self,
        subst_and_lowMask]

theorem gatherPlane_substAll_of_disjoint {w j k : Nat} {cvs : List (Coord × Byte)} {cs : List Coord}
    (h : ∀ c ∈ cs, ∀ cv ∈ cvs, cv.1.index w ≠ c.index w) (Q : List Byte) :
    gatherPlane (substAll w k cvs Q) w j cs = gatherPlane Q w j cs :=
  List.map_congr_left fun c hc => by rw [getD_substAll_of_ne (h c hc)]

theorem gatherPlane_adjust {Q P : List Byte} (hlen : Q.length = P.length) {j k : Nat} (hjk : j ≤ k) (hk : k ≤ 8) (w : Nat)
    (cs : List Coord) : gatherPlane (adjust Q P k) w j cs = gatherPlane Q w j cs := by
  refine List.map_congr_left fun c _ => ?_
  by_cases hc : c.index w < Q.length
  · rw [List.getD_eq_getElem _ _ (by rw [length_adjust]; omega), List.getD_eq_getElem _ _ hc]
    simp only [adjust, List.getElem_zipWith]
    exact adjust1_and_lowMask _ _ hjk hk
  · rw [List.getD_eq_default _ _ (by rw [length_adjust]; omega), List.getD_eq_default _ _ (by omega)]

/-! ### A frame and what follows it is decoded (rules R202, R203, R205) -/

/-- From position `p` on, `T` is `R`. -/
def StandsAt (T : List Bool) (p : Nat) (R : List Bool) : Prop := ∃ A : List Bool, A.length = p ∧ T = A ++ R

section
variable {T F R : List Bool} {p q v w : Nat}

/-- What follows a field stands at the field's end. -/
theorem StandsAt.next (h : StandsAt T p (F ++ R)) (hq : p + F.length = q) : StandsAt T q R := by
  obtain ⟨A, rfl, rfl⟩ := h
  exact ⟨A ++ F, by simpa using hq, (List.append_assoc A F R).symm⟩

theorem StandsAt.takeField_eq_ok (h : StandsAt T p (bitsOf v w ++ R)) (hv : v < 2 ^ w) : takeField T p w = .ok v := by
  obtain ⟨A, rfl, rfl⟩ := h
  have hfits : A.length + w ≤ (A ++ (bitsOf v w ++ R)).length := by simp
  rw [takeField, if_pos hfits, List.drop_left, List.take_left' (length_bitsOf v w), val_bitsOf, Nat.mod_eq_of_lt hv]

theorem StandsAt.takeFieldBytes_eq_ok {S : List Byte} (h : StandsAt T p (bytesToBits S ++ R)) :
    takeFieldBytes T p S.length = .ok S := by
  induction S generalizing p with
  | nil => rfl
  | cons b S ih =>
    rw [bytesToBits_cons, List.append_assoc] at h
    have hrest := ih (h.next (by rw [length_bitsOf]))
    simp only [List.length_cons, takeFieldBytes, h.takeField_eq_ok b.isLt, hrest, bind, Except.bind, pure, Except.pure,
      BitVec.ofNat_toNat, BitVec.setWidth_eq]

end

theorem bitlen_le_of_lt {v w : Nat} (h : v < 2 ^ w) : bitlen v ≤ w := by
  obtain h0 | hle := bitlen_eq_zero_or_two_pow_le v
  · omega
  · have := (Nat.pow_lt_pow_iff_right (a := 2) (by decide)).1 (hle.trans_lt h)
    omega

theorem length_headerEncode (payload filename : List Byte) (lsb : Nat) (flag : Bool) :
    (headerEncode payload filename lsb flag).length = 49 + bitlen payload.length + 8 * filename.length := by
  simp only [headerEncode, unpackMin, unpackWidth, List.length_append, length_bitsOf, length_bytesToBits,
    List.length_singleton]
  omega

/-- Each field of the frame is taken where it stands, so that what follows the frame is not read. -/
theorem headerDecode_headerEncode_append {payload filename : List Byte} {lsb : Nat} (flag : Bool) (U : List Bool)
    (hpayload : payload.length ≤ 2 ^ 31 - 1) (hname : filename.length ≤ 255) (h1 : 1 ≤ lsb) (h8 : lsb ≤ 8) :
    headerDecode (headerEncode payload filename lsb flag ++ U) = .ok {
      payloadLength := payload.length
      lsb := lsb
      filename := filename
      flag := flag
      crc := crc32 payload
      headerBitLength := 49 + bitlen payload.length + 8 * filename.length } := by
  obtain ⟨n, hn⟩ : ∃ n, n = bitlen payload.length := ⟨_, rfl⟩
  obtain ⟨T, hT⟩ : ∃ T, T = headerEncode payload filename lsb flag ++ U := ⟨_, rfl⟩
  have hbl : n ≤ 31 := hn ▸ bitlen_le_of_lt (by omega)
  have hlt : payload.length < 2 ^ n := hn ▸ lt_two_pow_bitlen _
  have hwidth : StandsAt T 0 (bitsOf n 5 ++ (bitsOf payload.length n ++ (bitsOf (lsb - 1) 3 ++
      (bitsOf filename.length 8 ++ (bytesToBits filename ++ (bitsOf flag.toNat 1 ++
        (bitsOf (crc32 payload).toNat 32 ++ U))))))) := by
    refine ⟨[], rfl, ?_⟩
    cases flag <;> simp [hT, hn, headerEncode, unpackMin, unpackWidth, bitsOf]
  have hlength := hwidth.next (q := 5) (by simp)
  have hdepth := hlength.next (q := 5 + n) (by simp)
  have hnameLength := hdepth.next (q := 8 + n) (by rw [length_bitsOf]; omega)
  have hnameBytes := hnameLength.next (q := 16 + n) (by rw [length_bitsOf]; omega)
  have hflag := hnameBytes.next (q := 16 + n + 8 * filename.length) (by simp)
  have hcrc := hflag.next (q := 17 + n + 8 * filename.length) (by rw [length_bitsOf]; omega)
  rw [← hT, ← hn, headerDecode, hwidth.takeField_eq_ok (by omega)]
  simp only [bind, Except.bind, hlength.takeField_eq_ok hlt, hdepth.takeField_eq_ok (by omega),
    hnameLength.takeField_eq_ok (by omega), hnameBytes.takeFieldBytes_eq_ok, hflag.takeField_eq_ok flag.toNat_lt,
    hcrc.takeField_eq_ok (crc32 payload).isLt, pure, Except.pure]
  congr 2
  · omega
  · cases flag <;> rfl
  · simp

/-! ### The slots of an embedding (rule R246) -/

/-- Values substituted at different pixels of the plane, in the order of the coordinates. -/
theorem gatherPlane_substAll_zip {w k : Nat} {cs : List Coord} {vs Q : List Byte} (hlen : cs.length = vs.length)
    (hnodup : (cs.map (·.index w)).Nodup) (hin : ∀ c ∈ cs, c.index w < Q.length) :
    gatherPlane (substAll w k (cs.zip vs) Q) w k cs = vs.map (· &&& lowMask k) := by
  have hfst : (cs.zip vs).map (·.1) = cs := List.map_fst_zip hlen.le
  have hsnd : (cs.zip vs).map (·.2) = vs := List.map_snd_zip hlen.ge
  have hindex : (cs.zip vs).map (·.1.index w) = cs.map (·.index w) := by
    conv_rhs => rw [← hfst, List.map_map, Function.comp_def]
  have hmask : (cs.zip vs).map (·.2 &&& lowMask k) = vs.map (· &&& lowMask k) := by
    conv_rhs => rw [← hsnd, List.map_map, Function.comp_def]
  have h := gatherPlane_substAll (k := k) (hindex ▸ hnodup) fun cv hcv => hin cv.1 (List.of_mem_zip hcv).1
  rwa [hfst, hmask] at h

/-- Steps 7 and 8 of `EmbedPlane` on the coordinates `co`: header bits at depth 1, then groups (rule R246). -/
def substSlots (co : List Coord) (w lsb : Nat) (hb : List Bool) (G P : List Byte) : List Byte :=
  substAll w lsb (((co.drop hb.length).take G.length).zip G)
    (substAll w 1 ((co.take hb.length).zip (hb.map elemOfBit)) P)

@[simp] theorem length_substSlots (co : List Coord) (w lsb : Nat) (hb : List Bool) (G P : List Byte) :
    (substSlots co w lsb hb G P).length = P.length := by
  rw [substSlots, length_substAll, length_substAll]

/-- The embedding substitutes on the full permutation, then OPA corrects unless the depth is 1. -/
theorem embedSlots_eq {H W : Nat} {hb : List Bool} {G : List Byte} (hfit : hb.length + G.length ≤ H * W) (P : List Byte)
    (password : List Byte) (lsb : Nat) :
    embedSlots P H W password lsb hb G =
      if 1 < lsb then adjust (substSlots (permuteAll H W password) W lsb hb G P) P lsb
      else substSlots (permuteAll H W password) W lsb hb G P := by
  have hhead : (permute H W password (hb.length + G.length)).take hb.length = (permuteAll H W password).take hb.length := by
    rw [permute_eq_take H W password hfit, List.take_take, Nat.min_eq_left (Nat.le_add_right _ _)]
  have hbody : (permute H W password (hb.length + G.length)).drop hb.length =
      ((permuteAll H W password).drop hb.length).take G.length := by
    rw [permute_eq_take H W password hfit, List.drop_take, Nat.add_sub_cancel_left]
  simp only [embedSlots, substSlots, hhead, hbody]

/-- OPA leaves what was substituted in the low bits. -/
theorem gatherPlane_embedSlots {H W : Nat} {hb : List Bool} {G : List Byte} (hfit : hb.length + G.length ≤ H * W)
    (P password : List Byte) {j lsb : Nat} (hj : j ≤ lsb) (h8 : lsb ≤ 8) (cs : List Coord) :
    gatherPlane (embedSlots P H W password lsb hb G) W j cs =
      gatherPlane (substSlots (permuteAll H W password) W lsb hb G P) W j cs := by
  rw [embedSlots_eq hfit]
  split
  · exact gatherPlane_adjust (length_substSlots ..) hj h8 W cs
  · rfl

section
variable {co : List Coord} {w lsb : Nat} {hb : List Bool} {G P : List Byte}

/-- The payload's slots come last, so their values stand. -/
theorem gatherPlane_substSlots_payload (hnodup : (co.map (·.index w)).Nodup) (hin : ∀ c ∈ co, c.index w < P.length)
    (hfit : hb.length + G.length ≤ co.length) :
    gatherPlane (substSlots co w lsb hb G P) w lsb ((co.drop hb.length).take G.length) = G.map (· &&& lowMask lsb) := by
  have hsub : ((co.drop hb.length).take G.length).Sublist co := (List.take_sublist _ _).trans (List.drop_sublist _ _)
  refine gatherPlane_substAll_zip ?_ (hnodup.sublist (hsub.map _)) fun c hc => ?_
  · rw [List.length_take, List.length_drop]
    omega
  · rw [length_substAll]
    exact hin c (hsub.subset hc)

/-- The payload's slots are none of the header's, so the header's values stand too. -/
theorem gatherPlane_substSlots_header (hnodup : (co.map (·.index w)).Nodup) (hin : ∀ c ∈ co, c.index w < P.length)
    (hfit : hb.length + G.length ≤ co.length) :
    gatherPlane (substSlots co w lsb hb G P) w 1 (co.take hb.length) = hb.map elemOfBit := by
  have hsub : (co.take hb.length).Sublist co := List.take_sublist _ _
  have hne : ∀ c ∈ co.take hb.length, ∀ d ∈ co.drop hb.length, d.index w ≠ c.index w := by
    rw [← List.take_append_drop hb.length co, List.map_append, List.nodup_append] at hnodup
    obtain ⟨-, -, hdisj⟩ := hnodup
    exact fun c hc d hd e => hdisj _ (List.mem_map_of_mem hc) _ (List.mem_map_of_mem hd) e.symm
  rw [substSlots, gatherPlane_substAll_of_disjoint fun c hc cv hcv =>
      hne c hc cv.1 (List.mem_of_mem_take (List.of_mem_zip hcv).1),
    gatherPlane_substAll_zip ?_ (hnodup.sublist (hsub.map _)) fun c hc => hin c (hsub.subset hc), List.map_map]
  · exact List.map_congr_left fun b _ => elemOfBit_and_lowMask b
  · rw [List.length_take, List.length_map]
    omega

end

/-! ### What was embedded is extracted (rule R251 item 1) -/

/-- What a completed embedding checked, and the plane it answers (rule R246). -/
theorem embedPlane_eq_ok {D : List Byte → List Byte} {P : List Byte} {H W : Nat} {secret filename password : List Byte}
    {lsb : Nat} {req : Bool} {Q payload : List Byte} {flag : Bool} (ha : adopt D secret req = (payload, flag)) :
    embedPlane D P H W secret filename password lsb req = .ok Q ↔
      payload.length ≤ Config.maxPayload ∧
      (headerEncode payload filename lsb flag).length + (bytesToGroups payload lsb).length ≤ H * W ∧
      embedSlots P H W password lsb (headerEncode payload filename lsb flag) (bytesToGroups payload lsb) = Q := by
  simp only [embedPlane, ha, except_bind_eq_ok, require_eq_ok, pure, Except.pure, Except.ok.injEq, exists_const]

/-- A frame read from the first pixels of the permutation decides what is extracted, if no more than 2121 hold it. -/
theorem extractPlane_of_header {Q : List Byte} {H W : Nat} {password : List Byte} {hb : List Bool} {h : HeaderRecord}
    (hshort : hb.length ≤ min Config.maxHeaderBits (H * W))
    (hread : gatherPlane Q W 1 ((permuteAll H W password).take hb.length) = hb.map elemOfBit)
    (hdec : ∀ U, headerDecode (hb ++ U) = .ok h) :
    extractPlane Q H W password = extractPayload Q (H * W) W (permuteAll H W password) h := by
  obtain ⟨k, hk⟩ := Nat.exists_eq_add_of_le hshort
  have hcand : ∃ U, (gatherPlane Q W 1 ((permuteAll H W password).take (min Config.maxHeaderBits (H * W)))).map bitOfElem =
      hb ++ U := by
    rw [hk, List.take_add, gatherPlane_append, hread, List.map_append, List.map_map]
    exact ⟨_, congrArg (· ++ _) ((List.map_congr_left fun b _ => bitOfElem_elemOfBit b).trans (List.map_id hb))⟩
  obtain ⟨U, hU⟩ := hcand
  simp only [extractPlane, hU, hdec]

/-- The output of an adopted payload is the source, compressed or not (rules R121, R124, R249). -/
theorem extractOutput_adopt {D : List Byte → List Byte} (hD : LawfulCompressor D) {secret payload : List Byte}
    {req flag : Bool} (ha : adopt D secret req = (payload, flag)) {h : HeaderRecord} (hflag : h.flag = flag) :
    extractOutput h payload = .ok secret := by
  by_cases hc : req = true ∧ (D secret).length < secret.length
  · rw [adopt_of_shorter hc] at ha
    obtain ⟨rfl, rfl⟩ := Prod.mk.inj ha
    rw [extractOutput, if_pos hflag, hD secret]
  · rw [adopt_of_not_shorter hc] at ha
    obtain ⟨rfl, rfl⟩ := Prod.mk.inj ha
    rw [extractOutput, hflag]
    rfl

/-- A payload that stands in its slots passes the checks and gives the record (rule R249). -/
theorem extractPayload_of_groups {Q payload secret : List Byte} {n W : Nat} {co : List Coord} {h : HeaderRecord}
    (hlen : h.payloadLength = payload.length) (hcrc : h.crc = crc32 payload) (h1 : 1 ≤ h.lsb) (h8 : h.lsb ≤ 8)
    (hfit : h.headerBitLength + (bytesToGroups payload h.lsb).length ≤ n)
    (hread : gatherPlane Q W h.lsb ((co.drop h.headerBitLength).take (bytesToGroups payload h.lsb).length) =
      bytesToGroups payload h.lsb) (hout : extractOutput h payload = .ok secret) :
    extractPayload Q n W co h = .ok {
      out := secret
      filename := h.filename
      payloadLength := h.payloadLength
      lsb := h.lsb
      flag := h.flag
      crc := h.crc
      headerBitLength := h.headerBitLength } := by
  rw [length_bytesToGroups] at hfit hread
  have hdata : (groupsToBytes (bytesToGroups payload h.lsb) h.lsb).take payload.length = payload := by
    rw [groupsToBytes_bytesToGroups payload h1 h8, List.take_left]
  simp only [extractPayload, hlen, hread, hdata, require_of_true hfit, require_of_true hcrc.symm, except_ok_bind, hout]
  rfl

/-- Settles O52: the low bits of the slots are the frame and the groups, whatever OPA did, and each is decoded back. -/
theorem embedExtractRoundTrip : Obligations.EmbedExtractRoundTrip := by
  intro D P H W secret filename password lsb req Q hD hH hW hP hname h1 h8 hembed
  obtain ⟨⟨payload, flag⟩, ha⟩ : ∃ a, a = adopt D secret req := ⟨_, rfl⟩
  obtain ⟨hpayload, hfit, rfl⟩ := (embedPlane_eq_ok ha.symm).1 hembed
  rw [← ha]
  have hnodup := nodup_map_index_permuteAll hH hW password
  have hin : ∀ c ∈ permuteAll H W password, c.index W < P.length := fun c hc =>
    (index_lt_of_mem_permuteAll hH hW hc).trans_eq hP.symm
  have hco := hfit.trans_eq (length_permuteAll H W password).symm
  have hhead := length_headerEncode payload filename lsb flag
  have hbl : bitlen payload.length ≤ 31 := bitlen_le_of_lt (Nat.lt_of_le_of_lt hpayload (by decide))
  have hheader := (gatherPlane_embedSlots hfit P password h1 h8 _).trans
    (gatherPlane_substSlots_header (lsb := lsb) hnodup hin hco)
  have hgroups := (gatherPlane_embedSlots hfit P password le_rfl h8 _).trans
    (gatherPlane_substSlots_payload (lsb := lsb) hnodup hin hco)
  have hmask : (bytesToGroups payload lsb).map (· &&& lowMask lsb) = bytesToGroups payload lsb :=
    (List.map_congr_left fun v hv => and_lowMask_of_lt h8 (toNat_lt_of_mem_bytesToGroups hv)).trans (List.map_id _)
  rw [hmask, hhead] at hgroups
  rw [extractPlane_of_header (by simp only [Config.maxHeaderBits]; omega) hheader
    fun U => headerDecode_headerEncode_append flag U hpayload hname h1 h8]
  exact extractPayload_of_groups rfl rfl h1 h8 (hhead ▸ hfit) hgroups (extractOutput_adopt hD ha.symm rfl)

end Sys2Proof.Machine
end

section
/-! Proofs, `42_permutation.md`: the coordinates a permutation lists, the commands that write them to `C`, and the commands
that write a length, a seed or a checksum to one register. -/

namespace Sys2Proof.Machine

/-! ### The coordinates of the full permutation (rules R162, R173, R177) -/

theorem length_indexOrder (n : Nat) (password : List Byte) : (indexOrder n password).length = n :=
  (perm_indexOrder n password).length_eq.trans List.length_range

theorem permuteAll_eq_map (H W : Nat) (password : List Byte) :
    permuteAll H W password = (indexOrder (H * W) password).map (coordOf W) := by
  rw [permuteAll, permute, List.take_of_length_le (length_indexOrder ..).le]

/-- A limited permutation is the start of the full one, all of it where the length passes the plane's size. -/
theorem permute_eq_take_permuteAll (H W : Nat) (password : List Byte) (len : Nat) :
    permute H W password len = (permuteAll H W password).take len := by
  rw [permuteAll_eq_map, permute, List.map_take]

@[simp] theorem length_permute (H W : Nat) (password : List Byte) (len : Nat) :
    (permute H W password len).length = min len (H * W) := by
  rw [permute_eq_take_permuteAll, List.length_take, length_permuteAll]

theorem mem_permuteAll_iff {H W : Nat} {password : List Byte} {c : Coord} :
    c ∈ permuteAll H W password ↔ ∃ i < H * W, coordOf W i = c := by
  simp only [permuteAll_eq_map, List.mem_map, (perm_indexOrder _ password).mem_iff, List.mem_range]

/-- The row of an index is below the height, its column below the width; neither is cut by its 16 bits. -/
theorem coordOf_inside {H W i : Nat} (hi : i < H * W) :
    (coordOf W i).row.toNat < H ∧ (coordOf W i).col.toNat < W := by
  have hpos : 0 < W := Nat.pos_of_mul_pos_left (Nat.zero_lt_of_lt hi)
  have hrow : i / W < H := (Nat.div_lt_iff_lt_mul hpos).2 hi
  have hcol : i % W < W := Nat.mod_lt i hpos
  simp only [coordOf, BitVec.toNat_ofNat]
  exact ⟨(Nat.mod_le _ _).trans_lt hrow, (Nat.mod_le _ _).trans_lt hcol⟩

/-- Coordinate to index and back: the index holds the row as its quotient and the column as its remainder. -/
theorem coordOf_index {W : Nat} {c : Coord} (hcol : c.col.toNat < W) : coordOf W (c.index W) = c := by
  have hpos : 0 < W := Nat.zero_lt_of_lt hcol
  have hdiv : c.index W / W = c.row.toNat := by
    rw [Coord.index, Nat.mul_comm, Nat.mul_add_div hpos, Nat.div_eq_of_lt hcol, Nat.add_zero]
  have hmod : c.index W % W = c.col.toNat := by
    rw [Coord.index, Nat.mul_add_mod_of_lt hcol]
  rw [coordOf, hdiv, hmod, BitVec.ofNat_toNat, BitVec.ofNat_toNat, BitVec.setWidth_eq, BitVec.setWidth_eq]

/-- Settles O37: as indices the coordinates are the index order, a permutation of `[0, H * W)`, and each coordinate of the
plane is that of its own index. -/
theorem permutationListsEveryPixelOnce : Obligations.PermutationListsEveryPixelOnce := by
  refine ⟨perm_shuffle, fun H W P hH hW => ⟨length_permuteAll H W P, ?nodup, fun c => ?mem,
    permute_eq_take_permuteAll H W P, fun i hi => index_coordOf hH hW hi⟩⟩
  case nodup => exact (nodup_map_index_permuteAll hH hW P).of_map _
  case mem =>
    rw [mem_permuteAll_iff]
    constructor
    · rintro ⟨i, hi, rfl⟩
      exact coordOf_inside hi
    · rintro ⟨hrow, hcol⟩
      exact ⟨c.index W, Coord.index_lt hrow hcol, coordOf_index hcol⟩

/-! ### The commands (rules R168, R174 to R176, R208, R274) -/

/-- Settles O26: each command ends in one register write; the length's premise and the digest's low bits say what the 32
bits of the register hold. -/
theorem blenSeedAndCrcWriteTheirRegister : Obligations.BlenSeedAndCrcWriteTheirRegister := by
  intro xd b s
  refine ⟨⟨?blenWord, fun hlen => ⟨_, ?length, rfl⟩⟩, ⟨?seedWord, _, fun j => ?seedBits, rfl⟩, ?crcWord, rfl⟩
  case blenWord => simp (disch := omega) [encode, Instr.opcode, toNat_wordR]
  case length => exact (BitVec.toNat_ofNat ..).trans (Nat.mod_eq_of_lt hlen)
  case seedWord => simp (disch := omega) [encode, Instr.opcode, toNat_wordR]
  case seedBits => exact BitVec.getLsbD_setWidth ..
  case crcWord => simp (disch := omega) [encode, Instr.opcode, toNat_wordR]

/-- A plane larger than its memory raises `OperandRange`, whatever would come next (rule R313). -/
theorem State.finish_checkPlane_of_lt {s : State} (h : s.caps.planeCap < s.pixels) (k : Unit → Except Fault State) :
    s.finish (s.checkPlane >>= k) = .next (s.faultEntry 8 s.pixels s.caps.planeCap) :=
  s.finish_require_of_false (by omega) _ k

theorem State.finish_checkPlane_of_le {s : State} (h : s.pixels ≤ s.caps.planeCap) (k : Unit → Except Fault State) :
    s.finish (s.checkPlane >>= k) = s.finish (k ()) :=
  s.finish_require_of_true h _ k

theorem State.finish_writeCoords_of_le {s : State} {l : List Coord} (h : l.length ≤ s.caps.crdCap) :
    s.finish (s.writeCoords l) = .next ({ s with coords := l } : State).advance := by
  rw [State.writeCoords_eq_ok.2 ⟨h, rfl⟩, State.finish_ok]

/-- A result longer than `C` raises `BufferOverflow` with its length (rule R314). -/
theorem State.finish_writeCoords_of_lt {s : State} {l : List Coord} {n : Nat} (hl : l.length = n)
    (h : s.caps.crdCap < n) : s.finish (s.writeCoords l) = .next (s.faultEntry 9 n s.caps.crdCap) := by
  subst hl
  rw [State.writeCoords_eq_error.2 ⟨h, rfl⟩, State.finish_error]
  rfl

/-- An empty password is a password buffer of length 0 (rule R161). -/
theorem indexOrder_readBuf (n : Nat) (s : State) (bp : Buf) :
    indexOrder n (s.readBuf bp) = if s.blen bp = 0 then List.range n else shuffle (seedOf (s.readBuf bp)) n := by
  simp only [indexOrder, State.blen, List.length_eq_zero_iff]

/-- Settles O36: the plane's check, then the write of `C`, the full permutation's for PERM and for PERML a limited one's. -/
theorem permuteCommands : Obligations.PermuteCommands := by
  intro bp xl s
  have hfull := length_permuteAll s.ph.toNat s.pw.toNat (s.readBuf bp)
  have hlimited := length_permute s.ph.toNat s.pw.toNat (s.readBuf bp) (s.readReg xl).toNat
  refine ⟨_, _, fun len => { s with coords := permute s.ph.toNat s.pw.toNat (s.readBuf bp) len }, rfl,
    indexOrder_readBuf _ s bp, fun _ => rfl, ?permWord, ?permlWord,
    fun hbig => ⟨State.finish_checkPlane_of_lt hbig _, State.finish_checkPlane_of_lt hbig _⟩,
    fun hplane hlong => ?permOverflow, fun hplane hfit => ?permCompletes,
    fun hplane hlong => ?permlOverflow, fun hplane hfit => ?permlCompletes⟩
  case permWord => simp (disch := omega) [encode, Instr.opcode, toNat_wordR]
  case permlWord => simp (disch := omega) [encode, Instr.opcode, toNat_wordR]
  case permOverflow =>
    exact (State.finish_checkPlane_of_le hplane _).trans (State.finish_writeCoords_of_lt hfull hlong)
  case permCompletes =>
    exact (State.finish_checkPlane_of_le hplane _).trans (State.finish_writeCoords_of_le (hfull.trans_le hfit))
  case permlOverflow =>
    exact (State.finish_checkPlane_of_le hplane _).trans (State.finish_writeCoords_of_lt hlimited hlong)
  case permlCompletes =>
    exact (State.finish_checkPlane_of_le hplane _).trans (State.finish_writeCoords_of_le (hlimited.trans_le hfit))

end Sys2Proof.Machine
end

section
/-! Proofs, `43_opa.md`: what the OPA correction does to one pixel and to a plane, how far an embedding moves a pixel, and
the frames of the commands that write a plane. -/

namespace Sys2Proof.Machine

/-! ### The correction of one pixel (rules R190, R193) -/

/-- The byte of a number of `[0, 255]` holds that number. -/
theorem toNat_ofInt_byte {z : Int} (h0 : 0 ≤ z) (h255 : z ≤ 255) : ((BitVec.ofInt 8 z).toNat : Int) = z := by
  rw [BitVec.toNat_ofInt, Int.toNat_of_nonneg (Int.emod_nonneg _ (by decide))]
  exact Int.emod_eq_of_lt h0 (by norm_num; omega)

/-- All the correction can do: lower a pixel far enough above its original, raise one far enough below it, or leave it, since
it is near enough, a whole step away, or the corrected value would be no byte. -/
theorem adjust1_cases (m o : Byte) (k : Nat) :
    (o.toNat + 2 ^ (k - 1) < m.toNat ∧ m.toNat < o.toNat + 2 ^ k ∧ (adjust1 m o k).toNat + 2 ^ k = m.toNat) ∨
    (m.toNat + 2 ^ (k - 1) < o.toNat ∧ o.toNat < m.toNat + 2 ^ k ∧ (adjust1 m o k).toNat = m.toNat + 2 ^ k) ∨
    (adjust1 m o k = m ∧ (((m.toNat : Int) - o.toNat).natAbs ≤ 2 ^ (k - 1) ∨ 2 ^ k ≤ ((m.toNat : Int) - o.toNat).natAbs ∨
      (o.toNat < m.toNat ∧ m.toNat < 2 ^ k) ∨ (m.toNat < o.toNat ∧ 255 < m.toNat + 2 ^ k))) := by
  obtain ⟨inner, hinner⟩ : ∃ n : Nat, n = 2 ^ (k - 1) := ⟨_, rfl⟩
  obtain ⟨outer, houter⟩ : ∃ n : Nat, n = 2 ^ k := ⟨_, rfl⟩
  have hi : (2 : Int) ^ (k - 1) = inner := by simp [hinner]
  have ho : (2 : Int) ^ k = outer := by simp [houter]
  have hm := m.isLt
  simp only [adjust1, opaCorrection, hi, ho, ← hinner, ← houter]
  split_ifs with hup hbelow hdown habove hnone
  · exact .inr (.inr ⟨rfl, by omega⟩)
  · have hval := toNat_ofInt_byte (z := m.toNat + -outer) (by omega) (by omega)
    exact .inl (by omega)
  · exact .inr (.inr ⟨rfl, by omega⟩)
  · have hval := toNat_ofInt_byte (z := m.toNat + outer) (by omega) (by omega)
    exact .inr (.inl (by omega))
  · exact .inr (.inr ⟨rfl, by omega⟩)
  · exact .inr (.inr ⟨by simp, by omega⟩)

/-- An unmodified pixel is not corrected. -/
@[simp] theorem adjust1_self (m : Byte) (k : Nat) : adjust1 m m k = m := by
  have hpos := Nat.two_pow_pos (k - 1)
  obtain ⟨h, -⟩ | ⟨h, -⟩ | ⟨h, -⟩ := adjust1_cases m m k
  · omega
  · omega
  · exact h

theorem adjust1_depth_one (m o : Byte) : adjust1 m o 1 = m := by
  obtain ⟨h, h', -⟩ | ⟨h, h', -⟩ | ⟨h, -⟩ := adjust1_cases m o 1
  · omega
  · omega
  · exact h

/-- At depth 8 every corrected value would leave `[0, 255]`. -/
theorem adjust1_depth_eight (m o : Byte) : adjust1 m o 8 = m := by
  have hm := m.isLt
  have hadjusted := (adjust1 m o 8).isLt
  obtain ⟨-, -, h⟩ | ⟨-, -, h⟩ | ⟨h, -⟩ := adjust1_cases m o 8
  · omega
  · omega
  · exact h

/-- A pixel less than `2^k` from its original stays that near. -/
theorem natAbs_adjust1_sub_lt {m o : Byte} {k : Nat} (h : ((m.toNat : Int) - o.toNat).natAbs < 2 ^ k) :
    (((adjust1 m o k).toNat : Int) - o.toNat).natAbs < 2 ^ k := by
  have hpos := Nat.two_pow_pos (k - 1)
  obtain ⟨hfar, -, hdown⟩ | ⟨hfar, -, hup⟩ | ⟨hsame, -⟩ := adjust1_cases m o k
  · omega
  · omega
  · rwa [hsame]

/-- Settles O39: a correction applies only between `2^(k-1)` and `2^k`, and there it takes the distance to its complement. -/
theorem opaLaws : Obligations.OpaLaws := by
  intro m o k h1 h8
  have hdouble : 2 ^ k = 2 * 2 ^ (k - 1) := by rw [← pow_succ', Nat.sub_add_cancel h1]
  have hpos := Nat.two_pow_pos (k - 1)
  have hcases := adjust1_cases m o k
  refine ⟨toNat_adjust1_mod m o k, ?multiple, adjust1_depth_one m o, adjust1_self m k, adjust1_depth_eight m o,
    fun hne => ?applied, fun heq => ?notApplied⟩
  case multiple =>
    obtain ⟨-, -, h⟩ | ⟨-, -, h⟩ | ⟨h, -⟩ := hcases
    · exact .inr (.inl h)
    · exact .inr (.inr h)
    · exact .inl h
  case applied =>
    obtain ⟨hfar, hnear, h⟩ | ⟨hfar, hnear, h⟩ | ⟨h, -⟩ := hcases
    · omega
    · omega
    · exact absurd h hne
  case notApplied =>
    obtain ⟨hfar, hnear, h⟩ | ⟨hfar, hnear, h⟩ | ⟨-, h⟩ := hcases
    · rw [heq] at h
      omega
    · rw [heq] at h
      omega
    · exact h

/-! ### The correction of a plane (rules R191, R192) -/

theorem getD_adjust {M O : List Byte} {i : Nat} (hM : i < M.length) (hO : i < O.length) (k : Nat) (d : Byte) :
    (adjust M O k).getD i d = adjust1 (M.getD i d) (O.getD i d) k := by
  simp [adjust, hM, hO]

/-- Settles O38: the depth's check and the plane's, then one corrected value for each pixel of the plane. -/
theorem opaCommand : Obligations.OpaCommand := by
  intro xk s
  refine ⟨_, _, rfl, rfl, ?word, fun hk => s.finish_checkDepth_of_invalid hk _, fun h1 h8 hbig => ?tooLarge,
    fun h1 h8 hfit hwf => ⟨s.pl.writeAll 0 (adjust s.plPixels s.rfPixels (s.readReg xk).toNat), fun i hi => ?pixel,
      fun i hi => ?rest, ?completes⟩⟩
  case word => simp (disch := omega) [encode, Instr.opcode, toNat_wordR]
  case tooLarge => exact (s.finish_checkDepth_of_valid h1 h8 _).trans (State.finish_checkPlane_of_lt hbig _)
  case pixel =>
    have hpixel : i < s.pixels := hi
    rw [Memory.read_writeAll hwf, if_pos (by simpa using hpixel), Nat.sub_zero,
      getD_adjust (by simpa using hpixel) (by simpa using hpixel), State.plPixels, State.rfPixels,
      Memory.getD_readAll _ hpixel, Memory.getD_readAll _ hpixel]
  case rest =>
    have hpixel : s.pixels ≤ i := hi
    rw [Memory.read_writeAll hwf, if_neg (by simpa using hpixel)]
  case completes => exact (s.finish_checkDepth_of_valid h1 h8 _).trans (State.finish_checkPlane_of_le hfit _)

/-! ### How far an embedding moves a pixel (rules R240, R246, R251 item 5) -/

theorem getLsbD_lowMask (k i : Nat) : (lowMask k).getLsbD i = (decide (i < 8) && decide (i < k)) := by
  rw [lowMask, BitVec.getLsbD_ofNat, Nat.testBit_two_pow_sub_one]

/-- A substitution keeps the bits from its depth on (rule R240). -/
theorem getLsbD_subst_of_le (p v : Byte) {k i : Nat} (hi : k ≤ i) : (subst p v k).getLsbD i = p.getLsbD i := by
  have hbound : p.getLsbD i = true → i < 8 := BitVec.lt_of_getLsbD
  simpa [subst, getLsbD_lowMask, Nat.not_lt.2 hi] using hbound

/-- What a substitution keeps at its depth it keeps at any greater one. -/
theorem toNat_subst_div (p v : Byte) {j k : Nat} (hjk : j ≤ k) : (subst p v j).toNat / 2 ^ k = p.toNat / 2 ^ k := by
  apply Nat.eq_of_testBit_eq
  intro i
  rw [Nat.testBit_div_two_pow, Nat.testBit_div_two_pow]
  exact getLsbD_subst_of_le p v (by omega)

/-- Substitutions in any order and of any depths up to `k`, even of one pixel twice, keep the bits above `k` of every
pixel. -/
theorem toNat_getD_substAll_div {w j k : Nat} (hjk : j ≤ k) (cvs : List (Coord × Byte)) (Q : List Byte) (a : Nat) :
    ((substAll w j cvs Q).getD a 0).toNat / 2 ^ k = (Q.getD a 0).toNat / 2 ^ k := by
  induction cvs generalizing Q with
  | nil => rfl
  | cons cv cvs ih =>
    rw [substAll, ih]
    by_cases ha : a < Q.length
    · rw [List.getD_eq_getElem _ _ (by simpa using ha), List.getElem_set]
      split
      case isTrue hindex => rw [hindex, toNat_subst_div _ _ hjk]
      case isFalse => rw [List.getD_eq_getElem _ _ ha]
    · rw [List.getD_eq_default _ _ (by simpa using ha), List.getD_eq_default _ _ (by omega)]

/-- Two numbers with the same quotient by `n` are less than `n` apart. -/
theorem natAbs_sub_lt_of_div_eq {x y n : Nat} (hn : 0 < n) (h : x / n = y / n) : ((x : Int) - y).natAbs < n := by
  have hx := Nat.div_add_mod x n
  have hy := Nat.div_add_mod y n
  have hxlt := Nat.mod_lt x hn
  have hylt := Nat.mod_lt y hn
  rw [h] at hx
  omega

section
variable {co : List Coord} {w lsb : Nat} (hb : List Bool) (G P : List Byte)

theorem natAbs_substSlots_sub_lt (h1 : 1 ≤ lsb) (a : Nat) :
    ((((substSlots co w lsb hb G P).getD a 0).toNat : Int) - (P.getD a 0).toNat).natAbs < 2 ^ lsb :=
  natAbs_sub_lt_of_div_eq (Nat.two_pow_pos lsb)
    ((toNat_getD_substAll_div le_rfl _ _ a).trans (toNat_getD_substAll_div h1 _ _ a))

/-- The slots are the first coordinates, as many as there are header bits and groups; no other pixel is substituted. -/
theorem getD_substSlots_of_ne {a : Nat} (h : ∀ c ∈ co.take (hb.length + G.length), c.index w ≠ a) :
    (substSlots co w lsb hb G P).getD a 0 = P.getD a 0 := by
  rw [List.take_add] at h
  rw [substSlots, getD_substAll_of_ne, getD_substAll_of_ne]
  · exact fun cv hcv => h cv.1 (List.mem_append_left _ (List.of_mem_zip hcv).1)
  · exact fun cv hcv => h cv.1 (List.mem_append_right _ (List.of_mem_zip hcv).1)

end

/-- OPA corrects the substituted plane or, at depth 1, would change nothing (rules R193, R246). -/
theorem getD_embedSlots {H W : Nat} {hb : List Bool} {G P : List Byte} (hfit : hb.length + G.length ≤ H * W)
    (password : List Byte) {lsb a : Nat} (h1 : 1 ≤ lsb) (ha : a < P.length) :
    (embedSlots P H W password lsb hb G).getD a 0 =
      adjust1 ((substSlots (permuteAll H W password) W lsb hb G P).getD a 0) (P.getD a 0) lsb := by
  rw [embedSlots_eq hfit]
  split
  case isTrue => exact getD_adjust (by simpa using ha) ha lsb 0
  case isFalse h =>
    obtain rfl : lsb = 1 := by omega
    exact (adjust1_depth_one _ _).symm

/-- Settles O54: a pixel substituted below bit `lsb` is less than `2^lsb` from its original, and OPA keeps it there; a pixel
of no slot is its original, which OPA leaves. -/
theorem embedMovesPixelsLittle : Obligations.EmbedMovesPixelsLittle := by
  intro D P H W secret filename password lsb req Q _ _ hP h1 _ hembed
  obtain ⟨⟨payload, flag⟩, hadopt⟩ : ∃ r, r = adopt D secret req := ⟨_, rfl⟩
  have hlen := length_of_embedPlane_eq_ok hembed
  obtain ⟨-, hfit, rfl⟩ := (embedPlane_eq_ok hadopt.symm).1 hembed
  rw [← hadopt]
  refine ⟨hlen, fun a ha => ?near, fun a ha hslots => ?untouched⟩
  case near =>
    rw [getD_embedSlots hfit password h1 (hP ▸ ha)]
    exact natAbs_adjust1_sub_lt (natAbs_substSlots_sub_lt _ _ P h1 a)
  case untouched =>
    rw [← length_headerEncode payload filename lsb flag, ← length_bytesToGroups, permute_eq_take_permuteAll] at hslots
    rw [getD_embedSlots hfit password h1 (hP ▸ ha), getD_substSlots_of_ne _ _ P hslots, adjust1_self]

/-! ### Frames of the commands that write a plane (rules R192, R241, R243, R248, R304) -/

/-- A sequence written from the start of a plane memory changes only the elements it covers. -/
theorem Memory.sameElems_writeAll {m : Memory 8} (h : m.wf) {l : List Byte} {n : Nat} (hl : l.length = n) :
    m.SameElems (m.writeAll 0 l) (fun i => i < n) := by
  intro i hi
  rw [Memory.read_writeAll h, if_neg (by omega)]

/-- SCAT changes only the elements its coordinates index. -/
theorem read_scatter_of_ne {w k i : Nat} {cvs : List (Coord × Byte)} {m : Memory 8} (hm : m.wf)
    (h : ∀ cv ∈ cvs, cv.1.index w ≠ i) : (scatter w k cvs m).read i = m.read i := by
  induction cvs generalizing m with
  | nil => rfl
  | cons cv cvs ih =>
    obtain ⟨hne, htail⟩ := List.forall_mem_cons.1 h
    rw [scatter, ih (Memory.wf_write hm _ _) htail, Memory.read_write hm, if_neg hne.symm]

/-- `u` is `s` with other plane memories, which differ from the old ones only in the elements named. -/
def State.WritesOnlyPlanes (s : State) (pl rf : Nat → Prop) (u : State) : Prop :=
  ∃ m n : Memory 8, s.pl.SameElems m pl ∧ s.rf.SameElems n rf ∧ u = { s with pl := m, rf := n }

/-- A command whose effect writes only plane elements enters a fault, or has the frame. -/
theorem CompletesIn.frameOnPlane_cases {s t : State} {pl rf : Nat → Prop} {e : Except Fault State}
    (h : CompletesIn (s.WritesOnlyPlanes pl rf) e) (ht : s.finish e = .next t) :
    (∃ f, t = s.takeFault f) ∨ s.FrameOnPlane t pl rf := by
  obtain hf | ⟨_, ⟨m, n, hm, hn, rfl⟩, rfl⟩ := h.finish_cases ht
  · exact .inl hf
  · exact .inr ⟨rfl, s.sameControl_refl, rfl, rfl, rfl, hm, hn⟩

/-- Settles O59: after its checks each command ends in one write of the plane memories. -/
theorem planeCommandsKeepTheRest : Obligations.PlaneCommandsKeepTheRest := by
  intro s t hpl hrf
  refine ⟨fun h => ?snap, fun xk h => ?opa, fun bs bf bp xl xf h => ?embed, fun bs xk xo h => ?scat⟩
  case snap =>
    exact CompletesIn.frameOnPlane_cases (.bind fun _ _ => .ok
      ⟨s.pl, _, fun _ _ => rfl, Memory.sameElems_writeAll hrf s.length_plPixels, rfl⟩) h
  case opa =>
    exact CompletesIn.frameOnPlane_cases (.bind fun _ _ => .bind fun _ _ => .ok
      ⟨_, s.rf, Memory.sameElems_writeAll hpl (by simp [State.pixels]), fun _ _ => rfl, rfl⟩) h
  case embed =>
    refine CompletesIn.frameOnPlane_cases (.bind fun _ _ => .bind fun _ _ => .bind fun _ _ => .bind fun _ _ =>
      .bind fun _ _ => .bind fun Q hQ => .ok ⟨_, _, Memory.sameElems_writeAll hpl ?_,
        Memory.sameElems_writeAll hrf s.length_plPixels, rfl⟩) h
    exact (length_of_embedPlane_eq_ok hQ).trans s.length_plPixels
  case scat =>
    exact CompletesIn.frameOnPlane_cases (.bind fun _ _ => .bind fun _ _ => .bind fun _ _ => .bind fun _ _ => .ok
      ⟨_, s.rf, fun i hi => read_scatter_of_ne hpl fun cv hcv he => hi ⟨cv.1, (List.of_mem_zip hcv).1, he⟩,
        fun _ _ => rfl, rfl⟩) h

end Sys2Proof.Machine
end

section
/-! Proofs, `44_header.md`: the fields of a header and where each stands, the checksum's detection of a changed bit, HENC and
HDEC, and the extraction of a plane in which one payload bit was flipped. -/

namespace Sys2Proof.Machine

/-! ### The fields of a bit sequence (rule R203) -/

/-- The number of `w` bits at position `p`, bits past the end counting as 0. -/
def fieldAt (T : List Bool) (p w : Nat) : Nat := val ((T.drop p).take w)

theorem fieldAt_lt (T : List Bool) (p w : Nat) : fieldAt T p w < 2 ^ w :=
  (val_lt _).trans_le (Nat.pow_le_pow_right (by decide) (List.length_take_le _ _))

theorem testBit_fieldAt (T : List Bool) (p : Nat) {w j : Nat} (hj : j < w) :
    (fieldAt T p w).testBit j = T.getD (p + j) false := by
  simp [fieldAt, testBit_val, List.getD_eq_getElem?_getD, hj]

theorem getLsbD_ofNat_fieldAt (T : List Bool) (p : Nat) {w j : Nat} (hj : j < w) :
    (BitVec.ofNat w (fieldAt T p w)).getLsbD j = T.getD (p + j) false := by
  rw [BitVec.getLsbD_ofNat, decide_eq_true hj, Bool.true_and, testBit_fieldAt T p hj]

theorem testBit_fieldAt_zero (T : List Bool) {w j : Nat} (hj : j < w) : (fieldAt T 0 w).testBit j = T.getD j false := by
  rw [testBit_fieldAt T 0 hj, Nat.zero_add]

theorem fieldAt_one_beq_one (T : List Bool) (p : Nat) : (fieldAt T p 1 == 1) = T.getD p false := by
  have hbit := testBit_fieldAt T p (show 0 < 1 by decide)
  have hlt := fieldAt_lt T p 1
  rwa [Nat.testBit_zero, Nat.mod_eq_of_lt (show fieldAt T p 1 < 2 from hlt)] at hbit

/-- The bytes of the `n` fields of 8 bits from position `p` on. -/
def bytesAt (T : List Bool) (p n : Nat) : List Byte := (List.range n).map fun i => BitVec.ofNat 8 (fieldAt T (p + 8 * i) 8)

@[simp] theorem length_bytesAt (T : List Bool) (p n : Nat) : (bytesAt T p n).length = n := by
  simp [bytesAt]

theorem bitAt_bytesAt (T : List Bool) (p : Nat) {n q : Nat} (hq : q < 8 * n) :
    bitAt (bytesAt T p n) q = T.getD (p + q) false := by
  have hbit : q % 8 < 8 := Nat.mod_lt q (by decide)
  have hbyte : q / 8 < (bytesAt T p n).length := by
    rw [length_bytesAt]
    omega
  rw [bitAt, List.getD_eq_getElem _ _ hbyte]
  simp only [bytesAt, List.getElem_map, List.getElem_range, getLsbD_ofNat_fieldAt T _ hbit]
  rw [Nat.add_assoc, Nat.div_add_mod]

/-- What fields with the given ends answer: the value if all of them end within `T`, else the first end that does not. -/
def readFields {α : Type} (T : List Bool) (ends : List Nat) (v : α) : Except Truncated α :=
  match ends.find? fun fieldEnd => T.length < fieldEnd with
  | none => .ok v
  | some fieldEnd => .error { needed := fieldEnd, available := T.length }

section
variable {α β : Type} {T : List Bool} {ends : List Nat} {v : α}

theorem readFields_eq_ok {u : α} :
    readFields T ends v = .ok u ↔ (∀ fieldEnd ∈ ends, fieldEnd ≤ T.length) ∧ v = u := by
  unfold readFields
  split
  case h_1 h => simp_all
  case h_2 fieldEnd h =>
    have hpast : T.length < fieldEnd := by simpa using List.find?_some h
    refine ⟨(nomatch ·), fun ⟨hall, _⟩ => ?_⟩
    exact absurd (hall fieldEnd (List.mem_of_find?_eq_some h)) (by omega)

theorem readFields_eq_error {e : Truncated} : readFields T ends v = .error e ↔
    e.available = T.length ∧ (ends.find? fun fieldEnd => T.length < fieldEnd) = some e.needed := by
  obtain ⟨needed, available⟩ := e
  unfold readFields
  split
  case h_1 h => simp [h]
  case h_2 fieldEnd h => simp [h, eq_comm, and_comm]

/-- Some field passes the end of `T` exactly when the greatest end does. -/
theorem exists_readFields_eq_error_iff {last : Nat} (hmem : last ∈ ends) (hle : ∀ fieldEnd ∈ ends, fieldEnd ≤ last) :
    (∃ e, readFields T ends v = .error e) ↔ T.length < last := by
  cases hread : readFields T ends v with
  | ok u =>
    have hfits := (readFields_eq_ok.1 hread).1 last hmem
    exact ⟨fun ⟨_, he⟩ => (nomatch he), fun hlt => absurd hlt (by omega)⟩
  | error e =>
    obtain ⟨-, hfind⟩ := readFields_eq_error.1 hread
    have hpast : T.length < e.needed := by simpa using List.find?_some hfind
    exact ⟨fun _ => hpast.trans_le (hle _ (List.mem_of_find?_eq_some hfind)), fun _ => ⟨e, rfl⟩⟩

/-- Fields in turn: the ends of the second ones come after those of the first. -/
theorem readFields_bind {k : α → Except Truncated β} {ends' : List Nat} {u : β} (hk : k v = readFields T ends' u) :
    readFields T ends v >>= k = readFields T (ends ++ ends') u := by
  unfold readFields at hk ⊢
  rw [List.find?_append]
  cases ends.find? fun fieldEnd => T.length < fieldEnd with
  | none => exact hk
  | some fieldEnd => rfl

theorem readFields_bind_pure (f : α → β) : (readFields T ends v >>= fun a => pure (f a)) = readFields T ends (f v) := by
  unfold readFields
  cases ends.find? fun fieldEnd => T.length < fieldEnd with
  | none => rfl
  | some fieldEnd => rfl

end

theorem takeField_eq_readFields {p w q : Nat} (T : List Bool) (hq : p + w = q) :
    takeField T p w = readFields T [q] (fieldAt T p w) := by
  subst hq
  by_cases h : p + w ≤ T.length
  · simp [takeField, readFields, fieldAt, h]
  · simp [takeField, readFields, h, Nat.lt_of_not_le h]

/-- One field, then what its value leads to. -/
theorem takeField_bind {α : Type} {T : List Bool} {p w q : Nat} {k : Nat → Except Truncated α} {ends : List Nat} {u : α}
    (hq : p + w = q) (hk : k (fieldAt T p w) = readFields T ends u) :
    takeField T p w >>= k = readFields T (q :: ends) u := by
  rw [takeField_eq_readFields T hq]
  exact readFields_bind hk

theorem map_range_succ_add {α : Type} (f : Nat → α) (p n : Nat) :
    ((List.range (n + 1)).map fun i => f (p + 8 * i)) = f p :: (List.range n).map fun i => f (p + 8 + 8 * i) := by
  rw [List.range_succ_eq_map, List.map_cons, List.map_map]
  exact congrArg _ (List.map_congr_left fun i _ => congrArg f (by simp only [Nat.succ_eq_add_one]; omega))

theorem takeFieldBytes_eq_readFields {p q : Nat} (T : List Bool) (n : Nat) (hq : p + 8 = q) :
    takeFieldBytes T p n = readFields T ((List.range n).map fun i => q + 8 * i) (bytesAt T p n) := by
  induction n generalizing p q with
  | zero => rfl
  | succ n ih =>
    rw [map_range_succ_add fun fieldEnd => fieldEnd, bytesAt, map_range_succ_add fun i => BitVec.ofNat 8 (fieldAt T i 8)]
    refine takeField_bind hq ?_
    rw [ih (show p + 8 + 8 = q + 8 by omega)]
    exact readFields_bind_pure _

/-- The ends of a header's fields, for a payload length of `n` bits and a filename of `fl` bytes (rule R203). -/
def headerEnds (n fl : Nat) : List Nat :=
  [5, 5 + n, 8 + n, 16 + n] ++ (List.range fl).map (fun i => 24 + n + 8 * i) ++ [17 + n + 8 * fl, 49 + n + 8 * fl]

theorem le_of_mem_headerEnds {n fl fieldEnd : Nat} (h : fieldEnd ∈ headerEnds n fl) : fieldEnd ≤ 49 + n + 8 * fl := by
  simp only [headerEnds, List.mem_append, List.mem_cons, List.mem_map, List.mem_range, List.not_mem_nil, or_false] at h
  omega

theorem last_mem_headerEnds (n fl : Nat) : 49 + n + 8 * fl ∈ headerEnds n fl := by
  simp [headerEnds]

/-- The record whose fields stand in `T` at the places `n` and `fl` give them. -/
def headerAt (T : List Bool) (n fl : Nat) : HeaderRecord where
  payloadLength := fieldAt T 5 n
  lsb := fieldAt T (5 + n) 3 + 1
  filename := bytesAt T (16 + n) fl
  flag := fieldAt T (16 + n + 8 * fl) 1 == 1
  crc := BitVec.ofNat 32 (fieldAt T (17 + n + 8 * fl) 32)
  headerBitLength := 49 + n + 8 * fl

/-- HeaderDecode reads the record at the places its own leading fields give. -/
theorem headerDecode_eq_readFields {T : List Bool} {n fl : Nat} (hn : fieldAt T 0 5 = n) (hfl : fieldAt T (8 + n) 8 = fl) :
    headerDecode T = readFields T (headerEnds n fl) (headerAt T n fl) := by
  rw [headerDecode]
  refine takeField_bind (Nat.zero_add 5) ?_
  rw [hn]
  refine takeField_bind rfl (takeField_bind (q := 8 + n) (by omega) (takeField_bind (q := 16 + n) (by omega) ?_))
  rw [hfl, takeFieldBytes_eq_readFields T fl (q := 24 + n) (by omega)]
  refine readFields_bind (takeField_bind (q := 17 + n + 8 * fl) (by omega) ?_)
  rw [takeField_eq_readFields T (q := 49 + n + 8 * fl) (by omega)]
  exact readFields_bind_pure _

theorem headerDecode_eq_ok_iff {T : List Bool} {n fl : Nat} (hn : fieldAt T 0 5 = n) (hfl : fieldAt T (8 + n) 8 = fl)
    {h : HeaderRecord} : headerDecode T = .ok h ↔ 49 + n + 8 * fl ≤ T.length ∧ headerAt T n fl = h := by
  rw [headerDecode_eq_readFields hn hfl, readFields_eq_ok]
  refine and_congr_left fun _ => ⟨fun hall => hall _ (last_mem_headerEnds n fl), fun hlast fieldEnd hmem => ?_⟩
  exact (le_of_mem_headerEnds hmem).trans hlast

/-- Settles O43: HeaderDecode takes its fields in turn from the places its leading fields give, so it answers their record or
the first end past the sequence, and no end passes 2120. -/
theorem headerDecodeReadsItsFields : Obligations.HeaderDecodeReadsItsFields := by
  refine ⟨fun T h hdec => ?record, fun T => ?truncation, fun T hlong => ?long⟩
  case record =>
    obtain ⟨hlen, rfl⟩ := (headerDecode_eq_ok_iff rfl rfl).1 hdec
    have hdepth := fieldAt_lt T (5 + fieldAt T 0 5) 3
    exact ⟨_, _, fieldAt_lt T 0 5, fun j hj => testBit_fieldAt_zero T hj,
      fieldAt_lt T 5 _, fun j hj => testBit_fieldAt T 5 hj,
      Nat.le_add_left 1 _, by simp only [headerAt]; omega, fun j hj => testBit_fieldAt T _ hj,
      fieldAt_lt T _ 8, fun j hj => testBit_fieldAt T _ hj,
      length_bytesAt .., fun p hp => bitAt_bytesAt T _ hp,
      fieldAt_one_beq_one T _, fun j hj => getLsbD_ofNat_fieldAt T _ hj, rfl, hlen⟩
  case truncation =>
    refine ⟨_, _, fieldAt_lt T 0 5, fun j hj => testBit_fieldAt_zero T hj, fieldAt_lt T _ 8,
      fun j hj => testBit_fieldAt T _ hj, ?iff, fun e he => ?needed⟩
    case iff =>
      rw [headerDecode_eq_readFields rfl rfl]
      exact exists_readFields_eq_error_iff (last_mem_headerEnds _ _) fun _ => le_of_mem_headerEnds
    case needed =>
      rw [headerDecode_eq_readFields rfl rfl] at he
      exact readFields_eq_error.1 he
  case long =>
    have hn := fieldAt_lt T 0 5
    have hfl := fieldAt_lt T (8 + fieldAt T 0 5) 8
    exact ⟨_, (headerDecode_eq_ok_iff rfl rfl).2 ⟨by omega, rfl⟩⟩

/-- Settles O44: whatever follows the frame, its fields are taken where they stand. -/
theorem headerRoundTrip : Obligations.HeaderRoundTrip :=
  fun _ _ _ flag U hpayload hname h1 h8 => headerDecode_headerEncode_append flag U hpayload hname h1 h8

/-- Settles O42: a frame decodes to what it was built from, and a decoded record's fields stand at their places. -/
theorem headerFieldsStandAtTheirPlaces : Obligations.HeaderFieldsStandAtTheirPlaces := by
  intro payload filename lsb flag hpayload hname h1 h8
  have hdec := headerRoundTrip payload filename lsb flag [] hpayload hname h1 h8
  rw [List.append_nil] at hdec
  obtain ⟨n, fl, -, hwidth, -, hlength, -, -, hdepth, -, hnameLength, rfl, hnameBytes, hflag, hcrc, hbits, -⟩ :=
    headerDecodeReadsItsFields.1 _ _ hdec
  obtain rfl : n = bitlen payload.length := by simpa using hbits.symm
  have hlen := length_headerEncode payload filename lsb flag
  have hbl : bitlen payload.length ≤ 31 := bitlen_le_of_lt (by omega)
  exact ⟨_, _, _, rfl, rfl, ⟨lt_two_pow_bitlen _, bitlen_eq_zero_or_two_pow_le _⟩, by omega, by omega,
    fun j hj => (hwidth j hj).symm, fun j hj => (hlength j hj).symm, fun j hj => (hdepth j hj).symm,
    fun j hj => (hnameLength j hj).symm, fun p hp => (hnameBytes p hp).symm, hflag.symm, fun j hj => (hcrc j hj).symm⟩

/-! ### The checksum (rule R204) -/

/-- The bit shifted out is the top bit of the result, as the polynomial's is 1. -/
theorem getLsbD_crcShift_top (c : Word) : (crcShift c).getLsbD 31 = c.getLsbD 0 := by
  unfold crcShift
  split
  case isTrue h => simpa using h
  case isFalse h => simpa using h

theorem crcShift_injective : Function.Injective crcShift := by
  intro c d h
  have hbottom : c.getLsbD 0 = d.getLsbD 0 := by
    rw [← getLsbD_crcShift_top c, h, getLsbD_crcShift_top]
  have hshift : c >>> 1 = d >>> 1 := by
    unfold crcShift at h
    rw [hbottom] at h
    split at h
    · exact (BitVec.xor_left_inj _).1 h
    · exact h
  refine BitVec.eq_of_getLsbD_eq fun i _ => ?_
  cases i with
  | zero => exact hbottom
  | succ i => simpa [Nat.add_comm] using congrArg (BitVec.getLsbD · i) hshift

theorem crcShifts_injective (n : Nat) : Function.Injective (crcShifts n) := by
  induction n with
  | zero => exact fun _ _ h => h
  | succ n ih => exact ih.comp crcShift_injective

theorem crcByte_injective_left (b : Byte) : Function.Injective (crcByte · b) :=
  fun _ _ h => (BitVec.xor_left_inj _).1 (crcShifts_injective 8 h)

theorem crcByte_injective_right (c : Word) : Function.Injective (crcByte c) := by
  intro b d h
  have hwide := (BitVec.xor_right_inj _).1 (crcShifts_injective 8 h)
  simpa using congrArg (BitVec.setWidth 8) hwide

theorem foldl_crcByte_injective (S : List Byte) : Function.Injective (S.foldl crcByte) := by
  induction S with
  | nil => exact fun _ _ h => h
  | cons b S ih => exact ih.comp (crcByte_injective_left b)

/-- Between a common start and a common end the checksum tells apart any two bytes. -/
theorem crc32_append_cons_injective (A B : List Byte) : Function.Injective fun b => crc32 (A ++ b :: B) := by
  intro b d h
  have hfold := (BitVec.xor_left_inj _).1 h
  rw [List.foldl_append, List.foldl_append] at hfold
  exact crcByte_injective_right _ (foldl_crcByte_injective B hfold)

/-- The checksum changes with any one byte. -/
theorem crc32_set_ne {S : List Byte} {i : Nat} {b : Byte} (hi : i < S.length) (hb : b ≠ S[i]) :
    crc32 (S.set i b) ≠ crc32 S := by
  intro h
  conv_rhs at h => rw [← List.set_getElem_self hi]
  rw [List.set_eq_take_append_cons_drop, List.set_eq_take_append_cons_drop, if_pos hi, if_pos hi] at h
  exact hb (crc32_append_cons_injective _ _ h)

theorem getLsbD_getElem_eq_bitAt {S : List Byte} {i j : Nat} (hi : i < S.length) (hj : j < 8) :
    S[i].getLsbD j = bitAt S (i * 8 + j) := by
  rw [← List.getD_eq_getElem S 0 hi, ← groupBitAt_mul_add S hj]
  rfl

/-- Settles O45: the byte that holds the bit differs, every other byte is the same. -/
theorem crcDetectsSingleBitChange : Obligations.CrcDetectsSingleBitChange := by
  intro S T p hlen hp hdiff
  have hS : p / 8 < S.length := by omega
  have hT : p / 8 < T.length := by omega
  have hchanged : T[p / 8] ≠ S[p / 8] := by
    intro h
    refine (hdiff p hp).2 rfl ?_
    rw [bitAt, bitAt, List.getD_eq_getElem _ _ hS, List.getD_eq_getElem _ _ hT, h]
  have hrest : ∀ i (hi : i < S.length), p / 8 ≠ i → T[i]'(hlen ▸ hi) = S[i] := by
    refine fun i hi hne => BitVec.eq_of_getLsbD_eq fun j hj => ?_
    rw [getLsbD_getElem_eq_bitAt _ hj, getLsbD_getElem_eq_bitAt _ hj]
    by_contra hbit
    have := (hdiff (i * 8 + j) (by omega)).1 (Ne.symm hbit)
    omega
  have hset : T = S.set (p / 8) T[p / 8] := by
    refine List.ext_getElem (by simpa using hlen.symm) fun i hi hi' => ?_
    rw [List.getElem_set]
    split
    case isTrue h => simp only [h]
    case isFalse h => exact hrest i (hlen ▸ hi) h
  rw [hset]
  exact (crc32_set_ne hS hchanged).symm

/-! ### The commands (rules R206, R207) -/

/-- Settles O40: the three checks in order, then the checked write of the frame's bits. -/
theorem headerEncodeCommand : Obligations.HeaderEncodeCommand := by
  intro bd bs bf xl xc s
  refine ⟨_, _, rfl, rfl, ?word, fun hlsb => s.finish_checkDepth_of_invalid hlsb _, fun h1 h8 hlong => ?payload,
    fun h1 h8 hpayload hlong => ?name, fun h1 h8 hpayload hname hlong => ?overflow,
    fun h1 h8 hpayload hname hfit => ?completes⟩
  case word => simp (disch := omega) [encode, Instr.opcode, toNat_wordR]
  case payload =>
    exact (s.finish_checkDepth_of_valid h1 h8 _).trans (s.finish_require_of_false (Nat.not_le.2 hlong) _ _)
  case name =>
    exact (s.finish_checkDepth_of_valid h1 h8 _).trans <| (s.finish_require_of_true hpayload _ _).trans
      (s.finish_require_of_false (Nat.not_le.2 hlong) _ _)
  case overflow =>
    exact (s.finish_checkDepth_of_valid h1 h8 _).trans <| (s.finish_require_of_true hpayload _ _).trans <|
      (s.finish_require_of_true hname _ _).trans (s.finish_writeBuf_of_lt bd (List.length_map _) hlong)
  case completes =>
    exact (s.finish_checkDepth_of_valid h1 h8 _).trans <| (s.finish_require_of_true hpayload _ _).trans <|
      (s.finish_require_of_true hname _ _).trans (s.finish_writeBuf_of_le bd ((List.length_map _).trans_le hfit))

theorem exec_hdec_of_error {s : State} {bf bs : Buf} {xd : Base5} {e : Truncated}
    (h : headerDecode ((s.readBuf bs).map bitOfElem) = .error e) :
    exec (.hdec bf bs xd) s = .next (s.faultEntry 12 e.needed e.available) := by
  rw [exec, execHdec, h]
  rfl

theorem exec_hdec_of_ok {s : State} {bf bs : Buf} {xd : Base5} {r : HeaderRecord}
    (h : headerDecode ((s.readBuf bs).map bitOfElem) = .ok r) :
    exec (.hdec bf bs xd) s = s.finish (s.writeBuf bf r.filename >>= fun t => .ok (t.writeRegs5 xd
      (BitVec.ofNat 32 r.payloadLength) (BitVec.ofNat 32 r.lsb) (flagWord r.flag) r.crc
      (BitVec.ofNat 32 r.headerBitLength))) := by
  rw [exec, execHdec, h]
  rfl

/-- Settles O41: without a record the fault names the field's end, else the filename is written, then the registers. -/
theorem headerDecodeCommand : Obligations.HeaderDecodeCommand := by
  intro bf bs xd s
  refine ⟨_, rfl, ?word, fun e => exec_hdec_of_error, fun r hr => ⟨fun hlong => ?overflow, fun hfit => ?completes⟩⟩
  case word => simp (disch := omega) [encode, Instr.opcode, toNat_wordR]
  case overflow =>
    rw [exec_hdec_of_ok hr, State.writeBuf_eq_error.2 ⟨hlong, rfl⟩, except_error_bind, State.finish_error]
    rfl
  case completes =>
    rw [exec_hdec_of_ok hr, State.writeBuf_eq_ok.2 ⟨hfit, rfl⟩, except_ok_bind, State.finish_ok]
    rfl

/-! ### A flipped bit of a plane (rules R246, R249, R251 item 3) -/

/-- The plane with bit `b` of element `a` flipped. -/
def flipBit (Q : List Byte) (a b : Nat) : List Byte := Q.set a (Q.getD a 0 ^^^ BitVec.twoPow 8 b)

theorem getD_flipBit_of_ne {Q : List Byte} {a i : Nat} (h : i ≠ a) (b : Nat) : (flipBit Q a b).getD i 0 = Q.getD i 0 := by
  rw [flipBit, List.getD_eq_getElem?_getD, List.getElem?_set_ne h.symm, ← List.getD_eq_getElem?_getD]

theorem getLsbD_getD_flipBit_self {Q : List Byte} {a b i : Nat} (ha : a < Q.length) (hi : i < 8) :
    ((flipBit Q a b).getD a 0).getLsbD i = ((Q.getD a 0).getLsbD i ^^ decide (i = b)) := by
  rw [flipBit, List.getD_eq_getElem _ _ (by simpa using ha), List.getElem_set_self]
  simp [hi, eq_comm]

/-- Coordinates elsewhere gather what they gathered. -/
theorem gatherPlane_flipBit_of_ne {Q : List Byte} {a w : Nat} {cs : List Coord} (h : ∀ c ∈ cs, c.index w ≠ a)
    (b k : Nat) : gatherPlane (flipBit Q a b) w k cs = gatherPlane Q w k cs :=
  List.map_congr_left fun c hc => by rw [getD_flipBit_of_ne (h c hc)]

theorem index_ne_of_mem_take {cs : List Coord} {w m i : Nat} (hnodup : (cs.map (·.index w)).Nodup) (hm : m ≤ i)
    (hi : i < cs.length) : ∀ c ∈ cs.take m, c.index w ≠ cs[i].index w := by
  intro c hc h
  obtain ⟨l, hl, rfl⟩ := List.mem_iff_getElem.1 hc
  rw [List.length_take] at hl
  have hli : l = i := (hnodup.getElem_inj_iff (hi := by rw [List.length_map]; omega) (hj := by simpa using hi)).1
    (by simpa using h)
  omega

/-- Bit `q` of what is gathered at depth `k` is bit `q mod k` of the pixel of coordinate `q div k`. -/
theorem groupBitAt_gatherPlane {P : List Byte} {w k q : Nat} {cs : List Coord} (h1 : 1 ≤ k) (h8 : k ≤ 8)
    (hq : q / k < cs.length) :
    groupBitAt (gatherPlane P w k cs) k q = (P.getD (cs[q / k].index w) 0).getLsbD (q % k) := by
  have hlt : q % k < k := Nat.mod_lt q h1
  rw [groupBitAt, gatherPlane, List.getD_eq_getElem _ _ (by simpa using hq), List.getElem_map, BitVec.getLsbD_and,
    getLsbD_lowMask, decide_eq_true hlt, decide_eq_true (hlt.trans_le h8), Bool.and_self, Bool.and_true]

/-- Flipping a low bit of the pixel of coordinate `j` flips the one gathered bit that stands for it. -/
theorem groupBitAt_gatherPlane_flipBit {Q : List Byte} {w k j b q : Nat} {cs : List Coord} (h1 : 1 ≤ k) (h8 : k ≤ 8)
    (hnodup : (cs.map (·.index w)).Nodup) (hj : j < cs.length) (hin : cs[j].index w < Q.length) (hb : b < k)
    (hq : q / k < cs.length) :
    groupBitAt (gatherPlane (flipBit Q (cs[j].index w) b) w k cs) k q =
      (groupBitAt (gatherPlane Q w k cs) k q ^^ decide (q = j * k + b)) := by
  have hlt : q % k < k := Nat.mod_lt q h1
  have hdecomp := Nat.div_add_mod' q k
  rw [groupBitAt_gatherPlane h1 h8 hq, groupBitAt_gatherPlane h1 h8 hq]
  by_cases hslot : q / k = j
  · have hbit : q % k = b ↔ q = j * k + b := by
      rw [hslot] at hdecomp
      omega
    simp only [hslot, getLsbD_getD_flipBit_self hin (hlt.trans_le h8), hbit]
  · have hne : cs[q / k].index w ≠ cs[j].index w := by
      intro h
      refine hslot ((hnodup.getElem_inj_iff (hi := by simpa using hq) (hj := by simpa using hj)).1 ?_)
      simpa using h
    have hother : q ≠ j * k + b := by
      rintro rfl
      rw [Nat.mul_comm, Nat.mul_add_div h1, Nat.div_eq_of_lt hb] at hslot
      omega
    rw [getD_flipBit_of_ne hne, decide_eq_false hother, Bool.xor_false]

theorem bitAt_take {S : List Byte} {n q : Nat} (hq : q < 8 * n) : bitAt (S.take n) q = bitAt S q := by
  have hbyte : q / 8 < n := by omega
  simp [bitAt, List.getD_eq_getElem?_getD, hbyte]

/-- As many groups as bytes need give at least those bytes. -/
theorem length_take_groupsToBytes {G : List Byte} {n g : Nat} (h1 : 1 ≤ g) (hG : G.length = ceilDiv (8 * n) g) :
    ((groupsToBytes G g).take n).length = n := by
  have hbits := le_ceilDiv_mul (8 * n) h1
  have hbytes := le_ceilDiv_mul (ceilDiv (8 * n) g * g) (b := 8) (by decide)
  rw [List.length_take, length_groupsToBytes, hG]
  omega

/-- What a completed embedding left in the low bits of its slots: the frame, then the groups. -/
theorem gatherPlane_of_embedPlane {D : List Byte → List Byte} {P : List Byte} {H W : Nat}
    {secret filename password : List Byte} {lsb : Nat} {req : Bool} {Q payload : List Byte} {flag : Bool}
    (ha : adopt D secret req = (payload, flag)) (hH : H < 2 ^ 16) (hW : W < 2 ^ 16) (hP : P.length = H * W) (h1 : 1 ≤ lsb)
    (h8 : lsb ≤ 8) (hembed : embedPlane D P H W secret filename password lsb req = .ok Q) :
    gatherPlane Q W 1 ((permuteAll H W password).take (headerEncode payload filename lsb flag).length) =
        (headerEncode payload filename lsb flag).map elemOfBit ∧
      gatherPlane Q W lsb (((permuteAll H W password).drop (headerEncode payload filename lsb flag).length).take
        (bytesToGroups payload lsb).length) = bytesToGroups payload lsb := by
  obtain ⟨-, hfit, rfl⟩ := (embedPlane_eq_ok ha).1 hembed
  have hnodup := nodup_map_index_permuteAll hH hW password
  have hin : ∀ c ∈ permuteAll H W password, c.index W < P.length := fun c hc =>
    (index_lt_of_mem_permuteAll hH hW hc).trans_eq hP.symm
  have hco := hfit.trans_eq (length_permuteAll H W password).symm
  have hmask : (bytesToGroups payload lsb).map (· &&& lowMask lsb) = bytesToGroups payload lsb :=
    (List.map_congr_left fun v hv => and_lowMask_of_lt h8 (toNat_lt_of_mem_bytesToGroups hv)).trans (List.map_id _)
  rw [gatherPlane_embedSlots hfit P password h1 h8, gatherPlane_embedSlots hfit P password le_rfl h8,
    gatherPlane_substSlots_header hnodup hin hco, gatherPlane_substSlots_payload hnodup hin hco, hmask]
  exact ⟨rfl, rfl⟩

/-- A flipped bit in a slot of groups, no padding bit, is one flipped bit of the bytes, so their checksum differs. -/
theorem crc32_gatherPlane_flipBit_ne {Q payload : List Byte} {w g j b : Nat} {cs : List Coord} (h1 : 1 ≤ g) (h8 : g ≤ 8)
    (hnodup : (cs.map (·.index w)).Nodup) (hread : gatherPlane Q w g cs = bytesToGroups payload g) (hj : j < cs.length)
    (hin : cs[j].index w < Q.length) (hb : b < g) (hpayload : j * g + b < 8 * payload.length) :
    crc32 ((groupsToBytes (gatherPlane (flipBit Q (cs[j].index w) b) w g cs) g).take payload.length) ≠ crc32 payload := by
  have hslots : cs.length = ceilDiv (8 * payload.length) g := by
    simpa [gatherPlane] using congrArg List.length hread
  have hlen := length_take_groupsToBytes h1
    (show (gatherPlane (flipBit Q (cs[j].index w) b) w g cs).length = ceilDiv (8 * payload.length) g by
      simpa [gatherPlane] using hslots)
  refine crcDetectsSingleBitChange _ _ (j * g + b) hlen (by rwa [hlen]) fun q hq => ?_
  rw [hlen] at hq
  have hslot : q / g < cs.length :=
    (Nat.div_lt_iff_lt_mul h1).2 (hslots ▸ hq.trans_le (le_ceilDiv_mul _ h1))
  rw [bitAt_take hq, bitAt_groupsToBytes _ h1, groupBitAt_gatherPlane_flipBit h1 h8 hnodup hj hin hb hslot, hread,
    groupBitAt_bytesToGroups payload h1 h8]
  by_cases hflip : q = j * g + b
  · simp [hflip]
  · simp [hflip]

/-- A payload whose checksum is not the stored one is caught, once its slots lie in the plane (rule R249). -/
theorem extractPayload_of_crc_ne {Q : List Byte} {n W : Nat} {co : List Coord} {h : HeaderRecord} {ng : Nat}
    {data : List Byte} (hng : ceilDiv (8 * h.payloadLength) h.lsb = ng) (hfit : h.headerBitLength + ng ≤ n)
    (hdata : (groupsToBytes (gatherPlane Q W h.lsb ((co.drop h.headerBitLength).take ng)) h.lsb).take h.payloadLength = data)
    (hcrc : crc32 data ≠ h.crc) :
    extractPayload Q n W co h = .error (.integrityFailure h.crc.toNat (crc32 data).toNat) := by
  subst hng
  simp only [extractPayload, hdata, require_of_true hfit, require_of_false hcrc, except_ok_bind, except_error_bind]

/-- Settles O53: the flipped bit is no header bit and exactly one payload bit, and the checksum tells the two payloads
apart. -/
theorem flippedPayloadBitIsCaught : Obligations.FlippedPayloadBitIsCaught := by
  intro D P H W secret filename password lsb req Q j b hH hW hP hname h1 h8 hembed hb hdataBit
  obtain ⟨⟨payload, flag⟩, ha⟩ : ∃ a, a = adopt D secret req := ⟨_, rfl⟩
  rw [← ha] at hdataBit ⊢
  replace hdataBit : j * lsb + b < 8 * payload.length := hdataBit
  obtain ⟨hpayload, hfit, -⟩ := (embedPlane_eq_ok ha.symm).1 hembed
  obtain ⟨hheader, hgroups⟩ := gatherPlane_of_embedPlane ha.symm hH hW hP h1 h8 hembed
  have hhead := length_headerEncode payload filename lsb flag
  have hbl : bitlen payload.length ≤ 31 := bitlen_le_of_lt (Nat.lt_of_le_of_lt hpayload (by decide))
  have hco := length_permuteAll H W password
  have hnodup := nodup_map_index_permuteAll hH hW password
  have hj : j < (bytesToGroups payload lsb).length := by
    have hcover := le_ceilDiv_mul (8 * payload.length) h1
    rw [length_bytesToGroups]
    exact Nat.lt_of_mul_lt_mul_right (a := lsb) (by omega)
  rw [hhead] at hgroups
  have hslot : 49 + bitlen payload.length + 8 * filename.length + j < (permuteAll H W password).length := by omega
  have hpixel := index_lt_of_mem_permuteAll hH hW (List.getElem_mem hslot)
  rw [List.getD_eq_getElem _ _ hslot]
  have hheaderKept := (gatherPlane_flipBit_of_ne
    (index_ne_of_mem_take hnodup (hhead.trans_le (Nat.le_add_right _ j)) hslot) b 1).trans hheader
  have hcrc := crc32_gatherPlane_flipBit_ne (j := j) h1 h8
    (hnodup.sublist (((List.take_sublist _ _).trans (List.drop_sublist _ _)).map _)) hgroups
    (by rw [List.length_take, List.length_drop]; omega)
    (by
      simp only [List.getElem_take, List.getElem_drop]
      exact hpixel.trans_eq ((length_of_embedPlane_eq_ok hembed).trans hP).symm)
    hb hdataBit
  simp only [List.getElem_take, List.getElem_drop] at hcrc
  refine ⟨_, rfl, _, hcrc, ?_⟩
  refine (extractPlane_of_header (by simp only [Config.maxHeaderBits]; omega) hheaderKept
    fun U => headerDecode_headerEncode_append flag U hpayload hname h1 h8).trans ?_
  exact extractPayload_of_crc_ne (length_bytesToGroups payload lsb).symm (hhead ▸ hfit) rfl hcrc

end Sys2Proof.Machine
end

section
/-! Proofs, `45_validation.md`: how each check of the validation unit ends. -/

namespace Sys2Proof.Machine

/-- A check whose condition holds moves `cp` on and writes nothing (rule R230). -/
theorem State.finish_check_of_true (s : State) {c : Prop} [Decidable c] (h : c) (f : Fault) :
    s.finish (require c f >>= fun _ => .ok s) = .next s.advance :=
  (s.finish_require_of_true h f _).trans (s.finish_ok s)

/-- Settles O46: each command is one check, whose fault's numbers are the ones its rule names. -/
theorem validationChecksPassOrFault : Obligations.ValidationChecksPassOrFault := by
  refine ⟨fun xs s => ⟨?vlsbWord, fun h1 h8 => ?depthPasses, fun hdepth => ?depthFaults⟩,
    fun xs s => ⟨?vfmtWord, fun hclear => ?formatPasses, fun hset => ?formatFaults⟩,
    fun xh xp s => ⟨_, _, rfl, rfl, ?vcapWord, fun hfit => ?capacityPasses, fun hshort => ?capacityFaults⟩,
    fun bs xs s => ⟨?vcrcWord, fun hsame => ?integrityPasses, fun hdiff => ?integrityFaults⟩⟩
  case vlsbWord | vfmtWord | vcapWord | vcrcWord => simp (disch := omega) [encode, Instr.opcode, toNat_wordR]
  case depthPasses => exact s.finish_check_of_true ⟨h1, h8⟩ _
  case depthFaults => exact s.finish_checkDepth_of_invalid hdepth _
  case formatPasses => exact s.finish_check_of_true hclear _
  case formatFaults => exact s.finish_require_of_false (ne_false_of_eq_true hset) .unsupportedOutputFormat _
  case capacityPasses => exact s.finish_check_of_true hfit _
  case capacityFaults => exact s.finish_require_of_false (Nat.not_le.2 hshort) (.insufficientCapacity _ _) _
  case integrityPasses => exact s.finish_check_of_true hsame _
  case integrityFaults => exact s.finish_require_of_false hdiff (.integrityFailure _ _) _

end Sys2Proof.Machine
end

section
/-! Proofs, `46_orchestrator.md`: one pixel under the substitutions of SCAT and of EMBED, the checks SCAT and GATH share, the
steps of EXTRACT, and the leaf commands that do what EMBED does. -/

namespace Sys2Proof.Machine

/-! ### One pixel under substitutions (rules R240, R243, R246) -/

/-- Below the depth a substituted pixel has the value's bits, from the depth on its own (rule R240). -/
theorem getLsbD_subst (p v : Byte) (k : Nat) {b : Nat} (hb : b < 8) :
    (subst p v k).getLsbD b = if b < k then v.getLsbD b else p.getLsbD b := by
  rw [subst, BitVec.getLsbD_or, BitVec.getLsbD_and, BitVec.getLsbD_and, BitVec.getLsbD_not, getLsbD_lowMask]
  by_cases h : b < k
  · simp [hb, h]
  · simp [hb, h]

/-- Of two substitutions of one depth the later stands. -/
theorem subst_subst (p v v' : Byte) (k : Nat) : subst (subst p v k) v' k = subst p v' k := by
  refine BitVec.eq_of_getLsbD_eq fun b hb => ?_
  rw [getLsbD_subst _ _ _ hb, getLsbD_subst _ _ _ hb, getLsbD_subst _ _ _ hb]
  split <;> rfl

/-- What the substitutions at depth `k`, in turn, make of the pixel of index `a` in a plane of width `w`. -/
def substPixel (w k a : Nat) (cvs : List (Coord × Byte)) (p : Byte) : Byte :=
  cvs.foldl (fun q cv => if cv.1.index w = a then subst q cv.2 k else q) p

section
variable {w k a : Nat} {cvs : List (Coord × Byte)}

theorem substPixel_cons (w k a : Nat) (cv : Coord × Byte) (cvs : List (Coord × Byte)) (p : Byte) :
    substPixel w k a (cv :: cvs) p = substPixel w k a cvs (if cv.1.index w = a then subst p cv.2 k else p) := rfl

theorem substPixel_of_ne (h : ∀ cv ∈ cvs, cv.1.index w ≠ a) (p : Byte) : substPixel w k a cvs p = p := by
  induction cvs with
  | nil => rfl
  | cons cv cvs ih =>
    obtain ⟨hne, htail⟩ := List.forall_mem_cons.1 h
    rw [substPixel_cons, if_neg hne, ih htail]

/-- The last substitution that names the pixel decides it; what earlier ones wrote is gone. -/
theorem substPixel_of_last {i : Nat} (hi : i < cvs.length) (ha : cvs[i].1.index w = a)
    (hlast : ∀ j, i < j → ∀ hj : j < cvs.length, cvs[j].1.index w ≠ a) (p : Byte) :
    substPixel w k a cvs p = subst p cvs[i].2 k := by
  induction cvs generalizing i p with
  | nil => exact absurd hi (Nat.not_lt_zero i)
  | cons cv cvs ih =>
    rw [substPixel_cons]
    cases i with
    | zero =>
      have hrest : ∀ d ∈ cvs, d.1.index w ≠ a := fun d hd => by
        obtain ⟨j, hj, rfl⟩ := List.mem_iff_getElem.1 hd
        exact hlast (j + 1) (Nat.succ_pos j) (Nat.succ_lt_succ hj)
      exact (substPixel_of_ne hrest _).trans (if_pos ha)
    | succ i =>
      rw [ih (Nat.lt_of_succ_lt_succ hi) ha fun j hij hj => hlast (j + 1) (Nat.succ_lt_succ hij) (Nat.succ_lt_succ hj)]
      simp only [List.getElem_cons_succ]
      split
      · exact subst_subst ..
      · rfl

/-- Where the coordinates name different pixels, each pixel takes the one value at its place. -/
theorem substPixel_zip {cs : List Coord} {vs : List Byte} {i : Nat} (hnodup : (cs.map (·.index w)).Nodup)
    (hi : i < cs.length) (hi' : i < vs.length) (p : Byte) :
    substPixel w k (cs[i].index w) (cs.zip vs) p = subst p vs[i] k := by
  have hlast : ∀ j, i < j → ∀ hj : j < (cs.zip vs).length, (cs.zip vs)[j].1.index w ≠ cs[i].index w := by
    intro j hij hj h
    rw [List.getElem_zip] at h
    rw [List.length_zip] at hj
    have := (hnodup.getElem_inj_iff (i := j) (j := i) (hi := by rw [List.length_map]; omega)
      (hj := by rwa [List.length_map])).1 (by simpa using h)
    omega
  rw [substPixel_of_last (i := i) (by rw [List.length_zip]; omega) (by rw [List.getElem_zip]) hlast, List.getElem_zip]

/-- SCAT works on each pixel by itself. -/
theorem read_scatter {m : Memory 8} (hm : m.wf) (w k : Nat) (cvs : List (Coord × Byte)) (a : Nat) :
    (scatter w k cvs m).read a = substPixel w k a cvs (m.read a) := by
  induction cvs generalizing m with
  | nil => rfl
  | cons cv cvs ih =>
    rw [scatter, ih (Memory.wf_write hm _ _), Memory.read_write hm, substPixel_cons]
    by_cases h : cv.1.index w = a
    · rw [if_pos h.symm, if_pos h, h]
    · rw [if_neg (Ne.symm h), if_neg h]

/-- So do the steps of `EmbedPlane` that substitute. -/
theorem getD_substAll {Q : List Byte} (ha : a < Q.length) (w k : Nat) (cvs : List (Coord × Byte)) :
    (substAll w k cvs Q).getD a 0 = substPixel w k a cvs (Q.getD a 0) := by
  induction cvs generalizing Q with
  | nil => rfl
  | cons cv cvs ih =>
    rw [substAll, ih (by simpa using ha), substPixel_cons, List.getD_eq_getElem _ _ (by simpa using ha), List.getElem_set,
      List.getD_eq_getElem Q 0 ha]
    split
    case isTrue h => simp only [h, List.getD_eq_getElem Q 0 ha]
    case isFalse => rfl

theorem wf_scatter {m : Memory 8} (hm : m.wf) (w k : Nat) (cvs : List (Coord × Byte)) : (scatter w k cvs m).wf := by
  induction cvs generalizing m with
  | nil => exact hm
  | cons cv cvs ih => exact ih (Memory.wf_write hm _ _)

end

/-! ### The checks SCAT and GATH share (rules R243, R245) -/

/-- The coordinate names a pixel of the plane. -/
abbrev State.Inside (s : State) (c : Coord) : Prop := c.row.toNat < s.ph.toNat ∧ c.col.toNat < s.pw.toNat

/-- Entry `i` of the window of `C` from `off` on. -/
abbrev State.entry (s : State) (off i : Nat) : Coord := s.coords.getD (off + i) ⟨0, 0⟩

theorem State.length_window_of_le {s : State} {off n : Nat} (h : off + n ≤ s.clen) : (s.window off n).length = n := by
  rw [State.length_window]
  omega

theorem State.getElem_window_eq_entry {s : State} {off n i : Nat} (hi : i < (s.window off n).length) :
    (s.window off n)[i] = s.entry off i := by
  have hlen := hi
  rw [State.length_window] at hlen
  have hC : off + i < s.coords.length := show off + i < s.clen by omega
  rw [State.getElem_window, State.entry, List.getD_eq_getElem _ _ hC]

/-- The effect of a command that goes on to `e` once the depth, the plane and the window of `n` coordinates have passed. -/
def State.afterSlotChecks (s : State) (k off n : Nat) (e : Except Fault State) : Except Fault State := do
  checkDepth k
  s.checkPlane
  s.checkWindow off n
  s.checkInside off (s.window off n)
  e

theorem exec_scat (bs : Buf) (xk xo : Reg) (s : State) :
    exec (.scat bs xk xo) s = s.finish (s.afterSlotChecks (s.readReg xk).toNat (s.readReg xo).toNat (s.blen bs)
      (.ok { s with
        pl := scatter s.pw.toNat (s.readReg xk).toNat
          ((s.window (s.readReg xo).toNat (s.blen bs)).zip (s.readBuf bs)) s.pl })) := rfl

theorem exec_gath (bd : Buf) (xk xo xn : Reg) (s : State) :
    exec (.gath bd xk xo xn) s = s.finish (s.afterSlotChecks (s.readReg xk).toNat (s.readReg xo).toNat
      (s.readReg xn).toNat (s.writeBuf bd (gather s.pl s.pw.toNat (s.readReg xk).toNat
        (s.window (s.readReg xo).toNat (s.readReg xn).toNat)))) := rfl

section
variable {s : State} {k off n : Nat} (e : Except Fault State)

theorem State.finish_afterSlotChecks_of_invalidDepth (hk : k < 1 ∨ 8 < k) :
    s.finish (s.afterSlotChecks k off n e) = .next (s.faultEntry 1 k 0) := s.finish_checkDepth_of_invalid hk _

variable (h1 : 1 ≤ k) (h8 : k ≤ 8)
include h1 h8

theorem State.finish_afterSlotChecks_of_largePlane (hlarge : s.caps.planeCap < s.pixels) :
    s.finish (s.afterSlotChecks k off n e) = .next (s.faultEntry 8 s.pixels s.caps.planeCap) :=
  (s.finish_checkDepth_of_valid h1 h8 _).trans (State.finish_checkPlane_of_lt hlarge _)

variable (hplane : s.pixels ≤ s.caps.planeCap)
include hplane

theorem State.finish_afterSlotChecks_of_shortCoords (hshort : s.clen < off + n) :
    s.finish (s.afterSlotChecks k off n e) = .next (s.faultEntry 8 (off + n) s.clen) :=
  (s.finish_checkDepth_of_valid h1 h8 _).trans <| (State.finish_checkPlane_of_le hplane _).trans <|
    s.finish_require_of_false (Nat.not_le.2 hshort) (.operandRange _ _) _

variable (hwindow : off + n ≤ s.clen)
include hwindow

theorem State.finish_afterSlotChecks_of_window :
    s.finish (s.afterSlotChecks k off n e) = s.finish (s.checkInside off (s.window off n) >>= fun _ => e) :=
  (s.finish_checkDepth_of_valid h1 h8 _).trans <| (State.finish_checkPlane_of_le hplane _).trans <|
    s.finish_require_of_true hwindow _ _

/-- The first entry outside the plane is the one the fault names. -/
theorem State.finish_afterSlotChecks_of_outside {i : Nat} (hi : i < n) (hout : ¬s.Inside (s.entry off i))
    (hfirst : ∀ j, j < i → s.Inside (s.entry off j)) :
    s.finish (s.afterSlotChecks k off n e) = .next (s.faultEntry 8 (off + i)
      ((s.entry off i).row.toNat * 2 ^ 16 + (s.entry off i).col.toNat)) := by
  have hlen : i < (s.window off n).length := hi.trans_eq (State.length_window_of_le hwindow).symm
  have herror : s.checkInside off (s.window off n) =
      .error (.operandRange (off + i) ((s.entry off i).row.toNat * 2 ^ 16 + (s.entry off i).col.toNat)) := by
    refine State.checkInside_eq_error.2 ⟨i, hlen, ?_, fun j hj => ?_, ?_⟩
    · rwa [State.getElem_window_eq_entry]
    · rw [State.getElem_window_eq_entry]
      exact hfirst j hj
    · rw [State.getElem_window_eq_entry]
  rw [State.finish_afterSlotChecks_of_window e h1 h8 hplane hwindow, herror]
  rfl

theorem State.finish_afterSlotChecks_of_passed (hinside : ∀ i, i < n → s.Inside (s.entry off i)) :
    s.finish (s.afterSlotChecks k off n e) = s.finish e := by
  have hok : s.checkInside off (s.window off n) = .ok () := by
    refine State.checkInside_eq_ok.2 fun c hc => ?_
    obtain ⟨i, hi, rfl⟩ := List.mem_iff_getElem.1 hc
    rw [State.getElem_window_eq_entry]
    exact hinside i (hi.trans_eq (State.length_window_of_le hwindow))
  rw [State.finish_afterSlotChecks_of_window e h1 h8 hplane hwindow, hok, except_ok_bind]

end

/-! ### Planes written from their start (rules R241, R246) -/

theorem Memory.read_writeAll_zero {m : Memory 8} (h : m.wf) {l : List Byte} {n : Nat} (hl : l.length = n) (i : Nat) :
    (m.writeAll 0 l).read i = if i < n then l.getD i 0 else m.read i := by
  subst hl
  simpa [blankCell] using Memory.read_writeAll h 0 l i

theorem State.getD_plPixels {s : State} {i : Nat} (hi : i < s.pixels) : s.plPixels.getD i 0 = s.pl.read i :=
  Memory.getD_readAll _ hi _

/-- The pixels of `PL` written to `RF`: its own elements stand past them. -/
theorem State.read_rf_writeAll_plPixels {s : State} (hwf : s.rf.wf) (i : Nat) :
    (s.rf.writeAll 0 s.plPixels).read i = if i < s.pixels then s.pl.read i else s.rf.read i := by
  rw [Memory.read_writeAll_zero hwf s.length_plPixels]
  split
  case isTrue hi => exact State.getD_plPixels hi
  case isFalse => rfl

/-! ### SNAP, SCAT and GATH -/

/-- Settles O47: the plane's check, then a write of its pixels to `RF`. -/
theorem snapCommand : Obligations.SnapCommand :=
  fun s => ⟨_, rfl, by decide, fun hlarge => State.finish_checkPlane_of_lt hlarge _, fun hfit hwf =>
    ⟨s.rf.writeAll 0 s.plPixels, fun i hi => (State.read_rf_writeAll_plPixels hwf i).trans (if_pos hi),
      fun i hi => (State.read_rf_writeAll_plPixels hwf i).trans (if_neg (Nat.not_lt.2 hi)),
      State.finish_checkPlane_of_le hfit _⟩⟩

/-- Settles O48: the checks in turn, then each pixel as its last substitution leaves it. -/
theorem scatterCommand : Obligations.ScatterCommand := by
  intro bs xk xo s
  refine ⟨_, _, _, _, fun i => (s.entry (s.readReg xo).toNat i).index s.pw.toNat,
    fun i => s.Inside (s.entry (s.readReg xo).toNat i), rfl, rfl, rfl, rfl, fun _ => rfl, fun _ => .rfl, ?word,
    State.finish_afterSlotChecks_of_invalidDepth _,
    fun h1 h8 => State.finish_afterSlotChecks_of_largePlane _ h1 h8,
    fun h1 h8 hplane => State.finish_afterSlotChecks_of_shortCoords _ h1 h8 hplane,
    fun h1 h8 hplane hwindow i => State.finish_afterSlotChecks_of_outside _ h1 h8 hplane hwindow,
    fun h1 h8 hplane hwindow hinside hwf => ⟨_, fun i hi hlast b hb => ?named, fun a ha => ?other,
      State.finish_afterSlotChecks_of_passed _ h1 h8 hplane hwindow hinside⟩⟩
  case word => simp (disch := omega) [encode, Instr.opcode, toNat_wordR]
  case named =>
    have hlen := State.length_window_of_le hwindow
    have hslot : ∀ j (hj : j < ((s.window (s.readReg xo).toNat (s.blen bs)).zip (s.readBuf bs)).length),
        ((s.window (s.readReg xo).toNat (s.blen bs)).zip (s.readBuf bs))[j].1 = s.entry (s.readReg xo).toNat j :=
      fun j hj => by rw [List.getElem_zip, State.getElem_window_eq_entry]
    have hi' : i < (s.readBuf bs).length := hi
    rw [read_scatter hwf, substPixel_of_last (i := i) (by rw [List.length_zip]; omega) (by rw [hslot]) fun j hij hj => ?_,
      getLsbD_subst _ _ _ hb, List.getElem_zip, List.getD_eq_getElem _ _ hi']
    rw [hslot]
    rw [List.length_zip] at hj
    exact hlast j hij (by omega)
  case other =>
    refine read_scatter_of_ne hwf fun cv hcv => ?_
    obtain ⟨i, hi, hcoord⟩ := List.mem_iff_getElem.1 (List.of_mem_zip hcv).1
    rw [← hcoord, State.getElem_window_eq_entry]
    exact ha i (hi.trans_eq (State.length_window_of_le hwindow))

/-- Settles O49: the checks of SCAT, then the checked write of what the window's pixels hold below the depth. -/
theorem gatherCommand : Obligations.GatherCommand := by
  intro bd xk xo xn s
  have hlen : (s.readReg xo).toNat + (s.readReg xn).toNat ≤ s.clen →
      (gather s.pl s.pw.toNat (s.readReg xk).toNat (s.window (s.readReg xo).toNat (s.readReg xn).toNat)).length =
        (s.readReg xn).toNat := fun hwindow => (List.length_map _).trans (State.length_window_of_le hwindow)
  refine ⟨_, _, _, _, fun i => (s.entry (s.readReg xo).toNat i).index s.pw.toNat,
    fun i => s.Inside (s.entry (s.readReg xo).toNat i), rfl, rfl, rfl, rfl, fun _ => rfl, fun _ => .rfl, ?word,
    State.finish_afterSlotChecks_of_invalidDepth _,
    fun h1 h8 => State.finish_afterSlotChecks_of_largePlane _ h1 h8,
    fun h1 h8 hplane => State.finish_afterSlotChecks_of_shortCoords _ h1 h8 hplane,
    fun h1 h8 hplane hwindow i => State.finish_afterSlotChecks_of_outside _ h1 h8 hplane hwindow,
    fun h1 h8 hplane hwindow hinside hlong => ?overflow, fun h1 h8 hplane hwindow hinside hfit =>
      ⟨_, hlen hwindow, fun i b hi hb => ?bits, ?completes⟩⟩
  case word => simp (disch := omega) [encode, Instr.opcode, toNat_wordR]
  case overflow =>
    exact (State.finish_afterSlotChecks_of_passed _ h1 h8 hplane hwindow hinside).trans
      (s.finish_writeBuf_of_lt bd (hlen hwindow) hlong)
  case bits =>
    rw [List.getD_eq_getElem _ _ (by rwa [hlen hwindow])]
    simp only [gather, List.getElem_map, State.getElem_window_eq_entry, BitVec.getLsbD_and, getLsbD_lowMask, hb,
      decide_true, Bool.true_and, Bool.and_comm]
  case completes =>
    exact (State.finish_afterSlotChecks_of_passed _ h1 h8 hplane hwindow hinside).trans
      (s.finish_writeBuf_of_le bd ((hlen hwindow).trans_le hfit))

/-! ### The steps of ExtractPlane (rule R249) -/

/-- Bit `b` of the element gathered at coordinate `j`: the pixel's below the depth, else 0. -/
theorem getLsbD_getD_gatherPlane (P : List Byte) (w k : Nat) {cs : List Coord} {j b : Nat} (hj : j < cs.length)
    (hb : b < 8) : ((gatherPlane P w k cs).getD j 0).getLsbD b =
      (decide (b < k) && (P.getD (cs[j].index w) 0).getLsbD b) := by
  rw [gatherPlane, List.getD_eq_getElem _ _ (by simpa using hj), List.getElem_map, BitVec.getLsbD_and, getLsbD_lowMask,
    decide_eq_true hb, Bool.true_and, Bool.and_comm]

/-- The candidate header: bit 0 of the first 2121 pixels of the permutation, or of all. -/
def candidateHeader (P : List Byte) (H W : Nat) (password : List Byte) : List Bool :=
  (gatherPlane P W 1 ((permuteAll H W password).take (min Config.maxHeaderBits (H * W)))).map bitOfElem

/-- The groups of the payload a header announces, from the slots after the header's on. -/
def payloadGroups (P : List Byte) (W : Nat) (co : List Coord) (h : HeaderRecord) : List Byte :=
  gatherPlane P W h.lsb ((co.drop h.headerBitLength).take (ceilDiv (8 * h.payloadLength) h.lsb))

/-- The bytes of that payload. -/
def payloadBytes (P : List Byte) (W : Nat) (co : List Coord) (h : HeaderRecord) : List Byte :=
  (groupsToBytes (payloadGroups P W co h) h.lsb).take h.payloadLength

@[simp] theorem length_candidateHeader (P : List Byte) (H W : Nat) (password : List Byte) :
    (candidateHeader P H W password).length = min 2121 (H * W) := by
  simp [candidateHeader, gatherPlane, Config.maxHeaderBits]

theorem getD_candidateHeader (P : List Byte) {H W : Nat} (password : List Byte) {i : Nat}
    (hi : i < (candidateHeader P H W password).length) : (candidateHeader P H W password).getD i false =
      (P.getD (((permuteAll H W password).getD i ⟨0, 0⟩).index W) 0).getLsbD 0 := by
  have hlen := hi
  rw [length_candidateHeader] at hlen
  have hco : i < (permuteAll H W password).length := by
    rw [length_permuteAll]
    omega
  rw [List.getD_eq_getElem _ _ hi, List.getD_eq_getElem _ _ hco]
  simp [candidateHeader, gatherPlane, bitOfElem, getLsbD_lowMask]

section
variable {P : List Byte} {H W n : Nat} {password data : List Byte} {co : List Coord} {h : HeaderRecord}

theorem extractPlane_of_truncated {e : Truncated} (hdec : headerDecode (candidateHeader P H W password) = .error e) :
    extractPlane P H W password = .error (.headerTruncated e.needed e.available) := by
  rw [candidateHeader] at hdec
  simp only [extractPlane, hdec]

theorem extractPlane_of_decoded (hdec : headerDecode (candidateHeader P H W password) = .ok h) :
    extractPlane P H W password = extractPayload P (H * W) W (permuteAll H W password) h := by
  rw [candidateHeader] at hdec
  simp only [extractPlane, hdec]

theorem extractPayload_of_overrun (hover : n < h.headerBitLength + ceilDiv (8 * h.payloadLength) h.lsb) :
    extractPayload P n W co h = .error (.integrityFailure h.crc.toNat (2 ^ 32)) := by
  simp only [extractPayload, require_of_false (Nat.not_le.2 hover), except_error_bind]

/-- Once the payload's slots lie in the plane and its checksum is the stored one, only the output is left to find. -/
theorem extractPayload_of_crc_eq (hfit : h.headerBitLength + ceilDiv (8 * h.payloadLength) h.lsb ≤ n)
    (hcrc : crc32 (payloadBytes P W co h) = h.crc) :
    extractPayload P n W co h = extractOutput h (payloadBytes P W co h) >>= fun out => .ok {
      out := out
      filename := h.filename
      payloadLength := h.payloadLength
      lsb := h.lsb
      flag := h.flag
      crc := h.crc
      headerBitLength := h.headerBitLength } := by
  rw [extractPayload, require_of_true hfit, except_ok_bind]
  exact congrArg (· >>= _) (require_of_true hcrc _)

theorem extractOutput_eq_ok {out : List Byte} :
    extractOutput h data = .ok out ↔ if h.flag = true then inflate data = some out else out = data := by
  unfold extractOutput
  split
  · split
    case h_1 hnone => simp [hnone]
    case h_2 hsome => simp [hsome]
  · simp [eq_comm]

theorem extractOutput_eq_error {f : Fault} :
    extractOutput h data = .error f ↔ h.flag = true ∧ inflate data = none ∧ f = .inflateError h.payloadLength := by
  unfold extractOutput
  split
  case isTrue hflag =>
    split
    case h_1 hnone => simp [hflag, hnone, eq_comm]
    case h_2 hsome => simp [hsome]
  case isFalse hflag => simp [hflag]

theorem length_payloadGroups (hfit : h.headerBitLength + ceilDiv (8 * h.payloadLength) h.lsb ≤ co.length) :
    (payloadGroups P W co h).length = ceilDiv (8 * h.payloadLength) h.lsb := by
  rw [payloadGroups, gatherPlane, List.length_map, List.length_take, List.length_drop]
  omega

theorem getLsbD_getD_payloadGroups (hfit : h.headerBitLength + ceilDiv (8 * h.payloadLength) h.lsb ≤ co.length)
    {j b : Nat} (hj : j < ceilDiv (8 * h.payloadLength) h.lsb) (hb : b < 8) :
    ((payloadGroups P W co h).getD j 0).getLsbD b =
      (decide (b < h.lsb) && (P.getD ((co.getD (h.headerBitLength + j) ⟨0, 0⟩).index W) 0).getLsbD b) := by
  have hslot : h.headerBitLength + j < co.length := by omega
  rw [payloadGroups, getLsbD_getD_gatherPlane P W h.lsb (by rw [List.length_take, List.length_drop]; omega) hb,
    List.getElem_take, List.getElem_drop, List.getD_eq_getElem co _ hslot]

/-- Three kinds of faults, whichever step raises one. -/
theorem fault_of_extractPlane_eq_error {f : Fault} (hf : extractPlane P H W password = .error f) :
    (∃ u v, f = .headerTruncated u v) ∨ (∃ u v, f = .integrityFailure u v) ∨ ∃ u, f = .inflateError u := by
  cases hdec : headerDecode (candidateHeader P H W password) with
  | error e =>
    rw [extractPlane_of_truncated hdec] at hf
    exact .inl ⟨_, _, (Except.error.inj hf).symm⟩
  | ok h =>
    rw [extractPlane_of_decoded hdec, extractPayload] at hf
    obtain hover | ⟨_, -, hf⟩ := except_bind_eq_error.1 hf
    · exact .inr (.inl ⟨_, _, (require_eq_error.1 hover).2⟩)
    obtain hcrc | ⟨_, -, hf⟩ := except_bind_eq_error.1 hf
    · exact .inr (.inl ⟨_, _, (require_eq_error.1 hcrc).2⟩)
    obtain hout | ⟨_, -, hf⟩ := except_bind_eq_error.1 hf
    · obtain ⟨-, -, hf⟩ := extractOutput_eq_error.1 hout
      exact .inr (.inr ⟨_, hf⟩)
    · cases hf

end

theorem one_le_lsb_of_headerDecode {T : List Bool} {h : HeaderRecord} (hdec : headerDecode T = .ok h) : 1 ≤ h.lsb := by
  obtain ⟨-, rfl⟩ := (headerDecode_eq_ok_iff rfl rfl).1 hdec
  exact Nat.le_add_left 1 _

theorem headerBitLength_le_of_headerDecode {T : List Bool} {h : HeaderRecord} (hdec : headerDecode T = .ok h) :
    h.headerBitLength ≤ T.length := by
  obtain ⟨hlen, rfl⟩ := (headerDecode_eq_ok_iff rfl rfl).1 hdec
  exact hlen

/-- Settles O60: each step by its lemma, on the candidate header and on the payload its record announces. -/
theorem extractPlaneFailsInOrder : Obligations.ExtractPlaneFailsInOrder := by
  intro P H W password
  refine ⟨_, candidateHeader P H W password, fun _ => rfl, length_candidateHeader ..,
    fun i => getD_candidateHeader P password, fun e => extractPlane_of_truncated, fun h hdec =>
    ⟨_, payloadGroups P W (permuteAll H W password) h, payloadBytes P W (permuteAll H W password) h,
      headerBitLength_le_of_headerDecode hdec, rfl,
      fun hover => (extractPlane_of_decoded hdec).trans (extractPayload_of_overrun hover), fun hfit => ?fits⟩⟩
  case fits =>
    have h1 := one_le_lsb_of_headerDecode hdec
    have hco := hfit.trans_eq (length_permuteAll H W password).symm
    have hgroups := length_payloadGroups (P := P) (W := W) hco
    refine ⟨hgroups, fun j b hj hb => getLsbD_getD_payloadGroups hco hj hb, length_take_groupsToBytes h1 hgroups,
      fun p hp => (bitAt_take hp).trans (bitAt_groupsToBytes _ h1 p),
      fun hne => (extractPlane_of_decoded hdec).trans (extractPayload_of_crc_ne rfl hfit rfl hne),
      fun hcrc hflag hnone => ?notInflated, fun out hcrc hout => ?completes⟩
    case notInflated =>
      rw [extractPlane_of_decoded hdec, extractPayload_of_crc_eq hfit hcrc,
        extractOutput_eq_error.2 ⟨hflag, hnone, rfl⟩, except_error_bind]
    case completes =>
      rw [extractPlane_of_decoded hdec, extractPayload_of_crc_eq hfit hcrc, extractOutput_eq_ok.2 hout, except_ok_bind]

/-! ### EXTRACT (rule R250) -/

/-- After the plane's check, what `ExtractPlane` finds is written through the checked writes of two buffers. -/
theorem exec_extract_of_plane {s : State} (hplane : s.pixels ≤ s.caps.planeCap) (bd bf bp : Buf) (xd : Base5) :
    exec (.extract bd bf bp xd) s = s.finish (extractPlane s.plPixels s.ph.toNat s.pw.toNat (s.readBuf bp) >>= fun e =>
      s.writeBuf bd e.out >>= fun t => t.writeBuf bf e.filename >>= fun u => .ok (u.writeRegs5 xd
        (BitVec.ofNat 32 e.payloadLength) (BitVec.ofNat 32 e.lsb) (flagWord e.flag) e.crc
        (BitVec.ofNat 32 e.headerBitLength))) :=
  State.finish_checkPlane_of_le hplane _

/-- Settles O51: the plane's check, what `ExtractPlane` raises, and the two writes in turn. -/
theorem extractCommand : Obligations.ExtractCommand := by
  intro bd bf bp xd s
  refine ⟨_, _, rfl, rfl, ?word, fun hlarge => State.finish_checkPlane_of_lt hlarge _,
    fun hplane f hf => ⟨fault_of_extractPlane_eq_error hf, ?raised⟩,
    fun hplane e he => ?record⟩
  case word => simp (disch := omega) [encode, Instr.opcode, toNat_wordR]
  case raised =>
    have hfault : extractPlane s.plPixels s.ph.toNat s.pw.toNat (s.readBuf bp) = .error f := hf
    rw [exec_extract_of_plane hplane, hfault, except_error_bind, State.finish_error]
  case record =>
    have hrecord : extractPlane s.plPixels s.ph.toNat s.pw.toNat (s.readBuf bp) = .ok e := he
    rw [exec_extract_of_plane hplane, hrecord, except_ok_bind]
    refine ⟨fun hlong => ?dataOverflow, fun hdata hlong => ?nameOverflow, fun hdata hname => ?completes⟩
    case dataOverflow =>
      rw [State.writeBuf_eq_error.2 ⟨hlong, rfl⟩]
      rfl
    case nameOverflow =>
      rw [State.writeBuf_eq_ok.2 ⟨hdata, rfl⟩, except_ok_bind,
        State.writeBuf_eq_error (s := s.setBuf bd e.out).2 ⟨hlong, rfl⟩]
      rfl
    case completes =>
      rw [State.writeBuf_eq_ok.2 ⟨hdata, rfl⟩, except_ok_bind,
        State.writeBuf_eq_ok (s := s.setBuf bd e.out).2 ⟨hname, rfl⟩]
      rfl

/-! ### The slots of an embedding, pixel by pixel (rule R246) -/

/-- Coordinates of different pixels before and from a place on name different pixels. -/
theorem index_ne_of_mem_take_of_mem_drop {co : List Coord} {w m : Nat} {c d : Coord}
    (hnodup : (co.map (·.index w)).Nodup) (hc : c ∈ co.take m) (hd : d ∈ co.drop m) : c.index w ≠ d.index w := by
  rw [← List.take_append_drop m co, List.map_append, List.nodup_append] at hnodup
  obtain ⟨-, -, hdisjoint⟩ := hnodup
  exact hdisjoint _ (List.mem_map_of_mem hc) _ (List.mem_map_of_mem hd)

section
variable {co : List Coord} {w lsb : Nat} {hb : List Bool} {G P : List Byte}

/-- A pixel takes what the header bits, then what the groups make of it. -/
theorem getD_substSlots {a : Nat} (ha : a < P.length) :
    (substSlots co w lsb hb G P).getD a 0 = substPixel w lsb a (((co.drop hb.length).take G.length).zip G)
      (substPixel w 1 a ((co.take hb.length).zip (hb.map elemOfBit)) (P.getD a 0)) := by
  rw [substSlots, getD_substAll (by rwa [length_substAll]), getD_substAll ha]

variable (hnodup : (co.map (·.index w)).Nodup) (hin : ∀ c ∈ co, c.index w < P.length)
  (hfit : hb.length + G.length ≤ co.length)
include hnodup hin hfit

/-- The slot of a header bit takes that bit and no group. -/
theorem getD_substSlots_header {i : Nat} (hi : i < hb.length) :
    (substSlots co w lsb hb G P).getD ((co[i]'(by omega)).index w) 0 =
      subst (P.getD ((co[i]'(by omega)).index w) 0) (elemOfBit hb[i]) 1 := by
  have hco : i < co.length := by omega
  have hslot : i < (co.take hb.length).length := by
    rw [List.length_take]
    omega
  have hmem : co[i] ∈ co.take hb.length := List.mem_iff_getElem.2 ⟨i, hslot, List.getElem_take⟩
  have hgroups : ∀ cv ∈ ((co.drop hb.length).take G.length).zip G, cv.1.index w ≠ co[i].index w := fun cv hcv =>
    (index_ne_of_mem_take_of_mem_drop hnodup hmem (List.mem_of_mem_take (List.of_mem_zip hcv).1)).symm
  have hbit := substPixel_zip (k := 1) (vs := hb.map elemOfBit) (hnodup.sublist ((List.take_sublist hb.length co).map _))
    hslot (by simpa using hi) (P.getD (co[i].index w) 0)
  rw [List.getElem_take, List.getElem_map] at hbit
  rw [getD_substSlots (hin _ (List.getElem_mem hco)), substPixel_of_ne hgroups, hbit]

/-- The slot of a group takes that group and no header bit. -/
theorem getD_substSlots_payload {j : Nat} (hj : j < G.length) :
    (substSlots co w lsb hb G P).getD ((co[hb.length + j]'(by omega)).index w) 0 =
      subst (P.getD ((co[hb.length + j]'(by omega)).index w) 0) G[j] lsb := by
  have hco : hb.length + j < co.length := by omega
  have hslot : j < ((co.drop hb.length).take G.length).length := by
    rw [List.length_take, List.length_drop]
    omega
  have hmem : co[hb.length + j] ∈ co.drop hb.length :=
    List.mem_iff_getElem.2 ⟨j, by rw [List.length_drop]; omega, List.getElem_drop⟩
  have hheader : ∀ cv ∈ (co.take hb.length).zip (hb.map elemOfBit), cv.1.index w ≠ co[hb.length + j].index w :=
    fun cv hcv => index_ne_of_mem_take_of_mem_drop hnodup (List.of_mem_zip hcv).1 hmem
  have hgroup := substPixel_zip (k := lsb) (vs := G)
    (hnodup.sublist (((List.take_sublist G.length _).trans (List.drop_sublist hb.length co)).map _)) hslot hj
    (P.getD (co[hb.length + j].index w) 0)
  rw [List.getElem_take, List.getElem_drop] at hgroup
  rw [getD_substSlots (hin _ (List.getElem_mem hco)), substPixel_of_ne hheader, hgroup]

end

/-! ### EMBED (rule R248) -/

/-- `s` with the plane `Q` in `PL` and its old pixels in `RF`. -/
def State.withEmbedded (s : State) (Q : List Byte) : State :=
  { s with
    rf := s.rf.writeAll 0 s.plPixels
    pl := s.pl.writeAll 0 Q }

theorem State.read_rf_withEmbedded {s : State} (hwf : s.rf.wf) (Q : List Byte) (i : Nat) :
    (s.withEmbedded Q).rf.read i = if i < s.pixels then s.pl.read i else s.rf.read i :=
  State.read_rf_writeAll_plPixels hwf i

/-- Each pixel EMBED stores is the substituted one, corrected against the old one; at depth 1 the correction does nothing. -/
theorem State.read_pl_withEmbedded {s : State} (hwf : s.pl.wf) {hb : List Bool} {G password : List Byte} {lsb : Nat}
    (h1 : 1 ≤ lsb) (hfit : hb.length + G.length ≤ s.pixels) (i : Nat) :
    (s.withEmbedded (embedSlots s.plPixels s.ph.toNat s.pw.toNat password lsb hb G)).pl.read i =
      if i < s.pixels then
        adjust1 ((substSlots (permuteAll s.ph.toNat s.pw.toNat password) s.pw.toNat lsb hb G s.plPixels).getD i 0)
          (s.pl.read i) lsb
      else s.pl.read i := by
  rw [State.withEmbedded, Memory.read_writeAll_zero hwf ((length_embedSlots ..).trans s.length_plPixels)]
  split
  case isTrue hi =>
    rw [← State.getD_plPixels hi]
    exact getD_embedSlots hfit password h1 (by rwa [State.length_plPixels])
  case isFalse => rfl

theorem adjust1_eq_ite {k : Nat} (h1 : 1 ≤ k) (m o : Byte) : adjust1 m o k = if 1 < k then adjust1 m o k else m := by
  split
  case isTrue => rfl
  case isFalse h =>
    obtain rfl : k = 1 := by omega
    exact adjust1_depth_one m o

section
variable {s t : State} {bs bf bp : Buf} {xl xf : Reg}

/-- After its first three checks EMBED checks the lengths, embeds and stores. -/
theorem exec_embed_of_checks (h1 : 1 ≤ (s.readReg xl).toNat) (h8 : (s.readReg xl).toNat ≤ 8)
    (hlossless : s.lossyBit xf = false) (hplane : s.pixels ≤ s.caps.planeCap) {payload : List Byte} {flag : Bool}
    (ha : adopt Config.deflateFn (s.readBuf bs) (s.flagBit xf) = (payload, flag)) :
    exec (.embed bs bf bp xl xf) s = s.finish (
      require (payload.length ≤ Config.maxPayload) (.payloadTooLong payload.length) >>= fun _ =>
      require (s.blen bf ≤ Config.maxFilename) (.operandRange (s.blen bf) Config.maxFilename) >>= fun _ =>
      embedPlane Config.deflateFn s.plPixels s.ph.toNat s.pw.toNat (s.readBuf bs) (s.readBuf bf) (s.readBuf bp)
        (s.readReg xl).toNat (s.flagBit xf) >>= fun Q => .ok (s.withEmbedded Q)) := by
  obtain rfl : (adopt Config.deflateFn (s.readBuf bs) (s.flagBit xf)).1 = payload := congrArg Prod.fst ha
  exact (s.finish_checkDepth_of_valid h1 h8 _).trans <| (s.finish_require_of_true hlossless _ _).trans <|
    State.finish_checkPlane_of_le hplane _

/-- An EMBED that raised no fault passed its checks and stored the plane it computed. -/
theorem exec_embed_completed (h : exec (.embed bs bf bp xl xf) s = .next t) (hrun : t.runState ≠ .faulted) :
    1 ≤ (s.readReg xl).toNat ∧ (s.readReg xl).toNat ≤ 8 ∧ s.pixels ≤ s.caps.planeCap ∧
      ∃ Q, embedPlane Config.deflateFn s.plPixels s.ph.toNat s.pw.toNat (s.readBuf bs) (s.readBuf bf) (s.readBuf bp)
        (s.readReg xl).toNat (s.flagBit xf) = .ok Q ∧ t = (s.withEmbedded Q).advance := by
  obtain ⟨u, hu, rfl⟩ | ⟨f, -, rfl⟩ := State.finish_eq_next.1 h
  · obtain ⟨_, hdepth, hu⟩ := except_bind_eq_ok.1 hu
    obtain ⟨_, -, hu⟩ := except_bind_eq_ok.1 hu
    obtain ⟨_, hplane, hu⟩ := except_bind_eq_ok.1 hu
    obtain ⟨_, -, hu⟩ := except_bind_eq_ok.1 hu
    obtain ⟨_, -, hu⟩ := except_bind_eq_ok.1 hu
    obtain ⟨Q, hQ, hu⟩ := except_bind_eq_ok.1 hu
    obtain ⟨h1, h8⟩ := checkDepth_eq_ok.1 hdepth
    exact ⟨h1, h8, State.checkPlane_eq_ok.1 hplane, Q, hQ, congrArg State.advance (Except.ok.inj hu).symm⟩
  · exact absurd rfl hrun

end

/-- More slots than pixels: the numbers of rule R246. -/
theorem embedPlane_of_overfull {D : List Byte → List Byte} {P : List Byte} {H W : Nat}
    {secret filename password : List Byte} {lsb : Nat} {req : Bool} {payload : List Byte} {flag : Bool}
    (ha : adopt D secret req = (payload, flag)) (hpayload : payload.length ≤ Config.maxPayload)
    (hover : H * W < (headerEncode payload filename lsb flag).length + (bytesToGroups payload lsb).length) :
    embedPlane D P H W secret filename password lsb req = .error (.insufficientCapacity
      ((headerEncode payload filename lsb flag).length + (bytesToGroups payload lsb).length) (H * W)) := by
  simp only [embedPlane, ha, require_of_true hpayload, require_of_false (Nat.not_le.2 hover), except_ok_bind,
    except_error_bind]

section
variable {s : State} {password : List Byte} {hb : List Bool} {G : List Byte} {lsb : Nat}

/-- The pixel of slot `i`, the coordinate at place `i` of the full permutation (rule R246). -/
def State.slotPixel (s : State) (password : List Byte) (i : Nat) : Nat :=
  ((permuteAll s.ph.toNat s.pw.toNat password).getD i ⟨0, 0⟩).index s.pw.toNat

theorem State.slotPixel_eq {i : Nat} (hi : i < (permuteAll s.ph.toNat s.pw.toNat password).length) :
    s.slotPixel password i = (permuteAll s.ph.toNat s.pw.toNat password)[i].index s.pw.toNat := by
  rw [State.slotPixel, List.getD_eq_getElem _ _ hi]

theorem State.slotPixel_lt {i : Nat} (hi : i < s.pixels) : s.slotPixel password i < s.pixels := by
  have hco : i < (permuteAll s.ph.toNat s.pw.toNat password).length := hi.trans_eq (length_permuteAll ..).symm
  rw [State.slotPixel_eq hco]
  exact index_lt_of_mem_permuteAll s.ph.isLt s.pw.isLt (List.getElem_mem hco)

/-- What the slots' lemmas ask of the full permutation: different pixels, all in the plane, enough of them. -/
theorem State.slots_of_permuteAll (hfit : hb.length + G.length ≤ s.pixels) :
    ((permuteAll s.ph.toNat s.pw.toNat password).map (·.index s.pw.toNat)).Nodup ∧
    (∀ c ∈ permuteAll s.ph.toNat s.pw.toNat password, c.index s.pw.toNat < s.plPixels.length) ∧
    hb.length + G.length ≤ (permuteAll s.ph.toNat s.pw.toNat password).length := by
  refine ⟨nodup_map_index_permuteAll s.ph.isLt s.pw.isLt password, fun c hc => ?_, ?_⟩
  · exact (index_lt_of_mem_permuteAll s.ph.isLt s.pw.isLt hc).trans_eq s.length_plPixels.symm
  · exact hfit.trans_eq (length_permuteAll ..).symm

variable (hwf : s.pl.wf) (h1 : 1 ≤ lsb) (hfit : hb.length + G.length ≤ s.pixels)
include hwf h1 hfit

/-- The slot of a header bit after an embedding. -/
theorem State.read_withEmbedded_header {i : Nat} (hi : i < hb.length) :
    (s.withEmbedded (embedSlots s.plPixels s.ph.toNat s.pw.toNat password lsb hb G)).pl.read (s.slotPixel password i) =
      adjust1 (subst (s.pl.read (s.slotPixel password i)) (elemOfBit hb[i]) 1) (s.pl.read (s.slotPixel password i)) lsb := by
  have hpixel := State.slotPixel_lt (password := password) (show i < s.pixels by omega)
  obtain ⟨hnodup, hin, hco⟩ := State.slots_of_permuteAll (password := password) hfit
  have hslot := State.slotPixel_eq (show i < (permuteAll s.ph.toNat s.pw.toNat password).length by omega)
  rw [State.read_pl_withEmbedded hwf h1 hfit, if_pos hpixel, hslot, getD_substSlots_header hnodup hin hco hi, ← hslot,
    State.getD_plPixels hpixel]

/-- The slot of a group after an embedding. -/
theorem State.read_withEmbedded_payload {j : Nat} (hj : j < G.length) :
    (s.withEmbedded (embedSlots s.plPixels s.ph.toNat s.pw.toNat password lsb hb G)).pl.read
        (s.slotPixel password (hb.length + j)) =
      adjust1 (subst (s.pl.read (s.slotPixel password (hb.length + j))) G[j] lsb)
        (s.pl.read (s.slotPixel password (hb.length + j))) lsb := by
  have hpixel := State.slotPixel_lt (password := password) (show hb.length + j < s.pixels by omega)
  obtain ⟨hnodup, hin, hco⟩ := State.slots_of_permuteAll (password := password) hfit
  have hslot := State.slotPixel_eq (show hb.length + j < (permuteAll s.ph.toNat s.pw.toNat password).length by omega)
  rw [State.read_pl_withEmbedded hwf h1 hfit, if_pos hpixel, hslot, getD_substSlots_payload hnodup hin hco hj, ← hslot,
    State.getD_plPixels hpixel]

/-- A pixel of no slot keeps its value: it is not substituted, so the correction leaves it. -/
theorem State.read_withEmbedded_of_ne {a : Nat} (ha : ∀ i, i < hb.length + G.length → s.slotPixel password i ≠ a) :
    (s.withEmbedded (embedSlots s.plPixels s.ph.toNat s.pw.toNat password lsb hb G)).pl.read a = s.pl.read a := by
  have hslots : ∀ c ∈ (permuteAll s.ph.toNat s.pw.toNat password).take (hb.length + G.length),
      c.index s.pw.toNat ≠ a := by
    intro c hc
    obtain ⟨i, hi, rfl⟩ := List.mem_iff_getElem.1 hc
    rw [List.length_take] at hi
    rw [List.getElem_take, ← State.slotPixel_eq (by omega)]
    exact ha i (by omega)
  rw [State.read_pl_withEmbedded hwf h1 hfit]
  split
  case isTrue hpixel => rw [getD_substSlots_of_ne hb G _ hslots, State.getD_plPixels hpixel, adjust1_self]
  case isFalse => rfl

end

/-- Settles O50: the checks in turn, then the planes as the slots of the permutation make them. -/
theorem embedCommand : Obligations.EmbedCommand := by
  intro bs bf bp xl xf s
  obtain ⟨⟨payload, flag⟩, hr⟩ : ∃ r, r = adopt Config.deflateFn (s.readBuf bs) ((s.readReg xf).getLsbD 0) := ⟨_, rfl⟩
  have ha : adopt Config.deflateFn (s.readBuf bs) (s.flagBit xf) = (payload, flag) := hr.symm
  obtain ⟨hb, hhb⟩ : ∃ l, l = headerEncode payload (s.readBuf bf) (s.readReg xl).toNat flag := ⟨_, rfl⟩
  obtain ⟨G, hG⟩ : ∃ l, l = bytesToGroups payload (s.readReg xl).toNat := ⟨_, rfl⟩
  rw [← hr]
  refine ⟨_, _, payload, hb, G, s.slotPixel (s.readBuf bp), _, rfl, rfl, rfl, hhb, hG, fun _ => rfl,
    fun _ _ => rfl, ?word, fun hk => s.finish_checkDepth_of_invalid hk _, fun h1 h8 hlossy => ?lossy,
    fun h1 h8 hlossless hlarge => ?plane, fun h1 h8 hlossless hplane hlong => ?payload,
    fun h1 h8 hlossless hplane hpayload hlong => ?name, fun h1 h8 hlossless hplane hpayload hname hover => ?capacity,
    fun h1 h8 hlossless hplane hpayload hname hfit hpl hrf => ?completes⟩
  case word => simp (disch := omega) [encode, Instr.opcode, toNat_wordR]
  case lossy =>
    exact (s.finish_checkDepth_of_valid h1 h8 _).trans
      (s.finish_require_of_false (ne_false_of_eq_true hlossy) .unsupportedOutputFormat _)
  case plane =>
    exact (s.finish_checkDepth_of_valid h1 h8 _).trans <| (s.finish_require_of_true hlossless _ _).trans
      (State.finish_checkPlane_of_lt hlarge _)
  case payload =>
    exact (exec_embed_of_checks h1 h8 hlossless hplane ha).trans
      (s.finish_require_of_false (Nat.not_le.2 hlong) (.payloadTooLong _) _)
  case name =>
    exact (exec_embed_of_checks h1 h8 hlossless hplane ha).trans <| (s.finish_require_of_true hpayload _ _).trans
      (s.finish_require_of_false (Nat.not_le.2 hlong) (.operandRange _ _) _)
  case capacity =>
    subst hhb hG
    refine (exec_embed_of_checks h1 h8 hlossless hplane ha).trans <| (s.finish_require_of_true hpayload _ _).trans <|
      (s.finish_require_of_true hname _ _).trans ?_
    rw [embedPlane_of_overfull ha hpayload hover]
    rfl
  case completes =>
    refine ⟨(s.withEmbedded (embedSlots s.plPixels s.ph.toNat s.pw.toNat (s.readBuf bp) (s.readReg xl).toNat hb G)).pl,
      (s.withEmbedded (embedSlots s.plPixels s.ph.toNat s.pw.toNat (s.readBuf bp) (s.readReg xl).toNat hb G)).rf,
      fun i hi => (State.read_rf_withEmbedded hrf _ i).trans (if_pos hi),
      fun i hi => (State.read_rf_withEmbedded hrf _ i).trans (if_neg (Nat.not_lt.2 hi)), fun i hi => ?header,
      fun j hj => ?group, fun a => State.read_withEmbedded_of_ne hpl h1 hfit, ?exec⟩
    case header =>
      rw [State.read_withEmbedded_header hpl h1 hfit hi, adjust1_eq_ite h1, List.getD_eq_getElem _ _ hi]
      rfl
    case group =>
      rw [State.read_withEmbedded_payload hpl h1 hfit hj, adjust1_eq_ite h1, List.getD_eq_getElem _ _ hj]
    case exec =>
      subst hhb hG
      refine (exec_embed_of_checks h1 h8 hlossless hplane ha).trans <| (s.finish_require_of_true hpayload _ _).trans <|
        (s.finish_require_of_true hname _ _).trans ?_
      rw [(embedPlane_eq_ok ha).2 ⟨hpayload, hfit, rfl⟩]
      rfl

/-! ### The leaf commands do what EMBED does (rule R251 item 4) -/

/-- SCAT on coordinates that all lie in the plane, pixel by pixel. -/
theorem exec_scat_of_inside {s : State} {bs : Buf} {xk xo : Reg} {k off : Nat} (hk : (s.readReg xk).toNat = k)
    (hoff : (s.readReg xo).toNat = off) (h1 : 1 ≤ k) (h8 : k ≤ 8) (hplane : s.pixels ≤ s.caps.planeCap)
    (hwindow : off + s.blen bs ≤ s.clen) (hinside : ∀ c ∈ s.coords, s.Inside c) (hwf : s.pl.wf) :
    ∃ m : Memory 8, m.wf ∧
      (∀ a, m.read a = substPixel s.pw.toNat k a ((s.window off (s.blen bs)).zip (s.readBuf bs)) (s.pl.read a)) ∧
      exec (.scat bs xk xo) s = .next ({ s with pl := m } : State).advance := by
  subst hk hoff
  refine ⟨_, wf_scatter hwf _ _ _, read_scatter hwf _ _ _, (exec_scat bs xk xo s).trans
    (State.finish_afterSlotChecks_of_passed _ h1 h8 hplane hwindow fun i hi => hinside _ ?_)⟩
  have hC : (s.readReg xo).toNat + i < s.coords.length :=
    show (s.readReg xo).toNat + i < s.clen by omega
  rw [State.entry, List.getD_eq_getElem _ _ hC]
  exact List.getElem_mem hC

/-- No substitution at coordinates of the plane reaches an element past it. -/
theorem State.substPixel_window_of_le {s : State} (hinside : ∀ c ∈ s.coords, s.Inside c) (k off n : Nat) (vs : List Byte)
    {a : Nat} (ha : s.pixels ≤ a) (p : Byte) : substPixel s.pw.toNat k a ((s.window off n).zip vs) p = p := by
  refine substPixel_of_ne (fun cv hcv h => ?_) p
  obtain ⟨hrow, hcol⟩ := hinside cv.1 (List.mem_of_mem_drop (List.mem_of_mem_take (List.of_mem_zip hcv).1))
  have hlt : cv.1.index s.pw.toNat < s.pixels := Coord.index_lt hrow hcol
  omega

/-- SNAP, SCAT of one buffer at depth 1, SCAT of another on the coordinates after it, OPA: the planes they leave. -/
theorem exec_leaf_commands {u : State} {bh bg : Buf} {one zero xl xh : Reg} {lsb : Nat} (hone : u.readReg one = 1)
    (hzero : u.readReg zero = 0) (hxl : (u.readReg xl).toNat = lsb) (hxh : (u.readReg xh).toNat = u.blen bh)
    (h1 : 1 ≤ lsb) (h8 : lsb ≤ 8) (hplane : u.pixels ≤ u.caps.planeCap) (hclen : u.blen bh + u.blen bg = u.clen)
    (hinside : ∀ c ∈ u.coords, u.Inside c) (hpl : u.pl.wf) (hrf : u.rf.wf) :
    ∃ u1 u2 u3 u4, exec .snap u = .next u1 ∧ exec (.scat bh one zero) u1 = .next u2 ∧
      exec (.scat bg xl xh) u2 = .next u3 ∧ exec (.opa xl) u3 = .next u4 ∧ u4.runState = u.runState ∧
      (∀ i, u4.pl.read i = if i < u.pixels then
          adjust1 (substPixel u.pw.toNat lsb i ((u.window (u.blen bh) (u.blen bg)).zip (u.readBuf bg))
            (substPixel u.pw.toNat 1 i ((u.window 0 (u.blen bh)).zip (u.readBuf bh)) (u.pl.read i))) (u.pl.read i) lsb
        else u.pl.read i) ∧
      ∀ i, u4.rf.read i = if i < u.pixels then u.pl.read i else u.rf.read i := by
  obtain ⟨_, rfl, -, -, hsnap⟩ := snapCommand u
  obtain ⟨rf, hsnapped, hrest, hexec1⟩ := hsnap hplane hrf
  obtain ⟨pl2, hwf2, hread2, hexec2⟩ := exec_scat_of_inside (s := ({ u with rf := rf } : State).advance) (bs := bh)
    (congrArg BitVec.toNat hone) (congrArg BitVec.toNat hzero) le_rfl (by decide) hplane
    (show 0 + u.blen bh ≤ u.clen by omega) hinside hpl
  obtain ⟨pl3, hwf3, hread3, hexec3⟩ := exec_scat_of_inside
    (s := ({ ({ u with rf := rf } : State).advance with pl := pl2 } : State).advance) (bs := bg) hxl hxh h1 h8 hplane
    hclen.le hinside hwf2
  obtain ⟨_, _, hk, rfl, -, -, -, hopa⟩ := opaCommand xl
    ({ ({ ({ u with rf := rf } : State).advance with pl := pl2 } : State).advance with pl := pl3 } : State).advance
  obtain rfl := hxl.symm.trans hk
  obtain ⟨pl4, hcorrected, hbeyond, hexec4⟩ := hopa h1 h8 hplane hwf3
  refine ⟨_, _, _, _, hexec1, hexec2, hexec3, hexec4, rfl, fun i => ?working, fun i => ?reference⟩
  case working =>
    split
    case isTrue hi =>
      have hpixel := hcorrected i hi
      simp only [State.advance_pl, State.advance_rf, hread3, hread2, hsnapped i hi] at hpixel
      exact hpixel
    case isFalse hi =>
      have hpixel := hbeyond i (Nat.le_of_not_lt hi)
      simp only [State.advance_pl, hread3, hread2] at hpixel
      exact hpixel.trans <| (State.substPixel_window_of_le hinside _ _ _ _ (Nat.le_of_not_lt hi) _).trans
        (State.substPixel_window_of_le hinside _ _ _ _ (Nat.le_of_not_lt hi) _)
  case reference =>
    split
    case isTrue hi => exact hsnapped i hi
    case isFalse hi => exact hrest i (Nat.le_of_not_lt hi)

/-- The windows of a limited permutation are the slots of the full one. -/
theorem State.window_of_coords_eq_take {u : State} {co : List Coord} {m n : Nat} (h : u.coords = co.take (m + n)) :
    u.window 0 m = co.take m ∧ u.window m n = (co.drop m).take n := by
  constructor
  · rw [State.window, h, List.drop_zero, List.take_take, Nat.min_eq_left (Nat.le_add_right m n)]
  · rw [State.window, h, List.drop_take, Nat.add_sub_cancel_left, List.take_take, Nat.min_self]

/-- Settles O55: on the slots of the permutation both make of each pixel what header bits, groups and correction make of
it. -/
theorem leafCommandsEqualEmbed : Obligations.LeafCommandsEqualEmbed := by
  intro bs bf bp bh bg xl xf one zero xh s t u payload flag hinv hrun hexec htrun ha hu hbh hbg hco hone hzero hxl hxh
  obtain ⟨-, ⟨-, -, ⟨hpl, -⟩, ⟨hrf, -⟩, -⟩, -⟩ := hinv
  obtain ⟨h1, h8, hplane, Q, hQ, rfl⟩ := exec_embed_completed hexec (by simp [htrun])
  obtain ⟨-, hfit, rfl⟩ := (embedPlane_eq_ok ha).1 hQ
  have hph : u.ph = s.ph := by rw [hu]
  have hpw : u.pw = s.pw := by rw [hu]
  have hcaps : u.caps = s.caps := by rw [hu]
  have hupl : u.pl = s.pl := by rw [hu]
  have hurf : u.rf = s.rf := by rw [hu]
  have hpixels : u.pixels = s.pixels := by rw [State.pixels, hph, hpw, State.pixels]
  have hheader : u.blen bh = (headerEncode payload (s.readBuf bf) (s.readReg xl).toNat flag).length :=
    (congrArg List.length hbh).trans (List.length_map _)
  have hgroups : u.blen bg = (bytesToGroups payload (s.readReg xl).toNat).length := congrArg List.length hbg
  have hslots : u.blen bh + u.blen bg ≤ s.pixels := by rwa [hheader, hgroups]
  have hclen : u.blen bh + u.blen bg = u.clen := by
    rw [State.clen, hco, length_permute]
    exact (Nat.min_eq_left hslots).symm
  rw [permute_eq_take_permuteAll] at hco
  obtain ⟨hfirst, hnext⟩ := State.window_of_coords_eq_take hco
  have hinside : ∀ c ∈ u.coords, u.Inside c := by
    intro c hc
    rw [hco] at hc
    obtain ⟨i, hi, rfl⟩ := mem_permuteAll_iff.1 (List.mem_of_mem_take hc)
    rw [State.Inside, hph, hpw]
    exact coordOf_inside hi
  obtain ⟨u1, u2, u3, u4, hsnap, hscat, hscat', hopa, hrun4, hpl4, hrf4⟩ := exec_leaf_commands hone hzero
    (congrArg BitVec.toNat hxl) hxh h1 h8 (by rwa [hpixels, hcaps]) hclen hinside (hupl ▸ hpl) (hurf ▸ hrf)
  refine ⟨u1, u2, u3, u4, hsnap, hscat, hscat', hopa, ?_, fun i => ?working, fun i => ?reference⟩
  · rw [hrun4, hu]
    exact hrun
  case working =>
    rw [hpl4, hpixels, hupl, State.advance_pl, State.read_pl_withEmbedded hpl h1 hfit]
    split
    case isTrue hi =>
      rw [getD_substSlots (by rwa [State.length_plPixels]), State.getD_plPixels hi, hfirst, hnext, hpw, hbh, hbg, hheader,
        hgroups]
      rfl
    case isFalse => rfl
  case reference =>
    rw [hrf4, hpixels, hupl, hurf, State.advance_rf, State.read_rf_withEmbedded hrf]

end Sys2Proof.Machine
end

section
/-! Proofs, `47_system.md`: every step has a next state, every run ends within its bound, and the sequencer's own commands. -/

namespace Sys2Proof.Machine

/-! ### Every step has a next state (rules R270, R351, R355) -/

/-- HALT and `finish` both end in a next state: there is no third end of a command. -/
theorem exists_exec_eq_next (i : Instr) (s : State) : ∃ t, exec i s = .next t := by
  obtain rfl | ⟨e, he⟩ := exec_ends_through_finish i s
  · exact ⟨_, exec_halt_eq_next.2 rfl⟩
  · exact ⟨_, he⟩

theorem exists_step_eq_next (s : State) : ∃ t, step s = .next t := by
  by_cases hs : s.runState = .running
  · cases hf : fetch s with
    | ok i => exact step_of_fetch_ok hs hf ▸ exists_exec_eq_next i s
    | error f => exact ⟨_, step_of_fetch_error hs hf⟩
  · exact ⟨s, step_of_ne_running hs⟩

/-- Settles O10: every command has a next state, a fetch fault has its entry, and a stopped unit stands. -/
theorem everyStepHasANextState : Obligations.EveryStepHasANextState :=
  ⟨exists_step_eq_next, exists_exec_eq_next, fun _ => step_of_ne_running⟩

/-! ### Runs (rules R276, R352) -/

theorem State.stepped_of_step_eq_next {s t : State} (h : step s = .next t) : s.stepped = t := by
  simp [State.stepped, h]

/-- `stepped` loses nothing of `step`. -/
theorem step_eq_next_stepped (s : State) : step s = .next s.stepped := by
  obtain ⟨t, ht⟩ := exists_step_eq_next s
  rw [ht, State.stepped_of_step_eq_next ht]

@[simp] theorem State.runSteps_zero (s : State) : s.runSteps 0 = s := rfl

@[simp] theorem State.runSteps_succ (s : State) (n : Nat) : s.runSteps (n + 1) = s.stepped.runSteps n := rfl

theorem State.runSteps_add (s : State) (m n : Nat) : s.runSteps (m + n) = (s.runSteps m).runSteps n := by
  induction m generalizing s with
  | zero => simp
  | succ m ih => rw [Nat.succ_add, State.runSteps_succ, ih, State.runSteps_succ]

/-- A stopped unit stands for any number of steps (rule R355). -/
theorem State.runSteps_of_ne_running {s : State} (h : s.runState ≠ .running) (n : Nat) : s.runSteps n = s := by
  induction n with
  | zero => rfl
  | succ n ih => rw [State.runSteps_succ, State.stepped_of_step_eq_next (step_of_ne_running h), ih]

/-- The run ended: by a HALT or by a fault (rule R22). -/
def State.HasEnded (s : State) : Prop := s.runState = .done ∨ s.runState = .faulted

theorem State.HasEnded.ne_running {s : State} (h : s.HasEnded) : s.runState ≠ .running := by
  obtain h | h := h <;> simp [h]

/-- A step ends the run, or moves `cp` one nearer to the end of the command memory (rules R21, R270). -/
theorem State.stepped_cases {s : State} (hc : s.caps.Lawful) (hs : s.runState = .running) :
    s.stepped.HasEnded ∨ (s.stepped.runState = .running ∧ s.stepped.caps = s.caps ∧ s.cp.toNat < s.caps.cmdCap ∧
      s.stepped.cp.toNat = s.cp.toNat + 1) := by
  obtain ⟨f, hfault⟩ | ⟨-, hdone⟩ | ⟨u, hcp, hu, hnext⟩ := step_cases hs (step_eq_next_stepped s)
  · exact .inl (.inr (by rw [hfault, State.takeFault_runState]))
  · exact .inl (.inl (by rw [hdone]))
  · obtain ⟨hrun, -, -, -, -, -, -, -, hcaps⟩ := hu.control
    rw [hnext]
    exact .inr ⟨hrun.trans hs, hcaps, hcp, by rw [State.advance_cp, hu.cp, toNat_cp_succ hc hcp]⟩

/-- Each step of a run uses up one of the indices from `cp` to `CMD_CAP`, the last of which faults. -/
theorem State.hasEnded_runSteps {s : State} {n : Nat} (hc : s.caps.Lawful) (hs : s.runState = .running)
    (hn : s.caps.cmdCap - s.cp.toNat < n) : (s.runSteps n).HasEnded := by
  induction n generalizing s with
  | zero => exact absurd hn (Nat.not_lt_zero _)
  | succ n ih =>
    rw [State.runSteps_succ]
    obtain hend | ⟨hrun, hcaps, hcp, hcp'⟩ := State.stepped_cases hc hs
    · rwa [State.runSteps_of_ne_running hend.ne_running]
    · exact ih (hcaps ▸ hc) hrun (by rw [hcaps, hcp']; omega)

/-- Settles O23: the run has ended after the bound's steps, and an ended unit stands. -/
theorem everyRunEnds : Obligations.EveryRunEnds := by
  intro s m hc hs hm
  have hend := State.hasEnded_runSteps hc hs (Nat.lt_succ_self (s.caps.cmdCap - s.cp.toNat))
  obtain ⟨k, rfl⟩ := Nat.exists_eq_add_of_le hm
  have hstands := (s.runSteps_add _ k).trans (State.runSteps_of_ne_running hend.ne_running k)
  exact ⟨hstands ▸ hend, hstands⟩

/-! ### The sequencer's commands (rules R84, R271, R272, R273) -/

/-- Settles O24: HALT writes the run state only. -/
theorem haltEndsTheRun : Obligations.HaltEndsTheRun := by
  refine ⟨?word, fun _ => exec_halt_eq_next.2 rfl⟩
  case word => simp (disch := omega) [encode, Instr.opcode, toNat_wordR]

/-- The last of two writes of one register stands. -/
@[simp] theorem State.writeReg_writeReg_self (s : State) (r : Reg) (v w : Word) :
    (s.writeReg r v).writeReg r w = s.writeReg r w := by
  simp [State.writeReg]

theorem State.writeReg_advance (s : State) (r : Reg) (v : Word) : s.advance.writeReg r v = (s.writeReg r v).advance := rfl

theorem exec_li (xd : Reg) (imm : Half) (s : State) :
    exec (.li xd imm) s = .next (s.writeReg xd (imm.setWidth 32)).advance := rfl

/-- The number rule R273 writes is the two halves side by side. -/
theorem ofNat_upper_lower (imm : Half) (v : Word) :
    BitVec.ofNat 32 (imm.toNat * 2 ^ 16 + v.toNat % 2 ^ 16) = imm ++ v.setWidth 16 := by
  have hlow : v.toNat % 2 ^ 16 < 2 ^ 16 := Nat.mod_lt _ (by decide)
  have happend : (imm ++ v.setWidth 16).toNat = imm.toNat * 2 ^ 16 + v.toNat % 2 ^ 16 := by
    rw [BitVec.toNat_append, BitVec.toNat_setWidth, ← Nat.shiftLeft_add_eq_or_of_lt hlow, Nat.shiftLeft_eq]
  rw [← happend, BitVec.ofNat_toNat, BitVec.setWidth_eq]

theorem exec_lui (xd : Reg) (imm : Half) (s : State) :
    exec (.lui xd imm) s = .next (s.writeReg xd (imm ++ (s.readReg xd).setWidth 16)).advance := by
  rw [← ofNat_upper_lower]
  rfl

theorem getLsbD_setWidth_half (imm : Half) (j : Nat) :
    (imm.setWidth 32).getLsbD j = (decide (j < 16) && imm.getLsbD j) := by
  rw [BitVec.getLsbD_setWidth]
  by_cases hj : j < 16
  · have hword : j < 32 := by omega
    simp [hj, hword]
  · simp [BitVec.getLsbD_of_ge imm j (Nat.le_of_not_lt hj)]

theorem getLsbD_append_lower (imm : Half) (v : Word) (j : Nat) :
    (imm ++ v.setWidth 16).getLsbD j = if j < 16 then v.getLsbD j else imm.getLsbD (j - 16) := by
  rw [BitVec.getLsbD_append]
  split
  case isTrue hj => simp [hj]
  case isFalse => rfl

/-- Upper half beside lower half is the whole word. -/
theorem upper_append_lower (v : Word) : v.extractLsb' 16 16 ++ ((v.extractLsb' 0 16).setWidth 32).setWidth 16 = v := by
  rw [BitVec.setWidth_setWidth_of_le _ (by decide), BitVec.setWidth_eq]
  exact Coord.pack_unpack v

/-- Settles O25: each command writes one register; after LI of the lower half LUI puts the upper half beside it. -/
theorem loadImmediatesSetRegisterHalves : Obligations.LoadImmediatesSetRegisterHalves := by
  refine ⟨fun xd imm s => ⟨?liWord, _, getLsbD_setWidth_half imm, exec_li xd imm s⟩,
    fun xd imm s => ⟨?luiWord, _, getLsbD_append_lower imm (s.readReg xd), exec_lui xd imm s⟩,
    fun xd imm s => ⟨_, _, _, rfl, exec_li .., ?pair⟩⟩
  case liWord | luiWord => simp (disch := omega) [encode, Instr.opcode, toNat_wordI]
  case pair =>
    rw [exec_lui, State.advance_then_readReg, State.readReg_writeReg_self, upper_append_lower, State.writeReg_advance,
      State.writeReg_writeReg_self]

end Sys2Proof.Machine
end

section
/-! Proofs, `60_exceptions.md`: the fault of a fetch past the command memory, and the numbers each fault leaves. -/

namespace Sys2Proof.Machine

/-- No word is read past the command memory (rule R312). -/
theorem fetch_of_le {s : State} (hcp : s.caps.cmdCap ≤ s.cp.toNat) :
    fetch s = .error (.fetchFault s.cp.toNat s.caps.cmdCap) := if_neg (Nat.not_lt.2 hcp)

/-- Settles O7: the fetch raises `FetchFault`, whose numbers are 7, `cp` and `CMD_CAP`. -/
theorem fetchPastTheEndRaisesFetchFault : Obligations.FetchPastTheEndRaisesFetchFault :=
  fun _ hs hcp => step_of_fetch_error hs (fetch_of_le hcp)

/-- The entry leaves the fault's own code and information words (rules R300, R305). -/
theorem State.takeFault_eq_faultEntry_numbers (s : State) (f : Fault) :
    s.takeFault f = s.faultEntry f.code.toNat f.info0 f.info1 := by
  simp only [State.takeFault, State.faultEntry, BitVec.ofNat_toNat, BitVec.setWidth_eq]

/-- Settles O8: the numbers of each of the twelve kinds are the table's. -/
theorem faultsLeaveTheirNumbers : Obligations.FaultsLeaveTheirNumbers := by
  intro s u v
  have henters := s.takeFault_eq_faultEntry_numbers
  exact ⟨henters (.invalidParameter u), henters .unsupportedOutputFormat, henters (.insufficientCapacity u v),
    henters (.bitWidthOverflow u), henters (.integrityFailure u v), henters (.illegalCommand u),
    henters (.fetchFault u v), henters (.operandRange u v), henters (.bufferOverflow u v), henters (.inflateError u),
    henters (.payloadTooLong u), henters (.headerTruncated u v)⟩

end Sys2Proof.Machine
end

section
/-! Proofs, `70_reset_and_hazards.md`: what reset leaves in every piece of state. -/

namespace Sys2Proof.Machine

/-- Reset takes effect in every run state (rules R63, R340). -/
theorem State.hostAct_reset (s : State) : s.hostAct .reset = State.resetWith s.caps := if_neg fun h => h.2 rfl

@[simp] theorem State.resetWith_readReg (c : Capacities) (r : Reg) : (State.resetWith c).readReg r = 0 := by
  simp [State.readReg, State.resetWith]

/-- `VERSION` is a constant a stopped unit always shows (rule R30). -/
theorem State.hostReadReg_version {s : State} (h : s.runState ≠ .running) : s.hostReadReg 0x07 = 0x0101 :=
  State.hostReadReg_of_control h (by decide)

/-- Settles O18: reset and the host's reset both leave the reset state of the unit's capacities. -/
theorem resetGivesEveryStateItsValue : Obligations.ResetGivesEveryStateItsValue := by
  intro t ht
  obtain ⟨c, rfl⟩ : ∃ c, t = State.resetWith c := by
    obtain rfl | ⟨s, rfl⟩ := ht
    · exact ⟨_, rfl⟩
    · exact ⟨_, s.hostAct_reset⟩
  exact ⟨State.resetWith_readReg c, rfl, rfl, rfl, rfl, rfl, rfl, rfl, rfl, State.resetWith_readBuf c, rfl,
    Memory.read_nil, Memory.read_nil, Memory.read_nil, State.hostReadReg_version nofun⟩

end Sys2Proof.Machine
end
